-- ==== Sys2Proof/Word.lean ====
section
/-! DEFINITION. Word.lean: the plain value types of the block (spec/00_scope.md R9, R10; spec/10_state.md R32, R36). -/

namespace Sys2Proof

/-- A byte: the width of a data bus (R8, P_BUS_WIDTH = 8). -/
abbrev Byte := BitVec 8

/-- A command word, as the harness writes it to CMD (R39, R113). -/
abbrev CommandWord := BitVec 64

/-- An event word of the trace (R108, R113). -/
abbrev EventWord := BitVec 24

/-- A level (R10). -/
inductive Level where
  | low
  | high
  deriving DecidableEq, Repr, Inhabited

/-- A direction (R10): IN, OUT, IN_PULLUP. -/
inductive Dir where
  | input
  | output
  | inputPullup
  deriving DecidableEq, Repr, Inhabited

/-- The two data buses (R8, P_BUS_COUNT = 2; R36): busLow and busHigh. -/
inductive Bus where
  | low
  | high
  deriving DecidableEq, Repr, Inhabited

/-- A logical pin id 0x00..0x2F (R32). Ids 0x20..0x2F are the ground pins, of which the first P_NGND exist. -/
abbrev Pin := Fin 48

/-- One word of code: a command word of the harness or an event word of the trace (R113). -/
inductive CodeWord where
  | command (w : CommandWord)
  | event (w : EventWord)
  deriving DecidableEq, Repr

end Sys2Proof
end

