-- ==== Sys2Proof/Config.lean ====
section
/-! DEFINITION. Config.lean: the parameters of spec/00_scope.md R8 as plain data, and the two opaque free values. -/

namespace Sys2Proof

/-- P_BUS_ORDER (R36): the declared member order. It has no effect on any value. -/
inductive MemberOrder where
  | msbFirst
  | lsbFirst
  deriving DecidableEq, Repr

/-- P_BUS_CHECK_ORDER (R180): which bus CHECK compares first. -/
inductive BusCheckOrder where
  | lowFirst
  | highFirst
  deriving DecidableEq, Repr

/-- P_INT_PROFILE (R260 to R262): the reference profile's placeholders, or any other profile. -/
inductive IntProfile where
  | reference
  | other
  deriving DecidableEq, Repr

/-- The read-only configuration (R8, R43), injected once before the first command. -/
structure Config where
  /-- P_PINMAP: the physical pin number of each logical pin. No rule depends on it. -/
  pinMap : Vector Nat 48
  /-- P_NGND: how many ground pins exist, 1..16. -/
  nGnd : Nat
  /-- P_BUS_ORDER. -/
  memberOrder : MemberOrder
  /-- P_MODE_WORD. -/
  modeWord : BitVec 16
  /-- P_CLOCK_SAMPLES, at least 1. -/
  clockSamples : Nat
  /-- P_CLOCK_STUCK_LOW_EXPECTED. -/
  clockStuckLowExpected : Level
  /-- P_LATCH_ENABLE_PIN. -/
  latchEnablePin : Pin
  /-- P_BUS_CHECK_ORDER. -/
  busCheckOrder : BusCheckOrder
  /-- P_RESET_LATCH. -/
  resetLatch : Level
  /-- P_INT_PROFILE. -/
  intProfile : IntProfile
  deriving DecidableEq, Repr

/-- The reference profile (R8): the spec's value or default of each parameter. P_NGND, P_PINMAP and P_BUS_ORDER are OPEN:
the values here are the model's (DESIGN CHOICE, unsafe: notes/assumptions/4.md). -/
def Config.reference : Config where
  pinMap := Vector.ofFn fun p => p.val
  nGnd := 1
  memberOrder := .lsbFirst
  modeWord := 0x36FF
  clockSamples := 1000
  clockStuckLowExpected := .high
  latchEnablePin := 0x15
  busCheckOrder := .lowFirst
  resetLatch := .low
  intProfile := .reference

/-- FREE VALUE (R72): the level the unconstrained target answers when pin `p` is sampled after the trace `trace`. It has no
body, so no proof can see a value of it (safe: notes/assumptions/1.md). -/
opaque Config.freeSample (trace : List EventWord) (p : Pin) : Level

/-- FREE VALUE (R85): the level the echo target takes from a pin that the block does not drive ("undefined otherwise"),
after the trace `trace` (safe: notes/assumptions/2.md). -/
opaque Config.undrivenLevel (trace : List EventWord) (p : Pin) : Level

end Sys2Proof
end

