-- ==== Sys2Proof/Syntax.lean ====
section
/-! DEFINITION. Syntax.lean: the commands and micro-operations (one constructor per row of spec/opcode_table.json), the
Outcomes a command returns, and the reasons a word spells nothing. -/

namespace Sys2Proof

/-- The eight commands (spec/30_encoding.md R102) and the eight micro-operations (R109). An address value `a` is the 32-bit
value of R106. The level of RDLVL and the value of BUSRD are what the event word records as sampled (R140). -/
inductive Instr where
  | idle
  | check
  | mread (a : BitVec 32)
  | mwrite (a : BitVec 32) (d : Byte)
  | bcr (a : BitVec 32)
  | bcw (a : BitVec 32) (d : BitVec 16)
  | waitint (sel : Byte) (timeoutMs : BitVec 32)
  | ackint
  | setdir (p : Pin) (d : Dir)
  | wrlvl (p : Pin) (l : Level)
  | rdlvl (p : Pin) (l : Level)
  | busdir (b : Bus) (d : Dir)
  | buswr (b : Bus) (v : Byte)
  | busrd (b : Bus) (v : Byte)
  | critenter
  | critleave
  deriving DecidableEq, Repr

/-- The Outcomes (spec/30_encoding.md R111, spec/60_exceptions.md R271). The reference profile never produces `timeout`
(R275). -/
inductive CmdOutcome where
  | success
  | pinStateMismatch (p : Pin) (expected observed : Level)
  | busValueMismatch (b : Bus) (expected observed : Byte)
  | notImplemented
  | timeout
  deriving DecidableEq, Repr

/-- Why a word spells no command (R104, R287) or no event (R109, R110, R112). -/
inductive Invalid where
  /-- OPC 0x00 or 0x09..0xFF. -/
  | reservedOpcode
  /-- The RSV byte is nonzero. -/
  | reservedByte
  /-- A must-be-zero operand bit is set. -/
  | operandBits
  /-- An address value has a bit of 31:18 set. -/
  | addressBits
  /-- KIND 0x0 or 0x9..0xF. -/
  | reservedKind
  /-- ARG is no direction or level code of R110, or is nonzero where it must be 0. -/
  | badArg
  /-- ID names no existing pin or no bus, or is nonzero where it must be 0. -/
  | badId
  /-- VAL is nonzero where it must be 0. -/
  | badVal
  deriving DecidableEq, Repr

/-- Whether an instruction is one of the eight commands the harness may issue (R149: the micro-operations are not). -/
def Instr.isCommand : Instr → Bool
  | .idle | .check | .mread _ | .mwrite _ _ | .bcr _ | .bcw _ _ | .waitint _ _ | .ackint => true
  | .setdir _ _ | .wrlvl _ _ | .rdlvl _ _ | .busdir _ _ | .buswr _ _ | .busrd _ _ | .critenter | .critleave => false

end Sys2Proof
end

