-- ==== Sys2Proof/Machine/State.lean ====
section
/-! DEFINITION. Machine/State.lean: everything the spec gives the machine, as plain data, with its power-on reset
(spec/10_state.md R30 to R48, spec/70_reset_and_hazards.md R300), and the reasons a run stops. -/

namespace Sys2Proof.Machine

/-- The model faults of spec/60_exceptions.md R285. A meaning records one in State.faultMark (a next state, as R285
describes it); the step after it, and every later one, answers it (R294: the run ends at the first fault). -/
inductive Fault where
  /-- Raised by RdLvl of a pin whose direction is OUT (R142). Safe: the chip would go on. -/
  | readOfOutputPin (p : Pin)
  /-- Raised by BusRd of a bus with a member OUT (R145). Safe: the chip would go on. -/
  | busReadNotInput (b : Bus)
  /-- Raised by BusWr of a bus with a member not OUT (R146). Safe: the chip would go on. -/
  | busWriteNotOutput (b : Bus)
  /-- Raised by CritEnter when CRIT = 1 (R147). Safe: the chip would go on. -/
  | critNested
  /-- Raised by CritLeave when CRIT = 0 (R148). Safe: the chip would go on. -/
  | critUnbalanced
  deriving DecidableEq, Repr

/-- The refusals of spec/60_exceptions.md R287. A step or a meaning records one in State.refusalMark (a next state, as
R287 describes it); the step after it, and every later one, answers it. -/
inductive Refusal where
  /-- Raised by no arm: every instruction has its meaning. Safe. -/
  | notModelled (mnemonic : String)
  /-- Raised by step: the word in CMD spells no command (R104). Safe: the model says nothing of such a word. -/
  | invalidCommand (why : Invalid)
  /-- Raised by step: an event word at the micro-step records no micro-operation (R109, R112). Safe. -/
  | invalidEvent (why : Invalid)
  /-- Raised by WAITINT and ACKINT under a P_INT_PROFILE other than REFERENCE (R262, R287). Safe. -/
  | interruptProfile
  deriving DecidableEq, Repr

/-- The echo target's store, byte by byte: addresses strictly rising, no entry equal to what an unlisted address reads as. -/
abbrev Memory := List Host.Cell

/-- Which target answers the pin reads (spec/20_memory.md R72, R85, R86). -/
inductive TargetKind where
  /-- R72: any answer. -/
  | unconstrained
  /-- R86: the healthy target H, or a faulty variant of it. -/
  | healthy
  /-- R85: the echo target E. -/
  | echo
  deriving DecidableEq, Repr

/-- The target, an agent outside the block (R4): the state its answers come from. -/
structure Target where
  kind : TargetKind
  /-- Unconstrained: the answers still to come, oldest first; past the last of them every answer is free (R72). -/
  answers : List Level
  /-- H and E: the pins a faulty variant H[p := l] forces, the first entry of a pin winning (R86). -/
  forced : List (Pin × Level)
  /-- H and E: the mode word presented while BCLR is driven LOW (R86). -/
  modeWord : BitVec 16
  /-- H and E: how many samples of XTL1 were taken since reset (R86). -/
  xtlSamples : Nat
  /-- E: the word store W, as bytes (R85). -/
  mem : Memory
  /-- E: the latched address LA (R85). -/
  la : BitVec 16
  deriving DecidableEq, Repr

/-- The state of the machine: the block's own state (R30), the marks (R285, R287), what the harness has still to issue
(R294), and the target that answers (R4). -/
structure State where
  /-- The read-only configuration (R43). -/
  cfg : Config
  /-- `dir[p]` of every logical pin (R34). -/
  dir : Vector Dir 48
  /-- `lat[p]` of every logical pin (R34). -/
  lat : Vector Level 48
  /-- CRIT (R38). -/
  crit : Bool
  /-- CMD (R39). -/
  cmd : CommandWord
  /-- RESULT (R40). -/
  result : BitVec 16
  /-- STATUS (R41). -/
  status : BitVec 32
  /-- The trace, oldest event first (R42). -/
  trace : List EventWord
  /-- The (STATUS, RESULT) pairs posted so far, oldest first (R295). -/
  posted : List (BitVec 32 × BitVec 16)
  /-- The fault mark (R285). -/
  faultMark : Option Fault
  /-- The refusal mark (R287). -/
  refusalMark : Option Refusal
  /-- The micro-step (R31, R46): the micro-operations still to be performed of a sequence the sequencer is inside of, as
  event words, next one first. Empty between commands. -/
  micro : List EventWord
  /-- The command words the harness has still to issue, next one first (R294). -/
  inbox : List CommandWord
  /-- The target (R4, R72). -/
  target : Target
  deriving DecidableEq, Repr

/-- The target right after power-on: unconstrained, with no answer foretold (R303). The fields only the fixtures use hold
zeros (DESIGN CHOICE, unsafe: notes/assumptions/5.md). -/
def Target.reset : Target where
  kind := .unconstrained
  answers := []
  forced := []
  modeWord := 0
  xtlSamples := 0
  mem := []
  la := 0

/-- Power-on reset with the configuration `c` injected (R48, R300). -/
def State.resetWith (c : Config) : State where
  cfg := c
  dir := Vector.replicate 48 .input
  lat := Vector.replicate 48 c.resetLatch
  crit := false
  cmd := 0
  result := 0
  status := 0
  trace := []
  posted := []
  faultMark := none
  refusalMark := none
  micro := []
  inbox := []
  target := Target.reset

/-- The machine right after reset, in the reference profile (R48, R300). -/
def State.reset : State := State.resetWith Config.reference

end Sys2Proof.Machine
end

