-- ==== Sys2Proof/Machine/Pins.lean ====
section
/-! DEFINITION. Machine/Pins.lean: the pins and buses of spec/10_state.md R32 and R36, and what the target sees of them
(R34, R37, spec/40_gpio_primitives.md R150). -/

namespace Sys2Proof

/-! ## The pins of R32 by name -/

abbrev Pin.ras : Pin := 0x10
abbrev Pin.cas : Pin := 0x11
abbrev Pin.wlb : Pin := 0x12
abbrev Pin.whb : Pin := 0x13
abbrev Pin.dls : Pin := 0x14
abbrev Pin.pi : Pin := 0x15
abbrev Pin.cout : Pin := 0x16
abbrev Pin.bclr : Pin := 0x17
abbrev Pin.vcc : Pin := 0x18
abbrev Pin.pup : Pin := 0x19
abbrev Pin.ready : Pin := 0x1A
abbrev Pin.xtl1 : Pin := 0x1B
abbrev Pin.aux0 : Pin := 0x1C
abbrev Pin.aux1 : Pin := 0x1D
abbrev Pin.aux2 : Pin := 0x1E
abbrev Pin.aux3 : Pin := 0x1F

/-- GND0..GND(n-1), in index order (R32, spec/42_check.md R181); at most the sixteen ids there are. -/
def groundPins (n : Nat) : List Pin := ((List.finRange 16).take n).map fun k => ⟨0x20 + k.val, by omega⟩

/-- The class of a pin (R32). -/
inductive PinClass where
  | bus
  | out
  | inp
  deriving DecidableEq, Repr

/-- The class R32 gives a pin. -/
def pinClass (p : Pin) : PinClass := if p.val < 0x10 then .bus else if p.val < 0x18 then .out else .inp

/-- The active level of a control output, and of no other pin (R33). -/
def activeLevel (p : Pin) : Option Level :=
  if p = Pin.ras ∨ p = Pin.cas ∨ p = Pin.wlb ∨ p = Pin.whb ∨ p = Pin.bclr then some .low
  else if p = Pin.dls ∨ p = Pin.pi ∨ p = Pin.cout then some .high
  else none

/-- The pin id of a bus's member 0 (R36). -/
def Bus.base : Bus → Nat
  | .low => 0
  | .high => 8

/-- Member `i` of a bus, which carries bit `i` whatever P_BUS_ORDER declares (R36). -/
def Bus.member (b : Bus) (i : Fin 8) : Pin := ⟨b.base + i.val, by cases b <;> simp [Bus.base] <;> omega⟩

namespace Machine

/-- What the target sees of a pin (R34). -/
inductive Drive where
  | driven (l : Level)
  | floating
  | pulledUp
  deriving DecidableEq, Repr

/-- What the target sees of pin `p` (R34, R35). -/
def State.seen (s : State) (p : Pin) : Drive :=
  match s.dir[p] with
  | .output => .driven s.lat[p]
  | .input => .floating
  | .inputPullup => .pulledUp

/-- The driven level of a pin, where it is driven (spec/20_memory.md R85). -/
def State.drivenLevel (s : State) (p : Pin) : Option Level := if s.dir[p] = .output then some s.lat[p] else none

/-- The direction of a bus (R37). -/
inductive BusDirection where
  | out
  | inp
  | mixed
  deriving DecidableEq, Repr

/-- Every member of the bus is OUT. -/
def State.busAllOut (s : State) (b : Bus) : Bool := (List.finRange 8).all fun i => s.dir[b.member i] = .output

/-- Every member of the bus has an input direction (R10). -/
def State.busAllIn (s : State) (b : Bus) : Bool := (List.finRange 8).all fun i => s.dir[b.member i] ≠ .output

/-- The driven value of bus `b`: its members' latches, member `i` in bit `i`, whatever their directions (R36, R37). -/
def State.drivenValue (s : State) (b : Bus) : Byte :=
  BitVec.ofBoolListLE ((List.finRange 8).map fun i => decide (s.lat[b.member i] = .high))

/-- The direction of bus `b` (R37). -/
def State.busDirection (s : State) (b : Bus) : BusDirection :=
  if s.busAllOut b then .out else if s.busAllIn b then .inp else .mixed

/-- Host interrupts are enabled exactly while CRIT = 0 (spec/60_exceptions.md R281). -/
def State.hostInterruptsEnabled (s : State) : Bool := !s.crit

end Machine

end Sys2Proof
end

