-- ==== Sys2Proof/Machine/Operands.lean ====
section
/-! DEFINITION. Machine/Operands.lean: the operand forms of a bus cycle: address bytes, lane flags, data lanes and the
composed result (spec/30_encoding.md R106, R107; spec/43_bus_cycle.md R214, R218, R220, R230). -/

namespace Sys2Proof.Machine

/-- The bit a level carries: LOW 0, HIGH 1 (spec/00_scope.md R10). -/
def levelBit : Level → Bool
  | .low => false
  | .high => true

/-- The level that carries a bit. -/
def bitLevel : Bool → Level
  | false => .low
  | true => .high

/-- LANE_LO, bit 16 of an address value (R106). -/
def laneLo (a : BitVec 32) : Bool := a.getLsbD 16

/-- LANE_HI, bit 17 of an address value (R106). -/
def laneHi (a : BitVec 32) : Bool := a.getLsbD 17

/-- A[7:0], the address byte of busLow (R214). -/
def addrLow (a : BitVec 32) : Byte := a.extractLsb' 0 8

/-- A[15:8], the address byte of busHigh (R214). -/
def addrHigh (a : BitVec 32) : Byte := a.extractLsb' 8 8

/-- D[7:0]. -/
def dataLow (d : BitVec 16) : Byte := d.extractLsb' 0 8

/-- D[15:8]. -/
def dataHigh (d : BitVec 16) : Byte := d.extractLsb' 8 8

/-- The byte the high lane carries in a write: D[15:8] in a 16-bit transfer, D[7:0] where only it is enabled (R218). -/
def highLaneData (lo : Bool) (d : BitVec 16) : Byte := if lo then dataHigh d else dataLow d

/-- The result of a read from the bytes its enabled lanes sampled, 0 in the bits no lane supplies (R220). -/
def composeRead : Option Byte → Option Byte → BitVec 16
  | none, none => 0
  | some l, none => (0 : Byte) ++ l
  | none, some h => (0 : Byte) ++ h
  | some l, some h => h ++ l

/-- zext_16 of a byte: MWRITE's data and MREAD's result (R226, R227). -/
def zext16 (v : Byte) : BitVec 16 := (0 : Byte) ++ v

/-- Bits 7:0 of a 16-bit result: what the 8-bit wrappers return (R226, R230). -/
def lowByte (r : BitVec 16) : Byte := r.extractLsb' 0 8

end Sys2Proof.Machine
end

