-- ==== Sys2Proof/WellFormed.lean ====
section
/-! DEFINITION. WellFormed.lean: which instructions an encoding exists for (spec/30_encoding.md R106, R109), and which
configurations spec/00_scope.md R8 admits. -/

namespace Sys2Proof

/-- Address value bits 31:18 are zero (R106). -/
def addressInRange (a : BitVec 32) : Bool := a.extractLsb' 18 14 = 0

/-- Pin `p` exists when `nGnd` ground pins do (spec/10_state.md R32). -/
def pinExists (nGnd : Nat) (p : Pin) : Bool := p.val < 0x20 + nGnd

/-- A well-formed instruction: address values in range, pins that exist. -/
def Instr.wellFormed (nGnd : Nat) : Instr → Bool
  | .idle => true
  | .check => true
  | .mread a => addressInRange a
  | .mwrite a _ => addressInRange a
  | .bcr a => addressInRange a
  | .bcw a _ => addressInRange a
  | .waitint _ _ => true
  | .ackint => true
  | .setdir p _ => pinExists nGnd p
  | .wrlvl p _ => pinExists nGnd p
  | .rdlvl p _ => pinExists nGnd p
  | .busdir _ _ => true
  | .buswr _ _ => true
  | .busrd _ _ => true
  | .critenter => true
  | .critleave => true

/-- A configuration R8 admits: 1 to 16 ground pins, at least one clock sample, an injective pin map, and a latch-enable pin
that exists. -/
def Config.wellFormed (c : Config) : Bool :=
  decide (1 ≤ c.nGnd) && decide (c.nGnd ≤ 16) && decide (1 ≤ c.clockSamples) && decide c.pinMap.toList.Nodup
    && pinExists c.nGnd c.latchEnablePin

end Sys2Proof
end

