-- ==== Sys2Proof/Decode.lean ====
section
/-! DEFINITION. Decode.lean: the decoder of command and event words, total and rejecting by name, and the encoder
(spec/30_encoding.md). -/

namespace Sys2Proof

/-! ## Command words (R100 to R106) -/

/-- OPC, bits 63:56 (R101). -/
def cmdOpc (w : CommandWord) : Byte := w.extractLsb' 56 8

/-- RSV, bits 55:48 (R101). -/
def cmdRsv (w : CommandWord) : Byte := w.extractLsb' 48 8

/-- DATA16, bits 47:32 (R101). -/
def cmdData16 (w : CommandWord) : BitVec 16 := w.extractLsb' 32 16

/-- The low byte of DATA16, bits 39:32: DATA8 of MWRITE and INT of WAITINT (R101, R105). -/
def cmdData8 (w : CommandWord) : Byte := w.extractLsb' 32 8

/-- ADDR32, bits 31:0: the address value, or TIMEOUT_MS of WAITINT (R101, R105). -/
def cmdAddr32 (w : CommandWord) : BitVec 32 := w.extractLsb' 0 32

/-- What a command admits in ADDR32 (R101). -/
inductive LowUse where
  /-- Every bit must be zero (IDLE, CHECK, ACKINT). -/
  | mustBeZero
  /-- An address value, with bits 31:18 zero (MREAD, MWRITE, BCR, BCW). -/
  | address
  /-- Every value (WAITINT's TIMEOUT_MS). -/
  | any
  deriving DecidableEq, Repr

/-- What is wrong with a command word's operand fields, if anything: RSV, then the bits of DATA16 outside `dataMask`, then
ADDR32 (R101, R104). -/
def fieldError (w : CommandWord) (dataMask : BitVec 16) (use : LowUse) : Option Invalid :=
  if cmdRsv w ≠ 0 then some .reservedByte
  else if cmdData16 w &&& ~~~dataMask ≠ 0 then some .operandBits
  else match use with
    | .mustBeZero => if cmdAddr32 w ≠ 0 then some .operandBits else none
    | .address => if addressInRange (cmdAddr32 w) then none else some .addressBits
    | .any => none

/-- The instruction `i` where the operand fields of `w` are as its command admits (R104). -/
def accepted (w : CommandWord) (dataMask : BitVec 16) (use : LowUse) (i : Instr) : Except Invalid Instr :=
  match fieldError w dataMask use with
  | some why => .error why
  | none => .ok i

/-- The command a word spells, or why it spells none (R102 to R105). -/
def decodeCommand (w : CommandWord) : Except Invalid Instr :=
  if cmdOpc w = 0x01 then accepted w 0x0000 .mustBeZero .idle
  else if cmdOpc w = 0x02 then accepted w 0x0000 .mustBeZero .check
  else if cmdOpc w = 0x03 then accepted w 0x0000 .address (.mread (cmdAddr32 w))
  else if cmdOpc w = 0x04 then accepted w 0x00FF .address (.mwrite (cmdAddr32 w) (cmdData8 w))
  else if cmdOpc w = 0x05 then accepted w 0x0000 .address (.bcr (cmdAddr32 w))
  else if cmdOpc w = 0x06 then accepted w 0xFFFF .address (.bcw (cmdAddr32 w) (cmdData16 w))
  else if cmdOpc w = 0x07 then accepted w 0x00FF .any (.waitint (cmdData8 w) (cmdAddr32 w))
  else if cmdOpc w = 0x08 then accepted w 0x0000 .mustBeZero .ackint
  else .error .reservedOpcode

/-! ## Event words (R108 to R110) -/

/-- The direction code (R110). -/
def dirCode : Dir → BitVec 4
  | .input => 0
  | .output => 1
  | .inputPullup => 2

/-- The direction a code names; codes 3 to 15 are reserved (R110). -/
def dirOfCode (c : BitVec 4) : Option Dir :=
  if c = 0 then some .input else if c = 1 then some .output else if c = 2 then some .inputPullup else none

/-- The level code (R110). -/
def levelCode : Level → BitVec 4
  | .low => 0
  | .high => 1

/-- The level a code names (R110). -/
def levelOfCode (c : BitVec 4) : Option Level :=
  if c = 0 then some .low else if c = 1 then some .high else none

/-- The id byte of a pin (spec/10_state.md R32). -/
def pinId (p : Pin) : Byte := BitVec.ofNat 8 p.val

/-- The pin an id byte names, if it exists (R32, R109). -/
def pinOfId (nGnd : Nat) (id : Byte) : Option Pin :=
  if h : id.toNat < 48 then if pinExists nGnd ⟨id.toNat, h⟩ then some ⟨id.toNat, h⟩ else none else none

/-- The id byte of a bus (R36). -/
def busId : Bus → Byte
  | .low => 0x40
  | .high => 0x41

/-- The bus an id byte names (R36). -/
def busOfId (id : Byte) : Option Bus :=
  if id = 0x40 then some .low else if id = 0x41 then some .high else none

/-- The event word {KIND, ARG, ID, VAL} (R108). -/
def eventWord (kind arg : BitVec 4) (id val : Byte) : EventWord := kind ++ arg ++ id ++ val

/-- KIND, bits 23:20 (R108). -/
def evtKind (w : EventWord) : BitVec 4 := w.extractLsb' 20 4

/-- ARG, bits 19:16 (R108). -/
def evtArg (w : EventWord) : BitVec 4 := w.extractLsb' 16 4

/-- ID, bits 15:8 (R108). -/
def evtId (w : EventWord) : Byte := w.extractLsb' 8 8

/-- VAL, bits 7:0 (R108). -/
def evtVal (w : EventWord) : Byte := w.extractLsb' 0 8

/-- A SETDIR word (R109). -/
def decodeSetdir (nGnd : Nat) (w : EventWord) : Except Invalid Instr :=
  match dirOfCode (evtArg w), pinOfId nGnd (evtId w) with
  | none, _ => .error .badArg
  | some _, none => .error .badId
  | some d, some p => if evtVal w = 0 then .ok (.setdir p d) else .error .badVal

/-- A WRLVL or RDLVL word, `build` telling which (R109). -/
def decodePinLevel (nGnd : Nat) (w : EventWord) (build : Pin → Level → Instr) : Except Invalid Instr :=
  match levelOfCode (evtArg w), pinOfId nGnd (evtId w) with
  | none, _ => .error .badArg
  | some _, none => .error .badId
  | some l, some p => if evtVal w = 0 then .ok (build p l) else .error .badVal

/-- A BUSDIR word (R109). -/
def decodeBusdir (w : EventWord) : Except Invalid Instr :=
  match dirOfCode (evtArg w), busOfId (evtId w) with
  | none, _ => .error .badArg
  | some _, none => .error .badId
  | some d, some b => if evtVal w = 0 then .ok (.busdir b d) else .error .badVal

/-- A BUSWR or BUSRD word, `build` telling which (R109). -/
def decodeBusValue (w : EventWord) (build : Bus → Byte → Instr) : Except Invalid Instr :=
  if evtArg w ≠ 0 then .error .badArg
  else match busOfId (evtId w) with
    | none => .error .badId
    | some b => .ok (build b (evtVal w))

/-- A CRITENTER or CRITLEAVE word: every field below KIND is zero (R109). -/
def decodeCrit (w : EventWord) (i : Instr) : Except Invalid Instr :=
  if evtArg w ≠ 0 then .error .badArg
  else if evtId w ≠ 0 then .error .badId
  else if evtVal w ≠ 0 then .error .badVal
  else .ok i

/-- The micro-operation an event word records when `nGnd` ground pins exist, or why it records none (R109, R110). -/
def decodeEvent (nGnd : Nat) (w : EventWord) : Except Invalid Instr :=
  if evtKind w = 1 then decodeSetdir nGnd w
  else if evtKind w = 2 then decodePinLevel nGnd w .wrlvl
  else if evtKind w = 3 then decodePinLevel nGnd w .rdlvl
  else if evtKind w = 4 then decodeBusdir w
  else if evtKind w = 5 then decodeBusValue w .buswr
  else if evtKind w = 6 then decodeBusValue w .busrd
  else if evtKind w = 7 then decodeCrit w .critenter
  else if evtKind w = 8 then decodeCrit w .critleave
  else .error .reservedKind

/-- The instruction a word spells when `nGnd` ground pins exist, or why it spells none. -/
def decode (nGnd : Nat) : CodeWord → Except Invalid Instr
  | .command w => decodeCommand w
  | .event w => decodeEvent nGnd w

/-! ## The encoder -/

/-- The command word {OPC, RSV = 0, DATA16, ADDR32} (R101). -/
def commandWord (opc : Byte) (data : BitVec 16) (addr : BitVec 32) : CommandWord := opc ++ (0x00 : Byte) ++ data ++ addr

/-- The word of an instruction (R101 to R105, R108 to R110). -/
def encode : Instr → CodeWord
  | .idle => .command (commandWord 0x01 0 0)
  | .check => .command (commandWord 0x02 0 0)
  | .mread a => .command (commandWord 0x03 0 a)
  | .mwrite a d => .command (commandWord 0x04 ((0x00 : Byte) ++ d) a)
  | .bcr a => .command (commandWord 0x05 0 a)
  | .bcw a d => .command (commandWord 0x06 d a)
  | .waitint sel t => .command (commandWord 0x07 ((0x00 : Byte) ++ sel) t)
  | .ackint => .command (commandWord 0x08 0 0)
  | .setdir p d => .event (eventWord 1 (dirCode d) (pinId p) 0)
  | .wrlvl p l => .event (eventWord 2 (levelCode l) (pinId p) 0)
  | .rdlvl p l => .event (eventWord 3 (levelCode l) (pinId p) 0)
  | .busdir b d => .event (eventWord 4 (dirCode d) (busId b) 0)
  | .buswr b v => .event (eventWord 5 0 (busId b) v)
  | .busrd b v => .event (eventWord 6 0 (busId b) v)
  | .critenter => .event (eventWord 7 0 0 0)
  | .critleave => .event (eventWord 8 0 0 0)

/-! ## The host's numbering -/

/-- The instruction the decoder reads from a word of `nbits` bits of spec/opcode_table.json, under the reference
configuration: 64 bits are a command word, 24 an event word. -/
def decodeTableWord (nbits w : Nat) : Option Instr :=
  match (if nbits = 64 then decode Config.reference.nGnd (.command (BitVec.ofNat 64 w))
         else if nbits = 24 then decode Config.reference.nGnd (.event (BitVec.ofNat 24 w))
         else .error .reservedOpcode) with
  | .ok i => some i
  | .error _ => none

end Sys2Proof
end

