-- ==== Sys2Proof/Machine/Flags.lean ====
section
/-! DEFINITION. Machine/Flags.lean: the block has no flags (spec/10_state.md R45); its condition is the STATUS word, the
encoding of a command's Outcome (spec/10_state.md R41, spec/30_encoding.md R111). -/

namespace Sys2Proof.Machine

/-- {OBSERVED, EXPECTED, SUBJECT, CODE} (R111). -/
def statusWord (observed expected subject code : Byte) : BitVec 32 := observed ++ expected ++ subject ++ code

/-- A level as a STATUS byte: 0 or 1 (R111). -/
def levelByte : Level → Byte
  | .low => 0
  | .high => 1

/-- The STATUS word of an Outcome (R111). -/
def encodeOutcome : CmdOutcome → BitVec 32
  | .success => statusWord 0 0 0 0x00
  | .pinStateMismatch p e o => statusWord (levelByte o) (levelByte e) (pinId p) 0x01
  | .busValueMismatch b e o => statusWord o e (busId b) 0x02
  | .notImplemented => statusWord 0 0 0 0x03
  | .timeout => statusWord 0 0 0 0x04

/-- CODE, bits 7:0 of STATUS (R41). -/
def statusCode (w : BitVec 32) : Byte := w.extractLsb' 0 8

/-- SUBJECT, bits 15:8 of STATUS (R41). -/
def statusSubject (w : BitVec 32) : Byte := w.extractLsb' 8 8

/-- EXPECTED, bits 23:16 of STATUS (R41). -/
def statusExpected (w : BitVec 32) : Byte := w.extractLsb' 16 8

/-- OBSERVED, bits 31:24 of STATUS (R41). -/
def statusObserved (w : BitVec 32) : Byte := w.extractLsb' 24 8

end Sys2Proof.Machine
end

