-- ==== Sys2Proof/Machine/Ops.lean ====
section
/-! DEFINITION. Machine/Ops.lean: the named operations over the state, the pin array, the echo target's memory, and the ends
of a command: succeed, fail, raise, refuse (spec/60_exceptions.md R270, R273, R285, R287). -/

namespace Sys2Proof.Machine

/-! ## One update per field the sequencer writes -/

def State.withDir (s : State) (d : Vector Dir 48) : State := { s with dir := d }
def State.withLat (s : State) (l : Vector Level 48) : State := { s with lat := l }
def State.withCrit (s : State) (c : Bool) : State := { s with crit := c }
def State.withCmd (s : State) (w : CommandWord) : State := { s with cmd := w }
def State.withMicro (s : State) (m : List EventWord) : State := { s with micro := m }
def State.withInbox (s : State) (ws : List CommandWord) : State := { s with inbox := ws }
def State.withTarget (s : State) (t : Target) : State := { s with target := t }

/-- Append one event to the trace (R42, R140). -/
def State.emit (s : State) (w : EventWord) : State := { s with trace := s.trace ++ [w] }

/-! ## The pin array -/

/-- The pin array with member `i` of bus `b` at `f i`, every other pin as it was (R36, R144, R146). -/
def setMembers {α : Type} (xs : Vector α 48) (b : Bus) (f : Fin 8 → α) : Vector α 48 :=
  Vector.ofFn fun q => if h : b.base ≤ q.val ∧ q.val < b.base + 8 then f ⟨q.val - b.base, by omega⟩ else xs[q]

/-! ## The echo target's memory (R11, R70, R85) -/

/-- What an address the memory does not list reads as (DESIGN CHOICE, unsafe: notes/assumptions/5.md). -/
def Memory.unlisted : Byte := 0

/-- The byte at address `a`. -/
def Memory.read : Memory → Nat → Byte
  | [], _ => Memory.unlisted
  | (k, v) :: m, a => if k = a then v else Memory.read m a

/-- Put byte `v` at address `a` in front of `m`, or nothing where an unlisted address reads as `v`. -/
def Memory.put (m : Memory) (a : Nat) (v : Byte) : Memory := if v = Memory.unlisted then m else (a, v) :: m

/-- Write byte `v` at address `a`, keeping the canonical form. -/
def Memory.write : Memory → Nat → Byte → Memory
  | [], a, v => Memory.put [] a v
  | (k, u) :: m, a, v =>
    if a < k then Memory.put ((k, u) :: m) a v
    else if a = k then Memory.put m a v
    else (k, u) :: Memory.write m a v

/-- The canonical form: addresses strictly rising, inside the 2^16 bytes of R70, and no entry equal to what an unlisted
address reads as. -/
abbrev Memory.wf (m : Memory) : Prop :=
  m.Pairwise (fun x y => x.1 < y.1) ∧ ∀ c ∈ m, c.1 < 65536 ∧ c.2 ≠ Memory.unlisted

/-- `MemRead(addr, n)` of R11: `n` bytes, the byte at the lower address less significant (R73). -/
def Memory.readBytes (m : Memory) (addr : BitVec 16) : Nat → Nat
  | 0 => 0
  | n + 1 => (m.read addr.toNat).toNat + 256 * Memory.readBytes m (addr + 1) n

/-- `MemWrite(addr, n, v)` of R11. -/
def Memory.writeBytes (m : Memory) (addr : BitVec 16) : Nat → Nat → Memory
  | 0, _ => m
  | n + 1, v => Memory.writeBytes (m.write addr.toNat (BitVec.ofNat 8 v)) (addr + 1) n (v / 256)

/-- The byte address {w, 0} or {w, 1} of a lane of the target word that the byte address `la` lies in (R71). -/
def laneAddress (la : BitVec 16) : Bus → BitVec 16
  | .low => la.extractLsb' 1 15 ++ (0 : BitVec 1)
  | .high => la.extractLsb' 1 15 ++ (1 : BitVec 1)

/-- W[w], the target word at word address `w` (R71, R73, R85). -/
def Memory.readWord (m : Memory) (w : BitVec 15) : BitVec 16 :=
  m.read (w ++ (1 : BitVec 1)).toNat ++ m.read (w ++ (0 : BitVec 1)).toNat

/-! ## The ends of a command -/

/-- Write STATUS and RESULT together and add the pair to the observation (R40, R41, R295). -/
def State.post (s : State) (st : BitVec 32) (r : BitVec 16) : State :=
  { s with status := st, result := r, posted := s.posted ++ [(st, r)] }

/-- `succeed(r)` of R11: STATUS = Success, RESULT = r. -/
def State.succeed (s : State) (r : BitVec 16) : State := s.post (encodeOutcome .success) r

/-- `fail Outcome(...)` of R273: STATUS holds the Outcome, RESULT is 0x0000, and every pin stays as it is. -/
def State.fail (s : State) (o : CmdOutcome) : State := s.post (encodeOutcome o) 0

/-- `raise Fault(...)` of R285: the fault mark records the first fault, and nothing else changes. -/
def State.raise (s : State) (f : Fault) : State := { s with faultMark := s.faultMark.or (some f) }

/-- `refuse(...)` of R287: the refusal mark records the first refusal, and nothing else changes. -/
def State.refuse (s : State) (r : Refusal) : State := { s with refusalMark := s.refusalMark.or (some r) }

/-! ## A sequence of micro-operations, which a failure or a fault ends early -/

/-- Where a sequence of micro-operations has come to. -/
inductive Flow (α : Type) where
  /-- It ran to its end and answers `a`. -/
  | done (a : α) (s : State)
  /-- A comparison failed (R273). -/
  | failed (o : CmdOutcome) (s : State)
  /-- A micro-operation raised a fault (R285); `s` is the state before that micro-operation. -/
  | faulted (f : Fault) (s : State)

/-- The statements of R12 in the order written: go on with `k` where the first part ran to its end. -/
def Flow.andThen {α β : Type} (x : Flow α) (k : α → State → Flow β) : Flow β :=
  match x with
  | .done a s => k a s
  | .failed o s => .failed o s
  | .faulted f s => .faulted f s

/-- The state a command leaves: posted with the result `r` of its answer, or failed, or faulted (R270). -/
def Flow.close {α : Type} (x : Flow α) (r : α → BitVec 16) : State :=
  match x with
  | .done a s => s.succeed (r a)
  | .failed o s => s.fail o
  | .faulted f s => s.raise f

/-- The state a single micro-operation leaves: it posts nothing (R140). -/
def Flow.settle {α : Type} (x : Flow α) : State :=
  match x with
  | .done _ s => s
  | .failed o s => s.fail o
  | .faulted f s => s.raise f

/-- `f` for each element of a list, left to right (R12). -/
def eachOf {α : Type} (f : α → State → Flow Unit) : List α → State → Flow Unit
  | [], s => .done () s
  | x :: xs, s => (f x s).andThen fun _ s => eachOf f xs s

end Sys2Proof.Machine
end

