-- ==== Sys2Proof/Machine/Target.lean ====
section
/-! DEFINITION. Machine/Target.lean: what answers a pin read, and what the echo target does on a clock edge
(spec/20_memory.md R72, R85, R86). -/

namespace Sys2Proof.Machine

/-- The pin is driven to level `l` (R85). -/
def State.drives (s : State) (p : Pin) (l : Level) : Bool := s.drivenLevel p = some l

/-- The level the first entry of a faulty variant's list gives a pin (R86). -/
def forcedLevel : List (Pin × Level) → Pin → Option Level
  | [], _ => none
  | (q, l) :: rest, p => if q = p then some l else forcedLevel rest p

/-- H's answer for a pin that no entry forces (R86); the table gives none for a control output, which stays free
(notes/assumptions/3.md). -/
def healthyLevel (s : State) (p : Pin) : Level :=
  if p.val < 0x10 then
    if s.drives Pin.bclr .low then bitLevel (s.target.modeWord.getLsbD p.val) else .high
  else if p = Pin.vcc then .high
  else if p = Pin.pup then .low
  else if p = Pin.ready then .high
  else if p = Pin.xtl1 then (if s.target.xtlSamples % 2 = 0 then .low else .high)
  else if Pin.aux0 ≤ p ∧ p ≤ Pin.aux3 then .high
  else if 0x20 ≤ p.val then .low
  else Config.freeSample s.trace p

/-- H answers: a forced level in every case, else its own; a sample of XTL1 counts (R86). -/
def sampleHealthy (s : State) (p : Pin) : Level × Target :=
  ((forcedLevel s.target.forced p).getD (healthyLevel s p),
    if p = Pin.xtl1 then { s.target with xtlSamples := s.target.xtlSamples + 1 } else s.target)

/-- E is in a read data phase: RAS and CAS driven LOW, WLB and WHB driven HIGH (R85). -/
def State.readPhase (s : State) : Bool :=
  s.drives Pin.ras .low && s.drives Pin.cas .low && s.drives Pin.wlb .high && s.drives Pin.whb .high

/-- E's answer for member `p` of a data bus in a read data phase: the bit of W[LA[15:1]] it carries (R85). -/
def echoDataLevel (t : Target) (p : Pin) : Level :=
  if p.val < 8 then bitLevel ((t.mem.readBytes (laneAddress t.la .low) 1).testBit p.val)
  else bitLevel ((t.mem.readBytes (laneAddress t.la .high) 1).testBit (p.val - 8))

/-- `Sample(p)`: the target's answer, and the target after it (R72, R85, R86). -/
def State.sample (s : State) (p : Pin) : Level × Target :=
  match s.target.kind with
  | .unconstrained =>
    match s.target.answers with
    | [] => (Config.freeSample s.trace p, s.target)
    | l :: rest => (l, { s.target with answers := rest })
  | .healthy => sampleHealthy s p
  | .echo =>
    if p.val < 0x10 ∧ s.readPhase = true then (echoDataLevel s.target p, s.target) else sampleHealthy s p

/-- Sample members 0 to n-1 of a bus, member 0 first (R145): the bits in place, and the target after. -/
def State.sampleMembers (s : State) (b : Bus) : Nat → Byte × Target
  | 0 => (0, s.target)
  | n + 1 =>
    let before := s.sampleMembers b n
    let answer := (s.withTarget before.2).sample (b.member (Fin.ofNat 8 n))
    (before.1 ||| (BitVec.ofBool (levelBit answer.1)).setWidth 8 <<< n, answer.2)

/-- The level E takes from member `i` of a bus: its driven level, which R85 leaves undefined, so free, where the block does not
drive it (notes/assumptions/2.md). -/
def State.memberLevel (s : State) (b : Bus) (i : Fin 8) : Level :=
  (s.drivenLevel (b.member i)).getD (Config.undrivenLevel s.trace (b.member i))

/-- The byte E takes from a bus, the driven level of member `i` in bit `i` (R36, R85). Of a bus that is OUT it is the driven
value of R37 (busValue_of_allOut). -/
def State.busValue (s : State) (b : Bus) : Byte :=
  BitVec.ofBoolListLE ((List.finRange 8).map fun i => levelBit (s.memberLevel b i))

/-- E stores one lane where its write strobe is driven LOW (R85 point 2). -/
def echoStore (s : State) (strobe : Pin) (b : Bus) (m : Memory) : Memory :=
  if s.drives strobe .low then m.writeBytes (laneAddress s.target.la b) 1 (s.busValue b).toNat else m

/-- What E does on the event WrLvl(COUT, HIGH): latch the address in the first pulse of a cycle, store the strobed lanes in
the data phase (R85 points 1 and 2). -/
def echoClock (s : State) : Target :=
  if s.drives Pin.ras .low then
    if s.drives Pin.cas .high then { s.target with la := s.busValue .high ++ s.busValue .low }
    else if s.drives Pin.cas .low then
      { s.target with mem := echoStore s Pin.whb .high (echoStore s Pin.wlb .low s.target.mem) }
    else s.target
  else s.target

/-- The target after the event WrLvl(p, l), which `s` already shows: only E reacts, and only to COUT HIGH (R85). -/
def State.react (s : State) (p : Pin) (l : Level) : Target :=
  if s.target.kind = .echo ∧ p = Pin.cout ∧ l = .high then echoClock s else s.target

end Sys2Proof.Machine
end

