-- ==== Sys2Proof/Machine/Gpio.lean ====
section
/-! DEFINITION. Machine/Gpio.lean: the eight micro-operations and their meanings (spec/40_gpio_primitives.md R140 to R150). -/

namespace Sys2Proof.Machine

/-! ## The micro-operations -/

/-- `SetDir(p, d)` (R141). -/
def setDir (p : Pin) (d : Dir) (s : State) : State :=
  (s.withDir (s.dir.set p d)).emit (eventWord 1 (dirCode d) (pinId p) 0)

/-- `WrLvl(p, l)` (R143), with the target's reaction to the event (spec/20_memory.md R85). -/
def wrLvl (p : Pin) (l : Level) (s : State) : State :=
  let written := (s.withLat (s.lat.set p l)).emit (eventWord 2 (levelCode l) (pinId p) 0)
  written.withTarget (written.react p l)

/-- The sampling of pin `p` and its event (R142). -/
def samplePin (p : Pin) (s : State) : State :=
  (s.withTarget (s.sample p).2).emit (eventWord 3 (levelCode (s.sample p).1) (pinId p) 0)

/-- `RdLvl(p)` (R142): the fault is raised before anything happens. -/
def rdLvl (p : Pin) (s : State) : Flow Level :=
  if s.dir[p] = .output then .faulted (.readOfOutputPin p) s else .done (s.sample p).1 (samplePin p s)

/-- `BusDir(b, d)` (R144): eight members in one step. -/
def busDir (b : Bus) (d : Dir) (s : State) : State :=
  (s.withDir (setMembers s.dir b fun _ => d)).emit (eventWord 4 (dirCode d) (busId b) 0)

/-- Drive a byte onto a bus, bit `i` on member `i` (R146, R36). -/
def driveBus (b : Bus) (v : Byte) (s : State) : State :=
  (s.withLat (setMembers s.lat b fun i => bitLevel (v.getLsbD i))).emit (eventWord 5 0 (busId b) v)

/-- `BusWr(b, v)` (R146). -/
def busWr (b : Bus) (v : Byte) (s : State) : Flow Unit :=
  if s.busAllOut b then .done () (driveBus b v s) else .faulted (.busWriteNotOutput b) s

/-- The byte the eight samples of a bus compose (R145). -/
def State.busSample (b : Bus) (s : State) : Byte := (s.sampleMembers b 8).1

/-- The sampling of bus `b` and its one event (R145). -/
def sampleBus (b : Bus) (s : State) : State :=
  (s.withTarget (s.sampleMembers b 8).2).emit (eventWord 6 0 (busId b) (s.busSample b))

/-- `BusRd(b)` (R145): the fault is raised before anything happens. -/
def busRd (b : Bus) (s : State) : Flow Byte :=
  if s.busAllIn b then .done (s.busSample b) (sampleBus b s) else .faulted (.busReadNotInput b) s

/-- CRIT set, with its event (R147). -/
def enterRegion (s : State) : State := (s.withCrit true).emit (eventWord 7 0 0 0)

/-- CRIT cleared, with its event (R148). -/
def leaveRegion (s : State) : State := (s.withCrit false).emit (eventWord 8 0 0 0)

/-- `CritEnter()` (R147). -/
def critEnter (s : State) : Flow Unit := if s.crit then .faulted .critNested s else .done () (enterRegion s)

/-- `CritLeave()` (R148). -/
def critLeave (s : State) : Flow Unit := if s.crit then .done () (leaveRegion s) else .faulted .critUnbalanced s

/-! ## Their meanings as instructions: one step at the sequencer's micro-step (R12, R140) -/

/-- SETDIR (R141). -/
def execSetdir (p : Pin) (d : Dir) (s : State) : Host.Outcome State Fault Refusal := .next (setDir p d s)

/-- WRLVL (R143). -/
def execWrlvl (p : Pin) (l : Level) (s : State) : Host.Outcome State Fault Refusal := .next (wrLvl p l s)

/-- RDLVL (R142). Its only operand is the pin: the level in the word is what a trace records, and the level of this
execution is the one the target answers now (notes/assumptions/8.md). -/
def execRdlvl (p : Pin) (s : State) : Host.Outcome State Fault Refusal := .next (rdLvl p s).settle

/-- BUSDIR (R144). -/
def execBusdir (b : Bus) (d : Dir) (s : State) : Host.Outcome State Fault Refusal := .next (busDir b d s)

/-- BUSWR (R146). -/
def execBuswr (b : Bus) (v : Byte) (s : State) : Host.Outcome State Fault Refusal := .next (busWr b v s).settle

/-- BUSRD (R145). Its only operand is the bus, as for RDLVL (notes/assumptions/8.md). -/
def execBusrd (b : Bus) (s : State) : Host.Outcome State Fault Refusal := .next (busRd b s).settle

/-- CRITENTER (R147). -/
def execCritenter (s : State) : Host.Outcome State Fault Refusal := .next (critEnter s).settle

/-- CRITLEAVE (R148). -/
def execCritleave (s : State) : Host.Outcome State Fault Refusal := .next (critLeave s).settle

end Sys2Proof.Machine
end

