-- ==== Sys2Proof/Machine/BusCycle.lean ====
section
/-! DEFINITION. Machine/BusCycle.lean: the thirteen-step bus cycle and its four commands (spec/43_bus_cycle.md R210 to R231). -/

namespace Sys2Proof.Machine

/-- `f` where `c` holds, else nothing: a step done for enabled lanes only (R211). -/
def onlyIf (c : Bool) (f : State → State) (s : State) : State := if c then f s else s

/-- Step 1: the address on both buses (R214). -/
def addressPhase (a : BitVec 32) (s : State) : Flow Unit :=
  (busWr .low (addrLow a) (busDir .high .output (busDir .low .output s))).andThen fun _ s => busWr .high (addrHigh a) s

/-- Step 2: the write strobes of the enabled lanes, before the region (R215). -/
def assertStrobes (a : BitVec 32) (s : State) : State :=
  onlyIf (laneHi a) (wrLvl Pin.whb .low) (onlyIf (laneLo a) (wrLvl Pin.wlb .low) s)

/-- A clock pulse: COUT HIGH then LOW (steps 5 and 8: R216, R219). -/
def pulseClock (s : State) : State := wrLvl Pin.cout .low (wrLvl Pin.cout .high s)

/-- Steps 4 and 5: the row address strobe and the first clock pulse (R216). -/
def rowPhase (s : State) : State := pulseClock (wrLvl Pin.ras .low s)

/-- Step 6 of a read: both buses to plain IN, whatever the lane flags (R217). -/
def releaseBuses (s : State) : State := busDir .high .input (busDir .low .input s)

/-- Write `v` to the bus of an enabled lane (R218). -/
def writeLane (enabled : Bool) (b : Bus) (v : Byte) (s : State) : Flow Unit :=
  if enabled then busWr b v s else .done () s

/-- Step 6 of a write: data on each enabled lane (R218). -/
def driveData (a : BitVec 32) (d : BitVec 16) (s : State) : Flow Unit :=
  (writeLane (laneLo a) .low (dataLow d) s).andThen fun _ s => writeLane (laneHi a) .high (highLaneData (laneLo a) d) s

/-- Steps 7 and 8: column address strobe, data-latch strobe, second clock pulse (R219). -/
def columnPhase (s : State) : State := pulseClock (wrLvl Pin.dls .high (wrLvl Pin.cas .low s))

/-- Sample the bus of an enabled lane (R220). -/
def readLane (enabled : Bool) (b : Bus) (s : State) : Flow (Option Byte) :=
  if enabled then (busRd b s).andThen fun v s => .done (some v) s else .done none s

/-- Step 9 of a read: sample each enabled lane, low first, and compose the result (R220). -/
def sampleData (a : BitVec 32) (s : State) : Flow (BitVec 16) :=
  (readLane (laneLo a) .low s).andThen fun lo s =>
  (readLane (laneHi a) .high s).andThen fun hi s =>
  .done (composeRead lo hi) s

/-- Step 10: deassert CAS, DLS, RAS in that order (R221). -/
def deassert (s : State) : State := wrLvl Pin.ras .high (wrLvl Pin.dls .low (wrLvl Pin.cas .high s))

/-- Step 12 of a write: the enabled lanes back to IN_PULLUP, then their strobes released (R223). -/
def releaseLanes (a : BitVec 32) (s : State) : State :=
  onlyIf (laneHi a) (wrLvl Pin.whb .high) (onlyIf (laneLo a) (wrLvl Pin.wlb .high)
    (onlyIf (laneHi a) (busDir .high .inputPullup) (onlyIf (laneLo a) (busDir .low .inputPullup) s)))

/-- Step 6 (R217, R218). -/
def dataPhase (a : BitVec 32) (d : BitVec 16) (isRead : Bool) (s : State) : Flow Unit :=
  if isRead then .done () (releaseBuses s) else driveData a d s

/-- Step 9 (R220). -/
def resultPhase (a : BitVec 32) (isRead : Bool) (s : State) : Flow (BitVec 16) :=
  if isRead then sampleData a s else .done 0x0000 s

/-- Steps 3 to 11: the critical region (R212, R222). -/
def criticalRegion (a : BitVec 32) (d : BitVec 16) (isRead : Bool) (s : State) : Flow (BitVec 16) :=
  (critEnter s).andThen fun _ s =>
  (dataPhase a d isRead (rowPhase s)).andThen fun _ s =>
  (resultPhase a isRead (columnPhase s)).andThen fun r s =>
  (critLeave (deassert s)).andThen fun _ s =>
  .done r s

/-- `busCycle(A, D, isRead) -> R` (R210, R213). -/
def busCycle (a : BitVec 32) (d : BitVec 16) (isRead : Bool) (s : State) : Flow (BitVec 16) :=
  (addressPhase a s).andThen fun _ s =>
  (criticalRegion a d isRead (onlyIf (!isRead) (assertStrobes a) s)).andThen fun r s =>
  .done r (onlyIf (!isRead) (releaseLanes a) s)

/-- BCR (R224). -/
def execBcr (a : BitVec 32) (s : State) : Host.Outcome State Fault Refusal :=
  .next ((busCycle a 0x0000 true s).close fun r => r)

/-- BCW (R225). -/
def execBcw (a : BitVec 32) (d : BitVec 16) (s : State) : Host.Outcome State Fault Refusal :=
  .next ((busCycle a d false s).close fun _ => 0x0000)

/-- MREAD (R226): the low byte of the result, zero-extended. -/
def execMread (a : BitVec 32) (s : State) : Host.Outcome State Fault Refusal :=
  .next ((busCycle a 0x0000 true s).close fun r => zext16 (lowByte r))

/-- MWRITE (R227): the byte zero-extended to 16 bits. -/
def execMwrite (a : BitVec 32) (d : Byte) (s : State) : Host.Outcome State Fault Refusal :=
  .next ((busCycle a (zext16 d) false s).close fun _ => 0x0000)

end Sys2Proof.Machine
end

