-- ==== Sys2Proof/Machine/Check.lean ====
section
/-! DEFINITION. Machine/Check.lean: CHECK, the power-on self-check (spec/42_check.md R180 to R191). -/

namespace Sys2Proof.Machine

/-- Read a pin and fail unless it reads `l` (R180). -/
def expectLevel (p : Pin) (l : Level) (s : State) : Flow Unit :=
  (rdLvl p s).andThen fun got s => if got = l then .done () s else .failed (.pinStateMismatch p l got) s

/-- Read a bus and fail unless it reads `v` (R180). -/
def expectBus (b : Bus) (v : Byte) (s : State) : Flow Unit :=
  (busRd b s).andThen fun got s => if got = v then .done () s else .failed (.busValueMismatch b v got) s

/-- `busOrder` of R180. -/
def busOrder (o : BusCheckOrder) : List Bus :=
  match o with
  | .lowFirst => [.low, .high]
  | .highFirst => [.high, .low]

/-- `byteOf(b, w)` of R180. -/
def byteOf (b : Bus) (w : BitVec 16) : Byte :=
  match b with
  | .low => dataLow w
  | .high => dataHigh w

/-- Step 1: power and ground (R181). -/
def checkPower (s : State) : Flow Unit :=
  (eachOf (fun g => expectLevel g .low) (groundPins s.cfg.nGnd) s).andThen fun _ s =>
  (expectLevel Pin.vcc .high s).andThen fun _ s =>
  expectLevel Pin.pup .low s

/-- Step 2: ready (R182). -/
def checkReady (s : State) : Flow Unit := expectLevel Pin.ready .high s

/-- The loop of step 3: `n` more samples of XTL1, none left out (R183), with what was seen so far. -/
def sampleClock : Nat → Bool → Bool → State → Flow (Bool × Bool)
  | 0, sawLow, sawHigh, s => .done (sawLow, sawHigh) s
  | n + 1, sawLow, sawHigh, s =>
    (rdLvl Pin.xtl1 s).andThen fun l s =>
    match l with
    | .low => sampleClock n true sawHigh s
    | .high => sampleClock n sawLow true s

/-- Step 3: clock presence (R183, R184). -/
def checkClock (s : State) : Flow Unit :=
  (sampleClock s.cfg.clockSamples false false s).andThen fun saw s =>
  if saw.2 = false then .failed (.pinStateMismatch Pin.xtl1 s.cfg.clockStuckLowExpected .low) s
  else if saw.1 = false then .failed (.pinStateMismatch Pin.xtl1 .low .high) s
  else .done () s

/-- Every bus reads 0xFF, in the order P_BUS_CHECK_ORDER gives: step 4, and step 5 after release (R185, R186). -/
def checkAllOnes (s : State) : Flow Unit := eachOf (fun b => expectBus b 0xFF) (busOrder s.cfg.busCheckOrder) s

/-- Every bus reads its byte of the mode word (R186). -/
def checkModeBytes (s : State) : Flow Unit :=
  eachOf (fun b => expectBus b (byteOf b s.cfg.modeWord)) (busOrder s.cfg.busCheckOrder) s

/-- Step 5: the mode register (R186). -/
def checkMode (s : State) : Flow Unit :=
  (checkModeBytes (wrLvl Pin.bclr .low s)).andThen fun _ s => checkAllOnes (wrLvl Pin.bclr .high s)

/-- Step 6: the control-line latch; nothing is read after deassertion (R187). -/
def checkLatch (s : State) : Flow Unit :=
  (eachOf (fun a => expectLevel a .high) [Pin.aux0, Pin.aux1, Pin.aux2, Pin.aux3]
    (wrLvl s.cfg.latchEnablePin .high (wrLvl Pin.dls .high s))).andThen fun _ s =>
  .done () (wrLvl Pin.dls .low (wrLvl s.cfg.latchEnablePin .low s))

/-- The six steps of R180, first failure ends them. -/
def selfCheck (s : State) : Flow Unit :=
  (checkPower s).andThen fun _ s =>
  (checkReady s).andThen fun _ s =>
  (checkClock s).andThen fun _ s =>
  (checkAllOnes s).andThen fun _ s =>
  (checkMode s).andThen fun _ s =>
  checkLatch s

/-- CHECK (R180): it configures nothing, and restores nothing on failure (R185, R188). -/
def execCheck (s : State) : Host.Outcome State Fault Refusal := .next ((selfCheck s).close fun _ => 0x0000)

end Sys2Proof.Machine
end

