-- ==== Sys2Proof/Machine/Idle.lean ====
section
/-! DEFINITION. Machine/Idle.lean: IDLE, the safe default pin state (spec/41_idle.md R170, R171). -/

namespace Sys2Proof.Machine

/-- The input-only pins of R170, in its order. -/
def inputOnlyPins (nGnd : Nat) : List Pin :=
  groundPins nGnd ++ [Pin.vcc, Pin.pup, Pin.ready, Pin.xtl1, Pin.aux0, Pin.aux1, Pin.aux2, Pin.aux3]

/-- Latch first, then drive (R170). -/
def driveControl (l : Level) (p : Pin) (s : State) : State := setDir p .output (wrLvl p l s)

/-- Part 1 of R170: the control outputs to their inactive level. -/
def idleControls (s : State) : State :=
  [Pin.dls, Pin.pi, Pin.cout].foldl (fun s p => driveControl .low p s)
    ([Pin.ras, Pin.cas, Pin.wlb, Pin.whb, Pin.bclr].foldl (fun s p => driveControl .high p s) s)

/-- Part 2 of R170: the input-only pins to plain input. -/
def idleInputs (s : State) : State := (inputOnlyPins s.cfg.nGnd).foldl (fun s p => setDir p .input s) s

/-- Part 3 of R170: the data buses to input with pull-up. -/
def idleBuses (s : State) : State := busDir .high .inputPullup (busDir .low .inputPullup s)

/-- IDLE (R170): it reads nothing, so nothing can fail or fault. -/
def execIdle (s : State) : Host.Outcome State Fault Refusal :=
  .next ((idleBuses (idleInputs (idleControls s))).succeed 0x0000)

end Sys2Proof.Machine
end

