-- ==== Sys2Proof/Machine/Interrupt.lean ====
section
/-! DEFINITION. Machine/Interrupt.lean: the interrupt placeholders WAITINT and ACKINT (spec/44_interrupt.md R260 to R262). -/

namespace Sys2Proof.Machine

/-- A placeholder's end in the reference profile, a refusal under any other (R262, R287). -/
def inReferenceProfile (s : State) (reference : State) : State :=
  match s.cfg.intProfile with
  | .reference => reference
  | .other => s.refuse .interruptProfile

/-- WAITINT (R260): NotImplemented, whatever the selector and the timeout. -/
def execWaitint (_sel : Byte) (_timeoutMs : BitVec 32) (s : State) : Host.Outcome State Fault Refusal :=
  .next (inReferenceProfile s (s.fail .notImplemented))

/-- ACKINT (R261): success with a zero response. -/
def execAckint (s : State) : Host.Outcome State Fault Refusal := .next (inReferenceProfile s (s.succeed 0x0000))

end Sys2Proof.Machine
end

