-- ==== Sys2Proof/Machine/Dispatch.lean ====
section
/-! DEFINITION. Machine/Dispatch.lean: one arm per instruction, each one call of its meaning. -/

namespace Sys2Proof.Machine

/-- What an instruction does. -/
def exec (i : Instr) (s : State) : Host.Outcome State Fault Refusal :=
  match i with
  | .idle => Sys2Proof.Machine.execIdle s
  | .check => Sys2Proof.Machine.execCheck s
  | .mread a => Sys2Proof.Machine.execMread a s
  | .mwrite a d => Sys2Proof.Machine.execMwrite a d s
  | .bcr a => Sys2Proof.Machine.execBcr a s
  | .bcw a d => Sys2Proof.Machine.execBcw a d s
  | .waitint sel timeoutMs => Sys2Proof.Machine.execWaitint sel timeoutMs s
  | .ackint => Sys2Proof.Machine.execAckint s
  | .setdir p d => Sys2Proof.Machine.execSetdir p d s
  | .wrlvl p l => Sys2Proof.Machine.execWrlvl p l s
  | .rdlvl p _ => Sys2Proof.Machine.execRdlvl p s
  | .busdir b d => Sys2Proof.Machine.execBusdir b d s
  | .buswr b v => Sys2Proof.Machine.execBuswr b v s
  | .busrd b _ => Sys2Proof.Machine.execBusrd b s
  | .critenter => Sys2Proof.Machine.execCritenter s
  | .critleave => Sys2Proof.Machine.execCritleave s

end Sys2Proof.Machine
end

