-- ==== Sys2Proof/Machine/Fetch.lean ====
section
/-! DEFINITION. Machine/Fetch.lean: where the next instruction comes from: the sequencer's micro-step, or the harness's next
command word through CMD (spec/10_state.md R31, R39; spec/30_encoding.md R100; spec/60_exceptions.md R294). -/

namespace Sys2Proof.Machine

/-- The next word to run. -/
inductive Fetched where
  /-- A micro-operation of the sequence in progress (R12, R31). -/
  | micro (w : EventWord)
  /-- A command word the harness writes to CMD (R39, R100). -/
  | command (w : CommandWord)
  /-- Nothing: the block waits for CMD to be written (R293). -/
  | idle
  deriving DecidableEq, Repr

/-- What the machine runs next, and the state once it has taken it. A sequence in progress runs to completion before the
harness may present a command (R31); writing a command leaves it in CMD (R39). -/
def State.fetch (s : State) : Fetched × State :=
  match s.micro with
  | w :: rest => (.micro w, s.withMicro rest)
  | [] =>
    match s.inbox with
    | w :: rest => (.command w, (s.withInbox rest).withCmd w)
    | [] => (.idle, s)

/-- The word fetched, where one is. -/
def Fetched.word : Fetched → Option CodeWord
  | .micro w => some (.event w)
  | .command w => some (.command w)
  | .idle => none

/-- The refusal of a word that spells nothing (R104, R109, R287). -/
def Fetched.refusal (f : Fetched) (why : Invalid) : Refusal :=
  match f with
  | .micro _ => .invalidEvent why
  | .command _ => .invalidCommand why
  | .idle => .invalidCommand why

/-- The mark that has ended the run, if any: the first fault or refusal (R294). -/
def State.stopped (s : State) : Option (Host.Outcome State Fault Refusal) :=
  match s.faultMark with
  | some f => some (.fault f)
  | none =>
    match s.refusalMark with
    | some r => some (.refused r)
    | none => none

end Sys2Proof.Machine
end

