-- ==== Sys2Proof/Machine/Step.lean ====
section
/-! DEFINITION. Machine/Step.lean: one step: stop at a mark, else fetch, decode and run (spec/30_encoding.md R100;
spec/60_exceptions.md R287, R294). -/

namespace Sys2Proof.Machine

/-- One step. A marked state's run has ended (R294). A word that spells nothing is refused: the step leaves the refusal mark
and nothing else (R287). With nothing to run the block waits, all its state unchanged (R293). -/
def step (s : State) : Host.Outcome State Fault Refusal :=
  match s.stopped with
  | some ended => ended
  | none =>
    match s.fetch.1.word with
    | none => .next s.fetch.2
    | some w =>
      match decode s.cfg.nGnd w with
      | .ok i => exec i s.fetch.2
      | .error why => .next (s.fetch.2.refuse (s.fetch.1.refusal why))

/-- `s` with the word `w` of `nbits` bits next to run: a 24-bit word at the micro-step, any other as the harness's next
command word, with no sequence in progress. -/
def State.withFetchWord (s : State) (nbits w : Nat) : State :=
  if nbits = 24 then s.withMicro (BitVec.ofNat 24 w :: s.micro)
  else (s.withMicro []).withInbox (BitVec.ofNat 64 w :: s.inbox)

end Sys2Proof.Machine
end

