-- ==== Sys2Proof/Machine/Asm.lean ====
section
/-! DEFINITION. Machine/Asm.lean: the assembly notation of command words and its pseudo-instructions
(spec/30_encoding.md R114 to R116, spec/92_eei_decisions.md D30). It is no part of the block. -/

namespace Sys2Proof.Machine

/-- A line of assembly, its operands as numbers (R114, R115). -/
inductive AsmLine where
  | idle
  | check
  | mread (a : Nat)
  | mwrite (a d : Nat)
  | bcr (a : Nat)
  | bcw (a d : Nat)
  | waitint (sel timeout : Nat)
  | ackint
  | rdb (b : Nat)
  | wrb (b d : Nat)
  | rdw (w : Nat)
  | wrw (w d : Nat)
  deriving DecidableEq, Repr

/-- The assembly errors (R114, R115). -/
inductive AsmError where
  /-- No mnemonic of R114 or R115, or a wrong number of operands for it. -/
  | badLine
  /-- An operand is no decimal or 0x number. -/
  | badNumber
  /-- An operand does not fit its field (R114), or a word address is 0x8000 or more (R115). -/
  | doesNotFit
  deriving DecidableEq, Repr

/-- The instruction where every operand fits. -/
def ifFits (fits : Bool) (i : Instr) : Except AsmError Instr := if fits then .ok i else .error .doesNotFit

/-- An address value of a bus cycle fits: bits 31:18 are zero (R114). -/
def addressFits (a : Nat) : Bool := a < 2 ^ 18

/-- `lanes(b)` of R115: the high lane for an odd byte address, the low lane for an even one. -/
def lanes (b : Nat) : Nat := if b % 2 = 1 then 0x20000 else 0x10000

/-- `lanes(b) | (b & 0xFFFE)` of R115. -/
def byteAddressValue (b : Nat) : Nat := lanes b + b / 2 * 2

/-- `0x30000 | (w << 1)` of R115. -/
def wordAddressValue (w : Nat) : Nat := 0x30000 + w * 2

/-- The instruction a line assembles to (R114, R115). A byte address is 16 bits. -/
def assemble : AsmLine → Except AsmError Instr
  | .idle => .ok .idle
  | .check => .ok .check
  | .mread a => ifFits (addressFits a) (.mread (BitVec.ofNat 32 a))
  | .mwrite a d => ifFits (addressFits a && decide (d < 2 ^ 8)) (.mwrite (BitVec.ofNat 32 a) (BitVec.ofNat 8 d))
  | .bcr a => ifFits (addressFits a) (.bcr (BitVec.ofNat 32 a))
  | .bcw a d => ifFits (addressFits a && decide (d < 2 ^ 16)) (.bcw (BitVec.ofNat 32 a) (BitVec.ofNat 16 d))
  | .waitint sel t =>
    ifFits (decide (sel < 2 ^ 8) && decide (t < 2 ^ 32)) (.waitint (BitVec.ofNat 8 sel) (BitVec.ofNat 32 t))
  | .ackint => .ok .ackint
  | .rdb b => ifFits (b < 2 ^ 16) (.mread (BitVec.ofNat 32 (byteAddressValue b)))
  | .wrb b d =>
    ifFits (decide (b < 2 ^ 16) && decide (d < 2 ^ 8))
      (.mwrite (BitVec.ofNat 32 (byteAddressValue b)) (BitVec.ofNat 8 d))
  | .rdw w => ifFits (w < 0x8000) (.bcr (BitVec.ofNat 32 (wordAddressValue w)))
  | .wrw w d =>
    ifFits (decide (w < 0x8000) && decide (d < 2 ^ 16))
      (.bcw (BitVec.ofNat 32 (wordAddressValue w)) (BitVec.ofNat 16 d))

/-! ## The text of a line (R114) -/

/-- The value of a digit below `base`. -/
def digitValue (base : Nat) (c : Char) : Option Nat :=
  let v :=
    if '0' ≤ c ∧ c ≤ '9' then some (c.toNat - '0'.toNat)
    else if 'a' ≤ c ∧ c ≤ 'f' then some (c.toNat - 'a'.toNat + 10)
    else if 'A' ≤ c ∧ c ≤ 'F' then some (c.toNat - 'A'.toNat + 10)
    else none
  v.filter (· < base)

/-- The digits left to read, after the value `acc`. -/
def digitsValue (base : Nat) : List Char → Nat → Option Nat
  | [], acc => some acc
  | c :: cs, acc =>
    match digitValue base c with
    | some d => digitsValue base cs (acc * base + d)
    | none => none

/-- A number: decimal, or hexadecimal after 0x. -/
def numberOf : List Char → Option Nat
  | '0' :: 'x' :: c :: cs => digitsValue 16 (c :: cs) 0
  | c :: cs => digitsValue 10 (c :: cs) 0
  | [] => none

/-- A blank of a line. -/
def isBlank (c : Char) : Bool := c = ' ' || c = '\t'

/-- A text without the blanks around it. -/
def trimBlanks (cs : List Char) : List Char := ((cs.dropWhile isBlank).reverse.dropWhile isBlank).reverse

/-- The parts of a text between commas; `part` is the part being read, last character first. -/
def splitCommas : List Char → List Char → List (List Char)
  | [], part => [part.reverse]
  | c :: cs, part => if c = ',' then part.reverse :: splitCommas cs [] else splitCommas cs (c :: part)

/-- The operands' numbers, none where one is no number. -/
def numbersOf : List (List Char) → Option (List Nat)
  | [] => some []
  | part :: parts =>
    match numberOf (trimBlanks part), numbersOf parts with
    | some n, some ns => some (n :: ns)
    | _, _ => none

/-- The line of a mnemonic and its operands (R114, R115). -/
def lineOf (mnemonic : List Char) (operands : List Nat) : Except AsmError AsmLine :=
  match operands with
  | [] =>
    if mnemonic = "idle".toList then .ok .idle
    else if mnemonic = "check".toList then .ok .check
    else if mnemonic = "ackint".toList then .ok .ackint
    else .error .badLine
  | [x] =>
    if mnemonic = "mread".toList then .ok (.mread x)
    else if mnemonic = "bcr".toList then .ok (.bcr x)
    else if mnemonic = "rdb".toList then .ok (.rdb x)
    else if mnemonic = "rdw".toList then .ok (.rdw x)
    else .error .badLine
  | [x, y] =>
    if mnemonic = "mwrite".toList then .ok (.mwrite x y)
    else if mnemonic = "bcw".toList then .ok (.bcw x y)
    else if mnemonic = "waitint".toList then .ok (.waitint x y)
    else if mnemonic = "wrb".toList then .ok (.wrb x y)
    else if mnemonic = "wrw".toList then .ok (.wrw x y)
    else .error .badLine
  | _ => .error .badLine

/-- The line a text spells: `mnemonic [operand, operand]`, `;` starting a comment; nothing for a blank line (R114). -/
def parseLine (text : List Char) : Except AsmError (Option AsmLine) :=
  let body := trimBlanks (text.takeWhile (· ≠ ';'))
  let mnemonic := body.takeWhile fun c => !isBlank c
  let rest := trimBlanks (body.drop mnemonic.length)
  if body = [] then .ok none
  else
    match numbersOf (if rest = [] then [] else splitCommas rest []) with
    | none => .error .badNumber
    | some ns =>
      match lineOf mnemonic ns with
      | .ok line => .ok (some line)
      | .error e => .error e

/-- The command word a line of text assembles to, nothing for a blank line (R114). -/
def assembleText (text : String) : Except AsmError (Option CodeWord) :=
  match parseLine text.toList with
  | .error e => .error e
  | .ok none => .ok none
  | .ok (some line) =>
    match assemble line with
    | .ok i => .ok (some (encode i))
    | .error e => .error e

end Sys2Proof.Machine
end

