-- ==== Sys2Proof/Safety.lean ====
section
/-! DEFINITION. Safety.lean: the terms claims are stated in: marks, final states and observations, the pin states the rules
name, the traces they list, the fixtures, the verdict table of CHECK, and the harness's duties. -/

namespace Sys2Proof.Machine

/-! ## Marks, ends and observations (spec/60_exceptions.md R285, R287, R294, R295) -/

/-- No fault and no refusal is recorded. -/
def State.unmarked (s : State) : Prop := s.faultMark = none ∧ s.refusalMark = none

/-- Between commands: no sequence in progress and CRIT = 0 (spec/10_state.md R31, R38). -/
def State.between (s : State) : Prop := s.micro = [] ∧ s.crit = false

/-- A valid final state of a run: nothing left to run and no mark (R294). -/
def State.isFinal (s : State) : Prop := s.unmarked ∧ s.micro = [] ∧ s.inbox = []

/-- The observation of a run: its trace and the (STATUS, RESULT) pairs posted (R295). -/
def State.observation (s : State) : List EventWord × List (BitVec 32 × BitVec 16) := (s.trace, s.posted)

/-- The event words an execution from `s` to `t` added. -/
def emitted (s t : State) : List EventWord := t.trace.drop s.trace.length

/-! ## Phases (spec/10_state.md R44) -/

/-- The derived phase. -/
inductive Phase where
  | idle
  | checking
  | transacting
  | none
  deriving DecidableEq, Repr

/-- The phase while an instruction executes (R44). -/
def phaseOf : Instr → Phase
  | .idle => .idle
  | .check => .checking
  | .mread _ | .mwrite _ _ | .bcr _ | .bcw _ _ => .transacting
  | _ => .none

/-- The physical address a bus-cycle command drives onto the buses (spec/30_encoding.md R106). -/
def addressOf : Instr → BitVec 16
  | .mread a | .mwrite a _ | .bcr a | .bcw a _ => a.setWidth 16
  | _ => 0

/-! ## Pin states the rules name -/

/-- A pin of class in (spec/10_state.md R32): VCC to AUX3, and the ground pins. -/
def isInputPin (p : Pin) : Bool := 0x18 ≤ p.val

/-- Every existing pin of class in has an input direction (spec/60_exceptions.md R286). -/
def State.inputsReadable (s : State) : Prop :=
  ∀ p : Pin, isInputPin p = true → pinExists s.cfg.nGnd p = true → s.dir[p] ≠ .output

/-- No bus member is OUT (spec/42_check.md R190). -/
def State.busesReadable (s : State) : Prop := ∀ (b : Bus) (i : Fin 8), s.dir[b.member i] ≠ .output

/-- RAS, CAS, WLB and WHB are driven HIGH: no strobe is active. -/
def State.strobesReleased (s : State) : Prop :=
  ∀ p ∈ [Pin.ras, Pin.cas, Pin.wlb, Pin.whb], s.seen p = .driven .high

/-- What the target sees of the pins after IDLE (spec/41_idle.md R171). -/
def State.idlePins (s : State) : Prop :=
  (∀ p ∈ [Pin.ras, Pin.cas, Pin.wlb, Pin.whb, Pin.bclr], s.seen p = .driven .high) ∧
  (∀ p ∈ [Pin.dls, Pin.pi, Pin.cout], s.seen p = .driven .low) ∧
  (∀ p : Pin, isInputPin p = true → pinExists s.cfg.nGnd p = true → s.seen p = .floating) ∧
  (∀ (b : Bus) (i : Fin 8), s.seen (b.member i) = .pulledUp)

/-! ## The traces the rules list -/

/-- The events of IDLE with `n` ground pins (spec/41_idle.md R170, spec/95_test_vectors.md L2.2). -/
def idleTrace (n : Nat) : List EventWord :=
  [0x211000, 0x111000, 0x211100, 0x111100, 0x211200, 0x111200, 0x211300, 0x111300, 0x211700, 0x111700,
    0x201400, 0x111400, 0x201500, 0x111500, 0x201600, 0x111600]
  ++ (List.range n).map (fun k => BitVec.ofNat 24 (0x102000 + 0x100 * k))
  ++ [0x101800, 0x101900, 0x101A00, 0x101B00, 0x101C00, 0x101D00, 0x101E00, 0x101F00, 0x424000, 0x424100]

/-- The events `es` of an enabled lane. -/
def onLane (enabled : Bool) (es : List EventWord) : List EventWord := if enabled then es else []

/-- The events of a read cycle that samples the bytes `vLow` and `vHigh` on its enabled lanes (spec/43_bus_cycle.md R213). -/
def readTrace (a : BitVec 32) (vLow vHigh : Byte) : List EventWord :=
  [0x414000, 0x414100, (0x5040 : BitVec 16) ++ a.extractLsb' 0 8, (0x5041 : BitVec 16) ++ a.extractLsb' 8 8,
    0x700000, 0x201000, 0x211600, 0x201600, 0x404000, 0x404100, 0x201100, 0x211400, 0x211600, 0x201600]
  ++ onLane (a.getLsbD 16) [(0x6040 : BitVec 16) ++ vLow] ++ onLane (a.getLsbD 17) [(0x6041 : BitVec 16) ++ vHigh]
  ++ [0x211100, 0x201400, 0x211000, 0x800000]

/-- The events of a write cycle that drives the bytes `vLow` and `vHigh` on its enabled lanes (R213). -/
def writeTrace (a : BitVec 32) (vLow vHigh : Byte) : List EventWord :=
  [0x414000, 0x414100, (0x5040 : BitVec 16) ++ a.extractLsb' 0 8, (0x5041 : BitVec 16) ++ a.extractLsb' 8 8]
  ++ onLane (a.getLsbD 16) [0x201200] ++ onLane (a.getLsbD 17) [0x201300]
  ++ [0x700000, 0x201000, 0x211600, 0x201600]
  ++ onLane (a.getLsbD 16) [(0x5040 : BitVec 16) ++ vLow] ++ onLane (a.getLsbD 17) [(0x5041 : BitVec 16) ++ vHigh]
  ++ [0x201100, 0x211400, 0x211600, 0x201600, 0x211100, 0x201400, 0x211000, 0x800000]
  ++ onLane (a.getLsbD 16) [0x424000] ++ onLane (a.getLsbD 17) [0x424100]
  ++ onLane (a.getLsbD 16) [0x211200] ++ onLane (a.getLsbD 17) [0x211300]

/-! ## The fixtures (spec/20_memory.md R85, R86) -/

/-- The healthy target H for a configuration, at reset. -/
def Target.healthyFor (c : Config) : Target := { Target.reset with kind := .healthy, modeWord := c.modeWord }

/-- The echo target E for a configuration, at reset, with its store given by the test. -/
def Target.echoFor (c : Config) (mem : Memory) : Target :=
  { Target.reset with kind := .echo, modeWord := c.modeWord, mem := mem }

/-- The target is H itself, no pin forced. -/
def State.onHealthy (s : State) : Prop :=
  s.target.kind = .healthy ∧ s.target.forced = [] ∧ s.target.modeWord = s.cfg.modeWord

/-- The target is E, its store in canonical form. -/
def State.onEcho (s : State) : Prop := s.target.kind = .echo ∧ s.target.mem.wf

/-- The answers the target will give are foretold: `ans`, in this order (R72). -/
def State.foretold (s : State) (ans : List Level) : Prop := s.target.kind = .unconstrained ∧ s.target.answers = ans

/-- The byte of echo memory at an address. -/
def State.echoByte (s : State) (a : Nat) : Byte := s.target.mem.read a

/-! ## The verdict of CHECK from the target's answers (spec/60_exceptions.md R272, R276) -/

/-- The byte a bus reads from eight answers, member 0 first. -/
def byteOfAnswers (ans : List Level) : Byte := BitVec.ofBoolListLE ((List.range 8).map fun i => ans.getD i .low = .high)

/-- The event of a pin read that answers `l` (spec/40_gpio_primitives.md R142). -/
def readEvent (p : Pin) (l : Level) : EventWord :=
  (if l = .high then 0x31 else 0x30 : Byte) ++ BitVec.ofNat 8 p.val ++ (0x00 : Byte)

/-- The event of a pin write (R143). -/
def writeEvent (p : Pin) (l : Level) : EventWord :=
  (if l = .high then 0x21 else 0x20 : Byte) ++ BitVec.ofNat 8 p.val ++ (0x00 : Byte)

/-- The event of a bus read that answers `v` (R145). -/
def busReadEvent (b : Bus) (v : Byte) : EventWord := (0x60 : Byte) ++ (if b = .low then 0x40 else 0x41 : Byte) ++ v

/-- One comparison of CHECK: the events since the comparison before it, the Outcome a mismatch reports, and whether it
matches. -/
structure CheckRow where
  events : List EventWord
  report : CmdOutcome
  ok : Bool
  deriving DecidableEq, Repr

/-- The comparison of a pin's answer with the level it must read. -/
def pinRow (before : List EventWord) (p : Pin) (want got : Level) : CheckRow :=
  ⟨before ++ [readEvent p got], .pinStateMismatch p want got, got = want⟩

/-- Steps 1 and 2: ground pins, VCC, PUP, READY. -/
def powerRows (n : Nat) (ans : List Level) : List CheckRow :=
  (groundPins n).zipIdx.map (fun (g, k) => pinRow [] g .low (ans.getD k .low))
  ++ [pinRow [] 0x18 .high (ans.getD n .low), pinRow [] 0x19 .low (ans.getD (n + 1) .low),
      pinRow [] 0x1A .high (ans.getD (n + 2) .low)]

/-- Step 3, from the clock samples, all of them taken before either verdict: all LOW, all HIGH. -/
def clockRows (expected : Level) (samples : List Level) : List CheckRow :=
  [⟨samples.map (readEvent 0x1B), .pinStateMismatch 0x1B expected .low, decide (.high ∈ samples)⟩,
   ⟨[], .pinStateMismatch 0x1B .low .high, decide (.low ∈ samples)⟩]

/-- Two buses compared with `want`, in the order `order`, from sixteen answers, after the events `before`. -/
def busRows (before : List EventWord) (order : List Bus) (want : Bus → Byte) (ans : List Level) : List CheckRow :=
  order.zipIdx.map fun (b, j) =>
    let got := byteOfAnswers (ans.drop (8 * j))
    ⟨(if j = 0 then before else []) ++ [busReadEvent b got], .busValueMismatch b (want b) got, got = want b⟩

/-- Step 6: AUX0 to AUX3, after the events `before`. -/
def latchRows (before : List EventWord) (ans : List Level) : List CheckRow :=
  ([0x1C, 0x1D, 0x1E, 0x1F] : List Pin).zipIdx.map fun (p, j) =>
    pinRow (if j = 0 then before else []) p .high (ans.getD j .low)

/-- Everything CHECK compares, in the order of R276, with the events of R180 up to each comparison and what a mismatch reports
(R272). -/
def checkRows (c : Config) (ans : List Level) : List CheckRow :=
  let n := c.nGnd
  let buses := ans.drop (n + 3 + c.clockSamples)
  let order : List Bus := if c.busCheckOrder = .lowFirst then [.low, .high] else [.high, .low]
  let mode : Bus → Byte := fun b => if b = .low then c.modeWord.setWidth 8 else (c.modeWord >>> 8).setWidth 8
  powerRows n ans
  ++ clockRows c.clockStuckLowExpected ((ans.drop (n + 3)).take c.clockSamples)
  ++ busRows [] order (fun _ => 0xFF) buses
  ++ busRows [writeEvent 0x17 .low] order mode (buses.drop 16)
  ++ busRows [writeEvent 0x17 .high] order (fun _ => 0xFF) (buses.drop 32)
  ++ latchRows [writeEvent 0x14 .high, writeEvent c.latchEnablePin .high] (buses.drop 48)

/-- The events that end a CHECK without a mismatch: the latch-enable pin, then DLS, deasserted (R187). -/
def releaseEvents (c : Config) : List EventWord := [writeEvent c.latchEnablePin .low, writeEvent 0x14 .low]

/-- The events of a list of comparisons, cut at the first mismatch (R188), with `finish` after them where there is none. -/
def checkTrace (finish : List EventWord) : List CheckRow → List EventWord
  | [] => finish
  | r :: rest => r.events ++ if r.ok then checkTrace finish rest else []

/-- The first mismatch of a list of comparisons, Success where there is none (R276). -/
def firstMismatch : List CheckRow → CmdOutcome
  | [] => .success
  | r :: rest => if r.ok then firstMismatch rest else r.report

/-! ## The harness's duties (spec/60_exceptions.md R296, spec/70_reset_and_hazards.md R301, R306 to R308) -/

/-- How far a harness has come with its duties. -/
inductive Duty where
  /-- IDLE has not run. -/
  | fresh
  /-- IDLE has run since the last bus cycle; CHECK has not been called yet. -/
  | idled
  /-- CHECK has been called, and no bus cycle since the last IDLE. -/
  | checked
  /-- A bus cycle has run since the last IDLE. -/
  | used
  deriving DecidableEq, Repr

/-- What a command does to the duties; none where it breaks one: IDLE first, CHECK before any bus cycle, IDLE between a bus
cycle and CHECK. -/
def Duty.after : Duty → Instr → Option Duty
  | .fresh, .idle => some .idled
  | .fresh, _ => none
  | .idled, .check => some .checked
  | .idled, .mread _ => none
  | .idled, .mwrite _ _ => none
  | .idled, .bcr _ => none
  | .idled, .bcw _ _ => none
  | .used, .idle => some .checked
  | .used, .check => none
  | .checked, .mread _ => some .used
  | .checked, .mwrite _ _ => some .used
  | .checked, .bcr _ => some .used
  | .checked, .bcw _ _ => some .used
  | d, _ => some d

/-- A sequence of commands that keeps every duty from `d` on. -/
def dutiful : Duty → List Instr → Bool
  | _, [] => true
  | d, i :: rest =>
    match d.after i with
    | some d' => i.isCommand && dutiful d' rest
    | none => false

/-- The command word of an instruction, zero for a micro-operation. -/
def commandOf (i : Instr) : CommandWord :=
  match encode i with
  | .command w => w
  | .event _ => 0

end Sys2Proof.Machine
end

