-- ==== Sys2Proof/Certificates/Slice0/Obligations.lean ====
section
/-! DEFINITION. Certificates/Slice0/Obligations.lean: the statements for the provers, each from the rules of spec/ its
docstring cites. -/

open Sys2Proof Sys2Proof.Machine

/-! ## Reset and the step -/

/-- R48: the value of every piece of state after power-on reset, under every injected configuration. CMD = 0 spells no
command, and reset executes nothing: with no command word to come the step leaves the reset state as it is. -/
def Obligations.ResetGivesEveryValue : Prop :=
  ∀ c : Config,
    (∀ p : Pin, (State.resetWith c).dir[p] = .input ∧ (State.resetWith c).lat[p] = c.resetLatch) ∧
    (State.resetWith c).crit = false ∧ (State.resetWith c).cmd = 0 ∧
    decodeCommand (State.resetWith c).cmd = .error .reservedOpcode ∧
    (State.resetWith c).result = 0 ∧ (State.resetWith c).status = 0 ∧ (State.resetWith c).trace = [] ∧
    (State.resetWith c).unmarked ∧ (State.resetWith c).cfg = c ∧
    Config.reference.resetLatch = .low ∧
    step (State.resetWith c) = .next (State.resetWith c)

/-- R100, with the harness's words as log entry 7 has them: a command word that spells a command is left in CMD and its
command's rule is executed. -/
def Obligations.StepRunsTheNextCommand : Prop :=
  ∀ (s : State) (w : CommandWord) (rest : List CommandWord) (i : Instr),
    s.unmarked → s.micro = [] → s.inbox = w :: rest → decodeCommand w = .ok i →
    step s = exec i { s with inbox := rest, cmd := w }

/-- R12, R140, and log entry 7 (the model's micro-step): the micro-operation at the sequencer's micro-step is executed before
anything else. -/
def Obligations.StepRunsTheNextMicroOperation : Prop :=
  ∀ (s : State) (w : EventWord) (rest : List EventWord) (i : Instr),
    s.unmarked → s.micro = w :: rest → decodeEvent s.cfg.nGnd w = .ok i →
    step s = exec i { s with micro := rest }

/-- R287, with the harness's words as log entry 7 has them (DESIGN CHOICE): a word that spells no command is refused: no event,
no pin, no CRIT, STATUS or RESULT changes, and the refusal mark names the reason. That the step after it answers the refusal is
R294's end of the run as log entry 6 codes it (DEDUCED). -/
def Obligations.InvalidCommandIsRefused : Prop :=
  ∀ (s : State) (w : CommandWord) (rest : List CommandWord) (why : Invalid),
    s.unmarked → s.micro = [] → s.inbox = w :: rest → decodeCommand w = .error why →
    ∃ t, step s = .next t ∧
      t = { s with inbox := rest, cmd := w, refusalMark := some (.invalidCommand why) } ∧
      step t = .refused (.invalidCommand why)

/-- R294, R293, with the marks as log entry 6 has them: the run ends at the first fault or refusal: a marked state steps no
further, a fault before a refusal; an unmarked state has a next state, and with nothing to run it waits with all its state
unchanged. -/
def Obligations.StepStopsWaitsOrGoesOn : Prop :=
  ∀ s : State, (∀ f, s.faultMark = some f → step s = .fault f) ∧
    (∀ r, s.faultMark = none → s.refusalMark = some r → step s = .refused r) ∧
    (s.unmarked → ∃ t, step s = .next t) ∧
    (s.unmarked → s.micro = [] → s.inbox = [] → step s = .next s)

/-! ## Decoding and encoding -/

/-- R103: a word selects a mnemonic exactly when its match and mask say so, with the operands R105 gives, for each of the
eight rows. -/
def Obligations.CommandRowsSelectTheirWords : Prop :=
  ∀ w : CommandWord,
    (decodeCommand w = .ok .idle ↔ w &&& 0xFFFFFFFFFFFFFFFF = 0x0100000000000000) ∧
    (decodeCommand w = .ok .check ↔ w &&& 0xFFFFFFFFFFFFFFFF = 0x0200000000000000) ∧
    (∀ a, decodeCommand w = .ok (.mread a) ↔
      w &&& 0xFFFFFFFFFFFC0000 = 0x0300000000000000 ∧ a = w.setWidth 32) ∧
    (∀ a d, decodeCommand w = .ok (.mwrite a d) ↔
      w &&& 0xFFFFFF00FFFC0000 = 0x0400000000000000 ∧ a = w.setWidth 32 ∧ d = (w >>> 32).setWidth 8) ∧
    (∀ a, decodeCommand w = .ok (.bcr a) ↔
      w &&& 0xFFFFFFFFFFFC0000 = 0x0500000000000000 ∧ a = w.setWidth 32) ∧
    (∀ a d, decodeCommand w = .ok (.bcw a d) ↔
      w &&& 0xFFFF0000FFFC0000 = 0x0600000000000000 ∧ a = w.setWidth 32 ∧ d = (w >>> 32).setWidth 16) ∧
    (∀ n t, decodeCommand w = .ok (.waitint n t) ↔
      w &&& 0xFFFFFF0000000000 = 0x0700000000000000 ∧ n = (w >>> 32).setWidth 8 ∧ t = w.setWidth 32) ∧
    (decodeCommand w = .ok .ackint ↔ w &&& 0xFFFFFFFFFFFFFFFF = 0x0800000000000000)

/-- R109, R110, R112: what is invalid: a reserved KIND, a direction code 3 to 15, an id of no existing pin; and an accepted word
is the word of its micro-operation. Which reason is named where several hold (ARG whatever ID and VAL hold, ID whatever VAL
holds) is the model's choice, log entry 15 (DESIGN CHOICE). -/
def Obligations.EventWordsAreChecked : Prop :=
  ∀ (n : Nat) (w : EventWord),
    ((w >>> 20).setWidth 4 = (0 : BitVec 4) ∨ 9 ≤ (w >>> 20).toNat → decodeEvent n w = .error .reservedKind) ∧
    (∀ i, decodeEvent n w = .ok i → i.isCommand = false ∧ i.wellFormed n = true ∧ encode i = .event w) ∧
    ((w >>> 20).toNat = 1 → 3 ≤ ((w >>> 16).setWidth 4).toNat → decodeEvent n w = .error .badArg) ∧
    ((w >>> 20).toNat = 1 → ((w >>> 16).setWidth 4).toNat < 3 → 0x20 + n ≤ ((w >>> 8).setWidth 8).toNat →
      decodeEvent n w = .error .badId)

/-- R103, R109: decoding the word of a well-formed instruction gives it back, every operand at every value. -/
def Obligations.DecodeOfEncodeIsIdentity : Prop :=
  ∀ (n : Nat) (i : Instr), i.wellFormed n = true → decode n (encode i) = .ok i

/-- R104: each word has at most one meaning: what decodes is the encoding of a well-formed instruction, so no two words decode
alike. -/
def Obligations.EncodeOfDecodeIsIdentity : Prop :=
  ∀ (n : Nat) (w : CodeWord) (i : Instr), decode n w = .ok i → encode i = w ∧ i.wellFormed n = true

/-- R116 (which the spec derives from R101 to R106) and the vectors of L2.6 and L2.1, written out bit by bit from R101 and
R108: one word of every family, and words that spell nothing. -/
def Obligations.WordsOfTheSpecDecode : Prop :=
  decodeCommand 0x0100000000000000 = .ok .idle ∧ decodeCommand 0x0200000000000000 = .ok .check ∧
  decodeCommand 0x0300000000010246 = .ok (.mread 0x10246) ∧
  decodeCommand 0x0400005A00020246 = .ok (.mwrite 0x20246 0x5A) ∧
  decodeCommand 0x0500000000030246 = .ok (.bcr 0x30246) ∧
  decodeCommand 0x0600BEEF00030246 = .ok (.bcw 0x30246 0xBEEF) ∧
  decodeCommand 0x0700000000000064 = .ok (.waitint 0 100) ∧ decodeCommand 0x0800000000000000 = .ok .ackint ∧
  decodeEvent 1 0x111000 = .ok (.setdir 0x10 .output) ∧ decodeEvent 1 0x211600 = .ok (.wrlvl 0x16 .high) ∧
  decodeEvent 1 0x311800 = .ok (.rdlvl 0x18 .high) ∧ decodeEvent 1 0x424000 = .ok (.busdir .low .inputPullup) ∧
  decodeEvent 1 0x504102 = .ok (.buswr .high 0x02) ∧ decodeEvent 1 0x6040EF = .ok (.busrd .low 0xEF) ∧
  decodeEvent 1 0x700000 = .ok .critenter ∧ decodeEvent 1 0x800000 = .ok .critleave ∧
  decodeCommand 0x0300000000040246 = .error .addressBits ∧ decodeCommand 0x0401005A00010246 = .error .reservedByte ∧
  decodeCommand 0x0400015A00010246 = .error .operandBits ∧ decodeEvent 1 0x112100 = .error .badId ∧
  decodeEvent 1 0x700001 = .error .badVal

/-- R111: the fields of STATUS for every Outcome; two Outcomes never share a STATUS word. -/
def Obligations.StatusWordEncodesTheOutcome : Prop :=
  (encodeOutcome .success = 0x00000000 ∧ encodeOutcome .notImplemented = 0x00000003 ∧
    encodeOutcome .timeout = 0x00000004) ∧
  (∀ p e o, statusCode (encodeOutcome (.pinStateMismatch p e o)) = 0x01 ∧
    (statusSubject (encodeOutcome (.pinStateMismatch p e o))).toNat = p.val ∧
    (statusExpected (encodeOutcome (.pinStateMismatch p e o)) = if e = .high then 1 else 0) ∧
    (statusObserved (encodeOutcome (.pinStateMismatch p e o)) = if o = .high then 1 else 0)) ∧
  (∀ b e o, statusCode (encodeOutcome (.busValueMismatch b e o)) = 0x02 ∧
    (statusSubject (encodeOutcome (.busValueMismatch b e o)) = if b = .low then 0x40 else 0x41) ∧
    statusExpected (encodeOutcome (.busValueMismatch b e o)) = e ∧
    statusObserved (encodeOutcome (.busValueMismatch b e o)) = o) ∧
  (∀ x y : CmdOutcome, encodeOutcome x = encodeOutcome y → x = y)

/-- R115: each pseudo-instruction expands to its command: the byte forms enable exactly the lane of the address's parity with
an even address, the word forms enable both lanes and are errors from word address 0x8000 on. -/
def Obligations.PseudoInstructionsExpand : Prop :=
  (∀ b : Nat, b < 65536 → ∃ a : BitVec 32, assemble (.rdb b) = .ok (.mread a) ∧
    a.getLsbD 16 = decide (b % 2 = 0) ∧ a.getLsbD 17 = decide (b % 2 = 1) ∧ (a.setWidth 16).toNat = b - b % 2 ∧
    a.toNat < 2 ^ 18) ∧
  (∀ b d : Nat, b < 65536 → d < 256 → ∃ a : BitVec 32,
    assemble (.wrb b d) = .ok (.mwrite a (BitVec.ofNat 8 d)) ∧ assemble (.rdb b) = .ok (.mread a)) ∧
  (∀ w : Nat, w < 0x8000 → ∃ a : BitVec 32, assemble (.rdw w) = .ok (.bcr a) ∧
    a.getLsbD 16 = true ∧ a.getLsbD 17 = true ∧ (a.setWidth 16).toNat = 2 * w ∧ a.toNat < 2 ^ 18) ∧
  (∀ w d : Nat, w < 0x8000 → d < 65536 → ∃ a : BitVec 32,
    assemble (.wrw w d) = .ok (.bcw a (BitVec.ofNat 16 d)) ∧ assemble (.rdw w) = .ok (.bcr a)) ∧
  (∀ w d : Nat, 0x8000 ≤ w → assemble (.rdw w) = .error .doesNotFit ∧ assemble (.wrw w d) = .error .doesNotFit)

/-! ## Micro-operations -/

/-- R141: SETDIR sets the direction, keeps the latch, emits its event, and the target sees it at once. -/
def Obligations.SetdirSetsTheDirection : Prop :=
  ∀ (p : Pin) (d : Dir) (s : State), ∃ t, exec (.setdir p d) s = .next t ∧
    (∀ q : Pin, t.dir[q] = if q = p then d else s.dir[q]) ∧ t.lat = s.lat ∧
    t.trace = s.trace ++ [(1 : BitVec 4) ++ dirCode d ++ BitVec.ofNat 8 p.val ++ (0 : BitVec 8)] ∧
    (d = .output → t.seen p = .driven s.lat[p]) ∧ (d = .input → t.seen p = .floating) ∧
    (d = .inputPullup → t.seen p = .pulledUp) ∧ t.faultMark = s.faultMark

/-- R143: WRLVL writes the latch whatever the direction, emits its event, and is driven at once exactly on an output. -/
def Obligations.WrlvlWritesTheLatch : Prop :=
  ∀ (p : Pin) (l : Level) (s : State), ∃ t, exec (.wrlvl p l) s = .next t ∧
    (∀ q : Pin, t.lat[q] = if q = p then l else s.lat[q]) ∧ t.dir = s.dir ∧
    t.trace = s.trace ++ [(2 : BitVec 4) ++ levelCode l ++ BitVec.ofNat 8 p.val ++ (0 : BitVec 8)] ∧
    (s.dir[p] = .output → t.seen p = .driven l) ∧ (s.dir[p] ≠ .output → t.seen p = s.seen p) ∧
    t.faultMark = s.faultMark

/-- R142: RDLVL of an input (IN or IN_PULLUP) samples the target's answer, records it and changes no pin; of an output it
faults with no event and no other change. Two reads of one pin may differ. -/
def Obligations.RdlvlSamplesAnInput : Prop :=
  (∀ (p : Pin) (l : Level) (s : State), s.dir[p] ≠ .output → ∃ t, exec (.rdlvl p l) s = .next t ∧
    t.trace = s.trace ++ [(3 : BitVec 4) ++ levelCode (s.sample p).1 ++ BitVec.ofNat 8 p.val ++ (0 : BitVec 8)] ∧
    t.dir = s.dir ∧ t.lat = s.lat ∧ t.crit = s.crit ∧ t.faultMark = s.faultMark ∧ t.target = (s.sample p).2) ∧
  (∀ (p : Pin) (l : Level) (s : State), s.dir[p] = .output → s.faultMark = none →
    exec (.rdlvl p l) s = .next { s with faultMark := some (.readOfOutputPin p) }) ∧
  (∃ (p : Pin) (s t u : State), exec (.rdlvl p .low) s = .next t ∧ exec (.rdlvl p .low) t = .next u ∧
    t.trace ≠ s.trace ++ u.trace.drop t.trace.length)

/-- R144: BUSDIR sets the eight members in one step and keeps the latches, so the driven value of R37; set OUT, the bus at once
drives it. -/
def Obligations.BusdirSetsEightMembers : Prop :=
  ∀ (b : Bus) (d : Dir) (s : State), ∃ t, exec (.busdir b d) s = .next t ∧
    (∀ i, t.dir[b.member i] = d) ∧ (∀ q : Pin, (∀ i, q ≠ b.member i) → t.dir[q] = s.dir[q]) ∧ t.lat = s.lat ∧
    t.trace = s.trace ++ [(4 : BitVec 4) ++ dirCode d ++ busId b ++ (0 : BitVec 8)] ∧
    (d = .output → ∀ i, t.seen (b.member i) = .driven s.lat[b.member i]) ∧ t.drivenValue b = s.drivenValue b ∧
    (t.busDirection b = if d = .output then .out else .inp) ∧ t.faultMark = s.faultMark

/-- R146: BUSWR drives bit i of the value onto member i of an all-OUT bus, whose driven value (R37) it then is; otherwise it
faults, with no event and no other change. -/
def Obligations.BuswrDrivesEachBit : Prop :=
  (∀ (b : Bus) (v : Byte) (s : State), (∀ i, s.dir[b.member i] = .output) → ∃ t, exec (.buswr b v) s = .next t ∧
    (∀ i : Fin 8, t.seen (b.member i) = .driven (if v.getLsbD i then .high else .low)) ∧
    t.drivenValue b = v ∧ (∀ q : Pin, (∀ i, q ≠ b.member i) → t.lat[q] = s.lat[q]) ∧ t.dir = s.dir ∧
    t.trace = s.trace ++ [(5 : BitVec 4) ++ (0 : BitVec 4) ++ busId b ++ v] ∧ t.faultMark = s.faultMark) ∧
  (∀ (b : Bus) (v : Byte) (s : State) (i : Fin 8), s.dir[b.member i] ≠ .output → s.faultMark = none →
    exec (.buswr b v) s = .next { s with faultMark := some (.busWriteNotOutput b) })

/-- R145: BUSRD of a bus with no member OUT samples its members into bits 0 to 7 as one event and changes no pin; otherwise it
faults, with no event and no other change. The order among the samples, member 0 first, by which bit i is the i-th of eight
foretold answers, is the model's choice (log entry 12, DEDUCED): R140 and C1 model no order. -/
def Obligations.BusrdComposesEightSamples : Prop :=
  (∀ (b : Bus) (v : Byte) (s : State), (∀ i, s.dir[b.member i] ≠ .output) →
    ∃ (t : State) (r : Byte), exec (.busrd b v) s = .next t ∧
    t.trace = s.trace ++ [(6 : BitVec 4) ++ (0 : BitVec 4) ++ busId b ++ r] ∧
    t.dir = s.dir ∧ t.lat = s.lat ∧ t.crit = s.crit ∧ t.faultMark = s.faultMark ∧
    (∀ i : Fin 8, r.getLsbD i = levelBit ((s.withTarget (s.sampleMembers b i).2).sample (b.member i)).1) ∧
    (∀ ans rest, ans.length = 8 → s.foretold (ans ++ rest) →
      t.foretold rest ∧ ∀ i : Fin 8, r.getLsbD i = decide (ans.getD i .low = .high))) ∧
  (∀ (b : Bus) (v : Byte) (s : State) (i : Fin 8), s.dir[b.member i] = .output → s.faultMark = none →
    exec (.busrd b v) s = .next { s with faultMark := some (.busReadNotInput b) })

/-- R147: CRITENTER sets CRIT from 0 and changes no pin; from 1 it faults with no event. -/
def Obligations.CritenterSetsCrit : Prop :=
  ∀ s : State, (s.crit = false →
      exec .critenter s = .next { s with crit := true, trace := s.trace ++ [0x700000] }) ∧
    (s.crit = true → s.faultMark = none → exec .critenter s = .next { s with faultMark := some .critNested })

/-- R148: CRITLEAVE clears CRIT from 1 and changes no pin, and host interrupts are enabled again; from 0 it faults with no
event. -/
def Obligations.CritleaveClearsCrit : Prop :=
  ∀ s : State, (s.crit = true → ∃ t,
      exec .critleave s = .next t ∧ t = { s with crit := false, trace := s.trace ++ [0x800000] } ∧
      t.hostInterruptsEnabled = true) ∧
    (s.crit = false → s.faultMark = none → exec .critleave s = .next { s with faultMark := some .critUnbalanced })

/-- Frame of the micro-operations (R140): registers, configuration, queues and the refusal mark never change; directions only
under SETDIR and BUSDIR, latches only under WRLVL and BUSWR, CRIT only under CRITENTER and CRITLEAVE; and every byte of the
echo target's memory stays, but under WRLVL COUT HIGH. -/
def Obligations.MicroOperationFrame : Prop :=
  ∀ (i : Instr) (s t : State), i.isCommand = false → exec i s = .next t →
    (t.cfg = s.cfg ∧ t.cmd = s.cmd ∧ t.result = s.result ∧ t.status = s.status ∧ t.posted = s.posted ∧
      t.refusalMark = s.refusalMark ∧ t.micro = s.micro ∧ t.inbox = s.inbox) ∧
    ((∀ p d, i ≠ .setdir p d) → (∀ b d, i ≠ .busdir b d) → t.dir = s.dir) ∧
    ((∀ p l, i ≠ .wrlvl p l) → (∀ b v, i ≠ .buswr b v) → t.lat = s.lat) ∧
    (i ≠ .critenter → i ≠ .critleave → t.crit = s.crit) ∧
    (i ≠ .wrlvl Pin.cout .high → ∀ a, t.echoByte a = s.echoByte a)

/-- R85 points 1 and 2, and the frame of WRLVL COUT HIGH: the only bytes of the echo target's memory it may change are the two
lanes of the latched address, each only where its strobe is driven LOW, with RAS and CAS driven LOW. -/
def Obligations.ClockEdgeStoresOnlyStrobedLanes : Prop :=
  ∀ (s t : State), s.onEcho → exec (.wrlvl Pin.cout .high) s = .next t →
    ∀ a : Nat,
      (∀ b : Bus, a = (laneAddress s.target.la b).toNat → s.seen (if b = .low then Pin.wlb else Pin.whb) ≠ .driven .low ∨
        s.seen Pin.ras ≠ .driven .low ∨ s.seen Pin.cas ≠ .driven .low) →
      t.echoByte a = s.echoByte a

/-- R150 (which the spec derives from R34, R35 and R141 to R148): what the target sees of every pin after each micro-operation
that runs to its end. -/
def Obligations.TargetSeesEachEvent : Prop :=
  ∀ (s t : State) (q : Pin),
    (∀ p d, exec (.setdir p d) s = .next t → t.seen q = if q = p then
      (match d with | .output => .driven s.lat[p] | .input => .floating | .inputPullup => .pulledUp) else s.seen q) ∧
    (∀ p l, exec (.wrlvl p l) s = .next t → t.seen q =
      if q = p ∧ s.dir[p] = .output then .driven l else s.seen q) ∧
    (∀ p l, exec (.rdlvl p l) s = .next t → t.seen q = s.seen q) ∧
    (∀ b d, exec (.busdir b d) s = .next t → t.seen q = if q ∈ List.ofFn b.member then
      (match d with | .output => .driven s.lat[q] | .input => .floating | .inputPullup => .pulledUp) else s.seen q) ∧
    (∀ b v, exec (.buswr b v) s = .next t → s.busAllOut b = true →
      (∀ i : Fin 8, q = b.member i → t.seen q = .driven (if v.getLsbD i then .high else .low)) ∧
      (q ∉ List.ofFn b.member → t.seen q = s.seen q)) ∧
    (∀ b v, exec (.busrd b v) s = .next t → t.seen q = s.seen q) ∧
    (exec .critenter s = .next t → t.seen q = s.seen q) ∧ (exec .critleave s = .next t → t.seen q = s.seen q)

/-! ## IDLE -/

/-- R171 (which the spec derives from R170, R34 and R35): what IDLE leaves, from every state: control outputs driven to their
inactive levels, input-only pins floating with their latches, buses pulled up with their latches; RESULT and STATUS zero, and
CRIT 0 from CRIT 0. -/
def Obligations.IdleReachesTheSafePinState : Prop :=
  ∀ s : State, ∃ t, exec .idle s = .next t ∧ t.idlePins ∧
    (∀ p : Pin, p ∉ [Pin.ras, Pin.cas, Pin.wlb, Pin.whb, Pin.bclr, Pin.dls, Pin.pi, Pin.cout] → t.lat[p] = s.lat[p]) ∧
    t.result = 0x0000 ∧ t.status = 0x00000000 ∧ (s.crit = false → t.crit = false)

/-- R170 (which itself derives from its pseudocode that IDLE raises no fault and that two IDLEs leave the state of one): the
events of IDLE in their order, 26 + P_NGND of them, and the pins they leave; it never fails or faults, and a
second IDLE leaves the pins as the first did. -/
def Obligations.IdleEmitsItsFixedSequence : Prop :=
  ∀ s : State, s.cfg.nGnd ≤ 16 → ∃ t, exec .idle s = .next t ∧
    t.idlePins ∧ t.trace = s.trace ++ idleTrace s.cfg.nGnd ∧ (idleTrace s.cfg.nGnd).length = 26 + s.cfg.nGnd ∧
    t.posted = s.posted ++ [(0x00000000, 0x0000)] ∧ t.status = 0x00000000 ∧ t.result = 0x0000 ∧
    t.faultMark = s.faultMark ∧ t.refusalMark = s.refusalMark ∧ t.crit = s.crit ∧
    (∀ u, exec .idle t = .next u → u.dir = t.dir ∧ u.lat = t.lat)

/-- Frame of IDLE (spec/10_state.md R47, spec/41_idle.md R170): it writes no direction of a pin that does not exist, and
nothing of CRIT, CMD, the configuration, the queues, the marks or the target, so no byte of the echo target's memory. -/
def Obligations.IdleFrame : Prop :=
  ∀ s t : State, exec .idle s = .next t →
    t.cfg = s.cfg ∧ t.crit = s.crit ∧ t.cmd = s.cmd ∧ t.micro = s.micro ∧ t.inbox = s.inbox ∧
    t.faultMark = s.faultMark ∧ t.refusalMark = s.refusalMark ∧ t.target = s.target ∧
    (∀ p : Pin, pinExists s.cfg.nGnd p = false → t.dir[p] = s.dir[p] ∧ t.lat[p] = s.lat[p]) ∧
    (∀ a, t.echoByte a = s.echoByte a)

/-! ## CHECK -/

/-- spec/95_test_vectors.md L1.2, R189: from the post-IDLE pin state, on the healthy target, CHECK returns Success, emits
P_NGND + P_CLOCK_SAMPLES + 19 events and leaves every pin as it was. -/
def Obligations.CheckPassesOnTheHealthyTarget : Prop :=
  ∀ s : State, s.idlePins → s.onHealthy → s.cfg.latchEnablePin = Pin.pi → s.cfg.nGnd ≤ 16 → 2 ≤ s.cfg.clockSamples →
    ∃ t, exec .check s = .next t ∧ t.status = 0x00000000 ∧ t.result = 0x0000 ∧
      t.posted = s.posted ++ [(0x00000000, 0x0000)] ∧ t.dir = s.dir ∧ t.lat = s.lat ∧ t.faultMark = s.faultMark ∧
      (emitted s t).length = s.cfg.nGnd + s.cfg.clockSamples + 19

/-- R272, R276 (which the spec derives from R180, R142 and R145), R188 and R273: with readable pins and buses and every answer
foretold, CHECK emits the events of R180, each naming the pin or bus read and its answer, up to the first mismatch and no
further; it posts that mismatch, Success where there is none, with RESULT zero. Foretelling the answers, and the order of a bus's
eight answers (member 0 first), are the model's choice (log entries 1, DESIGN CHOICE, and 12, DEDUCED). -/
def Obligations.CheckReportsTheFirstMismatch : Prop :=
  ∀ (s : State) (ans : List Level), s.inputsReadable → s.busesReadable → s.cfg.wellFormed = true → s.foretold ans →
    s.cfg.nGnd + 3 + s.cfg.clockSamples + 52 ≤ ans.length →
    ∃ t, exec .check s = .next t ∧ t.status = encodeOutcome (firstMismatch (checkRows s.cfg ans)) ∧
      t.trace = s.trace ++ checkTrace (releaseEvents s.cfg) (checkRows s.cfg ans) ∧
      t.result = 0x0000 ∧ t.posted = s.posted ++ [(t.status, 0x0000)] ∧ t.faultMark = s.faultMark

/-- R190, R270: with its input pins readable CHECK either posts one of its three Outcomes, or faults on a bus that some member
drives, keeping STATUS, RESULT and what was posted. -/
def Obligations.CheckPostsOrFaultsOnADrivenBus : Prop :=
  ∀ s : State, s.inputsReadable → s.faultMark = none → ∃ t, exec .check s = .next t ∧
    ((t.faultMark = none ∧ t.result = 0x0000 ∧ t.posted = s.posted ++ [(t.status, 0x0000)] ∧
        (t.status = 0 ∨ statusCode t.status = 0x01 ∨ statusCode t.status = 0x02)) ∨
      (∃ (b : Bus) (i : Fin 8), s.dir[b.member i] = .output ∧ t.faultMark = some (.busReadNotInput b) ∧
        t.status = s.status ∧ t.result = s.result ∧ t.posted = s.posted ∧ t.lat = s.lat))

/-- R188 (whose table the spec derives from R180) and R308: what a failed CHECK leaves, by the step that failed: after a pin
mismatch of steps 1 to 3 and a bus mismatch of step 4 every latch as it was; after a bus mismatch of step 5 only BCLR's changed,
LOW while it is asserted (0x201700 emitted and 0x211700 not) and HIGH after its release; after an AUX mismatch DLS, the
latch-enable pin and BCLR HIGH and every other latch as it was. Directions never change. -/
def Obligations.FailedCheckLeavesPinsAsTheyStand : Prop :=
  ∀ (s t : State), exec .check s = .next t →
    t.dir = s.dir ∧
    (∀ p e o, t.posted = s.posted ++ [(encodeOutcome (.pinStateMismatch p e o), 0)] →
      (p.val < 0x1C ∨ 0x20 ≤ p.val → t.lat = s.lat) ∧
      (0x1C ≤ p.val → p.val < 0x20 → ∀ q : Pin,
        t.lat[q] = if q = Pin.dls ∨ q = s.cfg.latchEnablePin ∨ q = Pin.bclr then .high else s.lat[q])) ∧
    (∀ b e o, t.posted = s.posted ++ [(encodeOutcome (.busValueMismatch b e o), 0)] →
      (0x201700 ∉ emitted s t → t.lat = s.lat) ∧
      (0x201700 ∈ emitted s t → ∀ q : Pin,
        t.lat[q] = if q = Pin.bclr then (if 0x211700 ∈ emitted s t then .high else .low) else s.lat[q]))

/-- Frame of CHECK (R180): no direction, no CRIT, CMD, configuration or queue changes; of the latches only BCLR's, DLS's and
the latch-enable pin's; and no byte of the echo target's memory while the latch-enable pin is not COUT. -/
def Obligations.CheckFrame : Prop :=
  ∀ s t : State, exec .check s = .next t →
    t.dir = s.dir ∧ t.crit = s.crit ∧ t.cmd = s.cmd ∧ t.cfg = s.cfg ∧ t.micro = s.micro ∧ t.inbox = s.inbox ∧
    t.refusalMark = s.refusalMark ∧
    (∀ q : Pin, q ≠ Pin.bclr → q ≠ Pin.dls → q ≠ s.cfg.latchEnablePin → t.lat[q] = s.lat[q]) ∧
    (s.cfg.latchEnablePin ≠ Pin.cout → ∀ a, t.echoByte a = s.echoByte a)

/-- spec/70_reset_and_hazards.md R306 point 1 (from R223, which the spec derives from R213): after IDLE, a write (BCW or MWRITE)
with a lane disabled and no IDLE since, CHECK on the healthy target faults on the first bus left OUT in the order of
P_BUS_CHECK_ORDER, with STATUS and RESULT kept from the write. -/
def Obligations.CheckAfterPartialWriteFaults : Prop :=
  ∀ (s : State) (a : BitVec 32) (i : Instr), ((∃ d, i = .bcw a d) ∨ ∃ v, i = .mwrite a v) →
    s.idlePins → s.onHealthy → s.cfg.wellFormed = true →
    2 ≤ s.cfg.clockSamples → s.crit = false → s.faultMark = none → (a.getLsbD 16 && a.getLsbD 17) = false →
    ∃ t u, exec i s = .next t ∧ exec .check t = .next u ∧
      u.faultMark = some (.busReadNotInput (if s.cfg.busCheckOrder = .lowFirst then (if a.getLsbD 16 then .high else .low)
        else (if a.getLsbD 17 then .low else .high))) ∧
      u.status = t.status ∧ u.result = t.result ∧ u.posted = t.posted

/-! ## Bus cycles -/

/-- R224: BCR with CRIT = 0 completes: the events of the read cycle, the composed result in RESULT, Success in STATUS. -/
def Obligations.BcrReturnsTheComposedResult : Prop :=
  ∀ (a : BitVec 32) (s : State), s.crit = false → ∃ t vLow vHigh, exec (.bcr a) s = .next t ∧
    t.trace = s.trace ++ readTrace a vLow vHigh ∧
    (t.result = if a.getLsbD 16 then (if a.getLsbD 17 then vHigh ++ vLow else (0 : Byte) ++ vLow)
      else if a.getLsbD 17 then (0 : Byte) ++ vHigh else 0x0000) ∧
    t.status = 0x00000000 ∧ t.posted = s.posted ++ [(0x00000000, t.result)] ∧ t.crit = false ∧
    t.faultMark = s.faultMark

/-- R226: MREAD with CRIT = 0 completes: the same events, the low byte of the result zero-extended in RESULT. -/
def Obligations.MreadReturnsTheLowByte : Prop :=
  ∀ (a : BitVec 32) (s : State), s.crit = false → ∃ t vLow vHigh, exec (.mread a) s = .next t ∧
    t.trace = s.trace ++ readTrace a vLow vHigh ∧
    (t.result = if a.getLsbD 16 then (0 : Byte) ++ vLow
      else if a.getLsbD 17 then (0 : Byte) ++ vHigh else 0x0000) ∧
    t.status = 0x00000000 ∧ t.posted = s.posted ++ [(0x00000000, t.result)] ∧ t.crit = false ∧
    t.faultMark = s.faultMark

/-- R225, R218: BCW with CRIT = 0 completes: the events of the write cycle, with D[7:0] on an enabled low lane and, on an
enabled high lane, D[15:8] in a 16-bit transfer and D[7:0] otherwise; RESULT zero, Success in STATUS. -/
def Obligations.BcwDrivesTheEnabledLanes : Prop :=
  ∀ (a : BitVec 32) (d : BitVec 16) (s : State), s.crit = false → ∃ t, exec (.bcw a d) s = .next t ∧
    t.trace = s.trace ++ writeTrace a (d.setWidth 8) (if a.getLsbD 16 then (d >>> 8).setWidth 8 else d.setWidth 8) ∧
    t.result = 0x0000 ∧ t.status = 0x00000000 ∧ t.posted = s.posted ++ [(0x00000000, 0x0000)] ∧ t.crit = false ∧
    t.faultMark = s.faultMark

/-- R227: MWRITE with CRIT = 0 completes: the byte on an enabled low lane, and on an enabled high lane the byte where it is
alone and 0x00 in a 16-bit transfer. -/
def Obligations.MwriteDrivesItsByte : Prop :=
  ∀ (a : BitVec 32) (d : Byte) (s : State), s.crit = false → ∃ t, exec (.mwrite a d) s = .next t ∧
    t.trace = s.trace ++ writeTrace a d (if a.getLsbD 16 then 0x00 else d) ∧
    t.result = 0x0000 ∧ t.status = 0x00000000 ∧ t.posted = s.posted ++ [(0x00000000, 0x0000)] ∧ t.crit = false ∧
    t.faultMark = s.faultMark

/-- R228 (which the spec derives from R213): the pins each bus-cycle command leaves: directions and latches of both buses by
lane, the strobes, the clock and CRIT. -/
def Obligations.BusCycleLeavesItsPins : Prop :=
  ∀ (a : BitVec 32) (s : State), s.crit = false →
    (∀ (i : Instr) (t : State), (i = .bcr a ∨ i = .mread a) → exec i s = .next t →
      (∀ (b : Bus) (k : Fin 8), t.dir[b.member k] = .input ∧
        t.lat[b.member k] = if a.getLsbD (b.base + k.val) then .high else .low) ∧
      t.lat[Pin.wlb] = s.lat[Pin.wlb] ∧ t.lat[Pin.whb] = s.lat[Pin.whb] ∧
      t.lat[Pin.ras] = .high ∧ t.lat[Pin.cas] = .high ∧ t.lat[Pin.dls] = .low ∧ t.lat[Pin.cout] = .low ∧
      t.crit = false) ∧
    (∀ (i : Instr) (d : BitVec 16) (t : State), (i = .bcw a d ∨ ∃ v : Byte, i = .mwrite a v ∧ d = v.setWidth 16) →
      exec i s = .next t →
      (∀ (b : Bus) (k : Fin 8),
        let enabled := a.getLsbD (if b = .low then 16 else 17)
        let carried := if b = .low then d.getLsbD k else d.getLsbD (if a.getLsbD 16 then 8 + k.val else k.val)
        t.dir[b.member k] = (if enabled then .inputPullup else .output) ∧
        t.lat[b.member k] = if (if enabled then carried else a.getLsbD (b.base + k.val)) then .high else .low) ∧
      (t.lat[Pin.wlb] = if a.getLsbD 16 then .high else s.lat[Pin.wlb]) ∧
      (t.lat[Pin.whb] = if a.getLsbD 17 then .high else s.lat[Pin.whb]) ∧
      t.lat[Pin.ras] = .high ∧ t.lat[Pin.cas] = .high ∧ t.lat[Pin.dls] = .low ∧ t.lat[Pin.cout] = .low ∧
      t.crit = false)

/-- Frame of the four bus-cycle commands (spec/10_state.md R47), from every state: of the directions only the bus members', of
the latches only theirs and those of RAS, CAS, WLB, WHB, DLS and COUT; CMD, the configuration, the queues and the refusal mark
stay; and of the echo target's memory only the two bytes of the word the command addresses, and those of the word latched
before (spec/20_memory.md R85). -/
def Obligations.BusCycleFrame : Prop :=
  ∀ (i : Instr) (s t : State), phaseOf i = .transacting → exec i s = .next t →
    (∀ q : Pin, 16 ≤ q.val → t.dir[q] = s.dir[q]) ∧
    (∀ q : Pin, 16 ≤ q.val → q ∉ [Pin.ras, Pin.cas, Pin.wlb, Pin.whb, Pin.dls, Pin.cout] → t.lat[q] = s.lat[q]) ∧
    t.cmd = s.cmd ∧ t.cfg = s.cfg ∧ t.micro = s.micro ∧ t.inbox = s.inbox ∧ t.refusalMark = s.refusalMark ∧
    (s.target.mem.wf → ∀ x : Nat,
      (∀ b, x ≠ (laneAddress (addressOf i) b).toNat ∧ x ≠ (laneAddress s.target.la b).toNat) →
      t.echoByte x = s.echoByte x)

/-- R222 (whose invariant the spec derives from R213): for every command of the family, every lane setting and every state
with CRIT = 0, the events hold exactly one CRITENTER and, after it, exactly one CRITLEAVE. -/
def Obligations.CriticalRegionIsBalanced : Prop :=
  ∀ (i : Instr) (s t : State), phaseOf i = .transacting → s.crit = false → exec i s = .next t →
    ∃ before inside after : List EventWord,
      t.trace = s.trace ++ before ++ [0x700000] ++ inside ++ [0x800000] ++ after ∧
      (∀ w ∈ before ++ inside ++ after, w ≠ 0x700000 ∧ w ≠ 0x800000) ∧ t.crit = false

/-- R315 (which the spec derives from R170, R180 and R213): the event count of every command, and the length of the CRIT span
of a bus cycle. -/
def Obligations.EventCountsAreFixed : Prop :=
  (∀ s t : State, s.cfg.nGnd ≤ 16 → exec .idle s = .next t → (emitted s t).length = 26 + s.cfg.nGnd) ∧
  (∀ s t : State, s.cfg.nGnd ≤ 16 → exec .check s = .next t → t.posted = s.posted ++ [(0, 0)] →
    (emitted s t).length = 19 + s.cfg.nGnd + s.cfg.clockSamples) ∧
  (∀ (a : BitVec 32) (i : Instr) (s t : State), (i = .bcr a ∨ i = .mread a) → s.crit = false → exec i s = .next t →
    (emitted s t).length = 18 + (a.getLsbD 16).toNat + (a.getLsbD 17).toNat ∧
    (emitted s t).idxOf 0x800000 - (emitted s t).idxOf 0x700000 + 1 =
      14 + (a.getLsbD 16).toNat + (a.getLsbD 17).toNat) ∧
  (∀ (a : BitVec 32) (i : Instr) (s t : State), ((∃ d, i = .bcw a d) ∨ ∃ v, i = .mwrite a v) → s.crit = false →
    exec i s = .next t →
    (emitted s t).length = 16 + 4 * ((a.getLsbD 16).toNat + (a.getLsbD 17).toNat) ∧
    (emitted s t).idxOf 0x800000 - (emitted s t).idxOf 0x700000 + 1 =
      12 + (a.getLsbD 16).toNat + (a.getLsbD 17).toNat) ∧
  (∀ (i : Instr) (s t : State), (i = .ackint ∨ ∃ n u, i = .waitint n u) → exec i s = .next t → emitted s t = [])

/-- R147, R285: a bus cycle started with CRIT = 1 faults at its CritEnter: STATUS, RESULT and what was posted stay, CRIT stays
1, and the fault mark is set. -/
def Obligations.NestedBusCycleFaults : Prop :=
  ∀ (i : Instr) (s : State), phaseOf i = .transacting → s.crit = true → s.faultMark = none →
    ∃ t, exec i s = .next t ∧ t.faultMark = some .critNested ∧ t.crit = true ∧
      t.status = s.status ∧ t.result = s.result ∧ t.posted = s.posted ∧ 0x700000 ∉ emitted s t

/-- spec/70_reset_and_hazards.md R305 (which the spec derives from R35, R48 and R213): with every control output still an
input, a bus cycle completes with Success, no control output is driven, and no byte of the echo target's memory changes. -/
def Obligations.BusCycleBeforeIdleReachesNoStrobe : Prop :=
  ∀ (i : Instr) (s : State), phaseOf i = .transacting → s.crit = false →
    (∀ p ∈ [Pin.ras, Pin.cas, Pin.wlb, Pin.whb, Pin.dls, Pin.cout], s.dir[p] = .input) →
    ∃ t, exec i s = .next t ∧ t.status = 0x00000000 ∧ t.faultMark = s.faultMark ∧
      (∀ p ∈ [Pin.ras, Pin.cas, Pin.wlb, Pin.whb, Pin.dls, Pin.cout], t.seen p = .floating) ∧
      (∀ a, t.echoByte a = s.echoByte a)

/-- R85, R218, with the frame of memory: on the echo target with no strobe active, BCW and MWRITE store exactly their enabled
lanes at the two bytes of the word their address names, and every other byte reads as before. -/
def Obligations.EchoWriteStoresTheEnabledLanes : Prop :=
  ∀ (a : BitVec 32) (d : BitVec 16) (i : Instr) (s : State),
    (i = .bcw a d ∨ ∃ v : Byte, i = .mwrite a v ∧ d = v.setWidth 16) →
    s.strobesReleased → s.onEcho → s.crit = false →
    ∃ t, exec i s = .next t ∧ t.onEcho ∧ ∀ x : Nat,
      t.echoByte x =
        if x = (laneAddress (a.setWidth 16) .low).toNat ∧ a.getLsbD 16 = true then d.setWidth 8
        else if x = (laneAddress (a.setWidth 16) .high).toNat ∧ a.getLsbD 17 = true then
          (if a.getLsbD 16 then (d >>> 8).setWidth 8 else d.setWidth 8)
        else s.echoByte x

/-- R85 point 3, R220, R226, with the frame of memory: on the echo target with no strobe active, BCR returns the bytes of the
word its address names on its enabled lanes, zero elsewhere, MREAD the low byte of that, and every byte of memory reads as
before. -/
def Obligations.EchoReadReturnsTheWord : Prop :=
  ∀ (a : BitVec 32) (i : Instr) (s : State), (i = .bcr a ∨ i = .mread a) →
    s.strobesReleased → s.onEcho → s.crit = false →
    ∃ t, exec i s = .next t ∧ t.onEcho ∧ (∀ x, t.echoByte x = s.echoByte x) ∧
      (let l := s.echoByte (laneAddress (a.setWidth 16) .low).toNat
       let h := s.echoByte (laneAddress (a.setWidth 16) .high).toNat
       let r : BitVec 16 := if a.getLsbD 16 then (if a.getLsbD 17 then h ++ l else (0 : Byte) ++ l)
         else if a.getLsbD 17 then (0 : Byte) ++ h else 0x0000
       t.result = if i = .bcr a then r else (r.setWidth 8).setWidth 16)

/-- R231 (which the spec derives from R213, R218, R220 and R85): the round-trip law on the echo target: a byte written and
read back by the wrappers on lanes 01, 10 or 11, a word by the raw primitive on lanes 11; with lanes 00 nothing is stored and
the read returns zero. -/
def Obligations.EchoRoundTripLaw : Prop :=
  ∀ (a : BitVec 32) (s : State), s.strobesReleased → s.onEcho → s.crit = false → addressInRange a = true →
    (∀ d : Byte, ∃ t u, exec (.mwrite a d) s = .next t ∧ exec (.mread a) t = .next u ∧
      ((a.getLsbD 16 || a.getLsbD 17) = true → u.result.setWidth 8 = d) ∧
      ((a.getLsbD 16 || a.getLsbD 17) = false → u.result = 0x0000 ∧ ∀ x, u.echoByte x = s.echoByte x)) ∧
    (∀ d : BitVec 16, (a.getLsbD 16 && a.getLsbD 17) = true →
      ∃ t u, exec (.bcw a d) s = .next t ∧ exec (.bcr a) t = .next u ∧ u.result = d)

/-! ## Interrupt operations -/

/-- R260: WAITINT in the reference profile posts NotImplemented with RESULT zero for every selector and timeout, and does
nothing else. -/
def Obligations.WaitintIsNotImplemented : Prop :=
  ∀ (n : Byte) (u : BitVec 32) (s : State), s.cfg.intProfile = .reference →
    exec (.waitint n u) s =
      .next { s with status := 0x00000003, result := 0x0000, posted := s.posted ++ [(0x00000003, 0x0000)] }

/-- R261: ACKINT in the reference profile succeeds with a zero response and does nothing else. -/
def Obligations.AckintSucceedsWithZero : Prop :=
  ∀ s : State, s.cfg.intProfile = .reference →
    exec .ackint s =
      .next { s with status := 0x00000000, result := 0x0000, posted := s.posted ++ [(0x00000000, 0x0000)] }

/-- R262, R287: under any other profile WAITINT and ACKINT are refused, and nothing but the refusal mark changes. -/
def Obligations.OtherProfileRefusesInterrupts : Prop :=
  ∀ (i : Instr) (s : State), s.cfg.intProfile ≠ .reference → (i = .ackint ∨ ∃ n u, i = .waitint n u) →
    s.unmarked → exec i s = .next { s with refusalMark := some .interruptProfile }

/-! ## Whole-machine rules -/

/-- R47 (which the spec derives from the command rules): which command writes which state, column by column, wherever the
command leaves no new mark; what a read writes to RESULT is BcrReturnsTheComposedResult's and MreadReturnsTheLowByte's. -/
def Obligations.CommandsWriteOnlyTheirState : Prop :=
  ∀ (i : Instr) (s t : State), i.isCommand = true → s.crit = false → s.unmarked → exec i s = .next t → t.unmarked →
    (phaseOf i = .checking ∨ phaseOf i = .none → t.dir = s.dir) ∧
    (phaseOf i = .transacting → ∀ q : Pin, 16 ≤ q.val → t.dir[q] = s.dir[q]) ∧
    (phaseOf i = .idle → ∀ q : Pin, pinExists s.cfg.nGnd q = false → t.dir[q] = s.dir[q]) ∧
    (phaseOf i = .none → t.lat = s.lat) ∧
    (phaseOf i = .checking → ∀ q : Pin, q ∉ [Pin.bclr, Pin.dls, s.cfg.latchEnablePin] → t.lat[q] = s.lat[q]) ∧
    (phaseOf i = .idle → ∀ q : Pin, pinClass q ≠ .out → t.lat[q] = s.lat[q]) ∧
    (∀ a, i = .bcr a ∨ i = .mread a → ∀ q : Pin, 16 ≤ q.val →
      q ∉ [Pin.ras, Pin.cas, Pin.dls, Pin.cout] → t.lat[q] = s.lat[q]) ∧
    (∀ a, ((∃ d, i = .bcw a d) ∨ ∃ v, i = .mwrite a v) → ∀ q : Pin, 16 ≤ q.val →
      q ∉ [Pin.wlb, Pin.whb, Pin.ras, Pin.cas, Pin.dls, Pin.cout] → t.lat[q] = s.lat[q]) ∧
    t.crit = false ∧ (phaseOf i ≠ .transacting → 0x700000 ∉ emitted s t ∧ 0x800000 ∉ emitted s t) ∧
    (phaseOf i = .transacting → 0x700000 ∈ emitted s t ∧ 0x800000 ∈ emitted s t) ∧
    ((∀ a, i ≠ .bcr a ∧ i ≠ .mread a) → t.result = 0x0000) ∧
    (phaseOf i = .idle ∨ phaseOf i = .transacting ∨ i = .ackint → t.status = 0x00000000) ∧
    (i = .check → t.status = 0x00000000 ∨ statusCode t.status = 0x01 ∨ statusCode t.status = 0x02) ∧
    ((∃ n u, i = .waitint n u) → t.status = 0x00000003)

/-- R40, R41, R270, R295: every command either posts one pair (STATUS, RESULT), which the two registers then hold, or leaves a
mark and keeps both registers and what was posted. -/
def Obligations.CommandPostsOnceOrMarks : Prop :=
  ∀ (i : Instr) (s : State), i.isCommand = true → s.unmarked → ∃ t, exec i s = .next t ∧
    ((t.unmarked ∧ t.posted = s.posted ++ [(t.status, t.result)]) ∨
      (¬ t.unmarked ∧ t.posted = s.posted ∧ t.status = s.status ∧ t.result = s.result))

/-- R285, R287: no later step clears a mark: whatever runs, a fault mark and a refusal mark stay what they are. -/
def Obligations.MarksAreNeverCleared : Prop :=
  ∀ (i : Instr) (s t : State), exec i s = .next t →
    (∀ f, s.faultMark = some f → t.faultMark = some f) ∧ (∀ r, s.refusalMark = some r → t.refusalMark = some r)

/-- R42, R43: no step changes the configuration, and the trace is append-only: every step keeps it, and what was posted, as a
prefix. -/
def Obligations.StepKeepsConfigurationAndHistory : Prop :=
  ∀ s t : State, step s = .next t → t.cfg = s.cfg ∧ s.trace <+: t.trace ∧ s.posted <+: t.posted

/-- R38 (whose sentence the spec derives from R31 and R212): CRIT is 0 whenever no command is executing. That a step leaves no
sequence in progress is the model's choice: a step runs a command whole, where R12 makes each micro-operation one step of the
sequencer (log entries 7, DESIGN CHOICE, and 10, DEDUCED); with it the harness reaches no micro-operation, as R149 says. -/
def Obligations.StepKeepsTheSequencerBetweenCommands : Prop :=
  ∀ s t : State, s.between → step s = .next t → t.between

/-- R109, R112: the block never emits a reserved event word: every word of the trace stays the word of a micro-operation. -/
def Obligations.StepKeepsEveryTraceWordValid : Prop :=
  ∀ s t : State, s.cfg.wellFormed = true → (∀ w ∈ s.trace, ∃ i, decodeEvent s.cfg.nGnd w = .ok i) →
    step s = .next t → ∀ w ∈ t.trace, ∃ i, decodeEvent t.cfg.nGnd w = .ok i

/-- Every step keeps the echo target's memory inside its 2^16 bytes (R70, R85) and in the canonical form, which is the model's
choice (log entry 5, DESIGN CHOICE): addresses strictly rising, no entry equal to the unlisted byte. -/
def Obligations.StepKeepsMemoryCanonical : Prop :=
  ∀ s t : State, s.target.mem.wf → step s = .next t → t.target.mem.wf

/-- R286 (which the spec derives from R285 and R47): from between commands with the input pins readable, a step keeps them
readable and the only fault it can mark is BusReadNotInput, by CHECK, on a bus that some member drives. -/
def Obligations.OnlyCheckOnADrivenBusFaults : Prop :=
  ∀ s t : State, s.between → s.inputsReadable → s.faultMark = none → step s = .next t →
    t.inputsReadable ∧
    (t.faultMark = none ∨ ∃ (w : CommandWord) (b : Bus) (i : Fin 8), s.inbox.head? = some w ∧
      decodeCommand w = .ok .check ∧ s.dir[b.member i] = .output ∧ t.faultMark = some (.busReadNotInput b))

/-- The invariants the step statements name hold at reset, under every configuration R8 admits; State.reset is the reset of
the reference configuration (log entries 4 and 5), which is one of them. -/
def Obligations.ResetMeetsTheInvariants : Prop :=
  ∀ c : Config, c.wellFormed = true →
    (State.resetWith c).between ∧ (State.resetWith c).inputsReadable ∧ (State.resetWith c).unmarked ∧
    (State.resetWith c).target.mem.wf ∧
    (∀ w ∈ (State.resetWith c).trace, ∃ i, decodeEvent c.nGnd w = .ok i) ∧
    Config.reference.wellFormed = true ∧ State.reset = State.resetWith Config.reference

/-- R286 (derived by the spec), R296, R301, R306, and R307 for IDLE between a read and CHECK, with the harness's words and duties
as log entries 7 (DESIGN CHOICE) and 14 (DEDUCED) have them: a harness that keeps its duties never meets a fault: from reset, under every
admitted configuration and with every target, a dutiful sequence of well-formed commands runs to its end with no fault mark.
-/
def Obligations.DutifulHarnessNeverMeetsAFault : Prop :=
  ∀ (c : Config) (tgt : Target) (is : List Instr), c.wellFormed = true → c.intProfile = .reference →
    (∀ i ∈ is, i.wellFormed c.nGnd = true) → dutiful .fresh is = true →
    ∃ t, Host.Core.run core is.length { State.resetWith c with target := tgt, inbox := is.map commandOf } = .next t ∧
      t.isFinal ∧ t.posted.length = is.length

/-- R12, R42, R140, and log entries 7 and 10 (the model's micro-step): a command is its micro-operations: replaying the events
a command emitted, one step each from the same state, gives the command's end state but for what its end posts and marks. -/
def Obligations.CommandIsItsEventsReplayed : Prop :=
  ∀ (i : Instr) (s t : State), i.isCommand = true → i.wellFormed s.cfg.nGnd = true → s.cfg.wellFormed = true →
    s.unmarked → s.micro = [] → exec i s = .next t →
    Host.Core.run core (emitted s t).length { s with micro := emitted s t } =
      .next { t with status := s.status, result := s.result, posted := s.posted, faultMark := none,
                     refusalMark := none }

/-- R8, R36: P_PINMAP and P_BUS_ORDER have no effect: two states that differ only in them run every instruction alike. -/
def Obligations.PinMapAndMemberOrderHaveNoEffect : Prop :=
  ∀ (i : Instr) (s t : State) (m : Vector Nat 48) (o : MemberOrder), exec i s = .next t →
    exec i { s with cfg := { s.cfg with pinMap := m, memberOrder := o } } =
      .next { t with cfg := { t.cfg with pinMap := m, memberOrder := o } }
end

