-- ==== Sys2Proof/Laws/State.lean ====
section
/-! SUPPORT. Laws/State.lean: what each field holds after each update of Machine/Ops.lean, so that no proof unfolds one. -/

namespace Sys2Proof.Machine

section withDir
variable (s : State) (x : Vector Dir 48)
@[simp] theorem State.withDir_cfg : (s.withDir x).cfg = s.cfg := rfl
@[simp] theorem State.withDir_dir : (s.withDir x).dir = x := rfl
@[simp] theorem State.withDir_lat : (s.withDir x).lat = s.lat := rfl
@[simp] theorem State.withDir_crit : (s.withDir x).crit = s.crit := rfl
@[simp] theorem State.withDir_cmd : (s.withDir x).cmd = s.cmd := rfl
@[simp] theorem State.withDir_result : (s.withDir x).result = s.result := rfl
@[simp] theorem State.withDir_status : (s.withDir x).status = s.status := rfl
@[simp] theorem State.withDir_trace : (s.withDir x).trace = s.trace := rfl
@[simp] theorem State.withDir_posted : (s.withDir x).posted = s.posted := rfl
@[simp] theorem State.withDir_faultMark : (s.withDir x).faultMark = s.faultMark := rfl
@[simp] theorem State.withDir_refusalMark : (s.withDir x).refusalMark = s.refusalMark := rfl
@[simp] theorem State.withDir_micro : (s.withDir x).micro = s.micro := rfl
@[simp] theorem State.withDir_inbox : (s.withDir x).inbox = s.inbox := rfl
@[simp] theorem State.withDir_target : (s.withDir x).target = s.target := rfl
end withDir

section withLat
variable (s : State) (x : Vector Level 48)
@[simp] theorem State.withLat_cfg : (s.withLat x).cfg = s.cfg := rfl
@[simp] theorem State.withLat_dir : (s.withLat x).dir = s.dir := rfl
@[simp] theorem State.withLat_lat : (s.withLat x).lat = x := rfl
@[simp] theorem State.withLat_crit : (s.withLat x).crit = s.crit := rfl
@[simp] theorem State.withLat_cmd : (s.withLat x).cmd = s.cmd := rfl
@[simp] theorem State.withLat_result : (s.withLat x).result = s.result := rfl
@[simp] theorem State.withLat_status : (s.withLat x).status = s.status := rfl
@[simp] theorem State.withLat_trace : (s.withLat x).trace = s.trace := rfl
@[simp] theorem State.withLat_posted : (s.withLat x).posted = s.posted := rfl
@[simp] theorem State.withLat_faultMark : (s.withLat x).faultMark = s.faultMark := rfl
@[simp] theorem State.withLat_refusalMark : (s.withLat x).refusalMark = s.refusalMark := rfl
@[simp] theorem State.withLat_micro : (s.withLat x).micro = s.micro := rfl
@[simp] theorem State.withLat_inbox : (s.withLat x).inbox = s.inbox := rfl
@[simp] theorem State.withLat_target : (s.withLat x).target = s.target := rfl
end withLat

section withCrit
variable (s : State) (x : Bool)
@[simp] theorem State.withCrit_cfg : (s.withCrit x).cfg = s.cfg := rfl
@[simp] theorem State.withCrit_dir : (s.withCrit x).dir = s.dir := rfl
@[simp] theorem State.withCrit_lat : (s.withCrit x).lat = s.lat := rfl
@[simp] theorem State.withCrit_crit : (s.withCrit x).crit = x := rfl
@[simp] theorem State.withCrit_cmd : (s.withCrit x).cmd = s.cmd := rfl
@[simp] theorem State.withCrit_result : (s.withCrit x).result = s.result := rfl
@[simp] theorem State.withCrit_status : (s.withCrit x).status = s.status := rfl
@[simp] theorem State.withCrit_trace : (s.withCrit x).trace = s.trace := rfl
@[simp] theorem State.withCrit_posted : (s.withCrit x).posted = s.posted := rfl
@[simp] theorem State.withCrit_faultMark : (s.withCrit x).faultMark = s.faultMark := rfl
@[simp] theorem State.withCrit_refusalMark : (s.withCrit x).refusalMark = s.refusalMark := rfl
@[simp] theorem State.withCrit_micro : (s.withCrit x).micro = s.micro := rfl
@[simp] theorem State.withCrit_inbox : (s.withCrit x).inbox = s.inbox := rfl
@[simp] theorem State.withCrit_target : (s.withCrit x).target = s.target := rfl
end withCrit

section withCmd
variable (s : State) (x : CommandWord)
@[simp] theorem State.withCmd_cfg : (s.withCmd x).cfg = s.cfg := rfl
@[simp] theorem State.withCmd_dir : (s.withCmd x).dir = s.dir := rfl
@[simp] theorem State.withCmd_lat : (s.withCmd x).lat = s.lat := rfl
@[simp] theorem State.withCmd_crit : (s.withCmd x).crit = s.crit := rfl
@[simp] theorem State.withCmd_cmd : (s.withCmd x).cmd = x := rfl
@[simp] theorem State.withCmd_result : (s.withCmd x).result = s.result := rfl
@[simp] theorem State.withCmd_status : (s.withCmd x).status = s.status := rfl
@[simp] theorem State.withCmd_trace : (s.withCmd x).trace = s.trace := rfl
@[simp] theorem State.withCmd_posted : (s.withCmd x).posted = s.posted := rfl
@[simp] theorem State.withCmd_faultMark : (s.withCmd x).faultMark = s.faultMark := rfl
@[simp] theorem State.withCmd_refusalMark : (s.withCmd x).refusalMark = s.refusalMark := rfl
@[simp] theorem State.withCmd_micro : (s.withCmd x).micro = s.micro := rfl
@[simp] theorem State.withCmd_inbox : (s.withCmd x).inbox = s.inbox := rfl
@[simp] theorem State.withCmd_target : (s.withCmd x).target = s.target := rfl
end withCmd

section withMicro
variable (s : State) (x : List EventWord)
@[simp] theorem State.withMicro_cfg : (s.withMicro x).cfg = s.cfg := rfl
@[simp] theorem State.withMicro_dir : (s.withMicro x).dir = s.dir := rfl
@[simp] theorem State.withMicro_lat : (s.withMicro x).lat = s.lat := rfl
@[simp] theorem State.withMicro_crit : (s.withMicro x).crit = s.crit := rfl
@[simp] theorem State.withMicro_cmd : (s.withMicro x).cmd = s.cmd := rfl
@[simp] theorem State.withMicro_result : (s.withMicro x).result = s.result := rfl
@[simp] theorem State.withMicro_status : (s.withMicro x).status = s.status := rfl
@[simp] theorem State.withMicro_trace : (s.withMicro x).trace = s.trace := rfl
@[simp] theorem State.withMicro_posted : (s.withMicro x).posted = s.posted := rfl
@[simp] theorem State.withMicro_faultMark : (s.withMicro x).faultMark = s.faultMark := rfl
@[simp] theorem State.withMicro_refusalMark : (s.withMicro x).refusalMark = s.refusalMark := rfl
@[simp] theorem State.withMicro_micro : (s.withMicro x).micro = x := rfl
@[simp] theorem State.withMicro_inbox : (s.withMicro x).inbox = s.inbox := rfl
@[simp] theorem State.withMicro_target : (s.withMicro x).target = s.target := rfl
end withMicro

section withInbox
variable (s : State) (x : List CommandWord)
@[simp] theorem State.withInbox_cfg : (s.withInbox x).cfg = s.cfg := rfl
@[simp] theorem State.withInbox_dir : (s.withInbox x).dir = s.dir := rfl
@[simp] theorem State.withInbox_lat : (s.withInbox x).lat = s.lat := rfl
@[simp] theorem State.withInbox_crit : (s.withInbox x).crit = s.crit := rfl
@[simp] theorem State.withInbox_cmd : (s.withInbox x).cmd = s.cmd := rfl
@[simp] theorem State.withInbox_result : (s.withInbox x).result = s.result := rfl
@[simp] theorem State.withInbox_status : (s.withInbox x).status = s.status := rfl
@[simp] theorem State.withInbox_trace : (s.withInbox x).trace = s.trace := rfl
@[simp] theorem State.withInbox_posted : (s.withInbox x).posted = s.posted := rfl
@[simp] theorem State.withInbox_faultMark : (s.withInbox x).faultMark = s.faultMark := rfl
@[simp] theorem State.withInbox_refusalMark : (s.withInbox x).refusalMark = s.refusalMark := rfl
@[simp] theorem State.withInbox_micro : (s.withInbox x).micro = s.micro := rfl
@[simp] theorem State.withInbox_inbox : (s.withInbox x).inbox = x := rfl
@[simp] theorem State.withInbox_target : (s.withInbox x).target = s.target := rfl
end withInbox

section withTarget
variable (s : State) (x : Target)
@[simp] theorem State.withTarget_cfg : (s.withTarget x).cfg = s.cfg := rfl
@[simp] theorem State.withTarget_dir : (s.withTarget x).dir = s.dir := rfl
@[simp] theorem State.withTarget_lat : (s.withTarget x).lat = s.lat := rfl
@[simp] theorem State.withTarget_crit : (s.withTarget x).crit = s.crit := rfl
@[simp] theorem State.withTarget_cmd : (s.withTarget x).cmd = s.cmd := rfl
@[simp] theorem State.withTarget_result : (s.withTarget x).result = s.result := rfl
@[simp] theorem State.withTarget_status : (s.withTarget x).status = s.status := rfl
@[simp] theorem State.withTarget_trace : (s.withTarget x).trace = s.trace := rfl
@[simp] theorem State.withTarget_posted : (s.withTarget x).posted = s.posted := rfl
@[simp] theorem State.withTarget_faultMark : (s.withTarget x).faultMark = s.faultMark := rfl
@[simp] theorem State.withTarget_refusalMark : (s.withTarget x).refusalMark = s.refusalMark := rfl
@[simp] theorem State.withTarget_micro : (s.withTarget x).micro = s.micro := rfl
@[simp] theorem State.withTarget_inbox : (s.withTarget x).inbox = s.inbox := rfl
@[simp] theorem State.withTarget_target : (s.withTarget x).target = x := rfl
end withTarget

section emit
variable (s : State) (x : EventWord)
@[simp] theorem State.emit_cfg : (s.emit x).cfg = s.cfg := rfl
@[simp] theorem State.emit_dir : (s.emit x).dir = s.dir := rfl
@[simp] theorem State.emit_lat : (s.emit x).lat = s.lat := rfl
@[simp] theorem State.emit_crit : (s.emit x).crit = s.crit := rfl
@[simp] theorem State.emit_cmd : (s.emit x).cmd = s.cmd := rfl
@[simp] theorem State.emit_result : (s.emit x).result = s.result := rfl
@[simp] theorem State.emit_status : (s.emit x).status = s.status := rfl
@[simp] theorem State.emit_trace : (s.emit x).trace = s.trace ++ [x] := rfl
@[simp] theorem State.emit_posted : (s.emit x).posted = s.posted := rfl
@[simp] theorem State.emit_faultMark : (s.emit x).faultMark = s.faultMark := rfl
@[simp] theorem State.emit_refusalMark : (s.emit x).refusalMark = s.refusalMark := rfl
@[simp] theorem State.emit_micro : (s.emit x).micro = s.micro := rfl
@[simp] theorem State.emit_inbox : (s.emit x).inbox = s.inbox := rfl
@[simp] theorem State.emit_target : (s.emit x).target = s.target := rfl
end emit

section post
variable (s : State) (x : BitVec 32) (r : BitVec 16)
@[simp] theorem State.post_cfg : (s.post x r).cfg = s.cfg := rfl
@[simp] theorem State.post_dir : (s.post x r).dir = s.dir := rfl
@[simp] theorem State.post_lat : (s.post x r).lat = s.lat := rfl
@[simp] theorem State.post_crit : (s.post x r).crit = s.crit := rfl
@[simp] theorem State.post_cmd : (s.post x r).cmd = s.cmd := rfl
@[simp] theorem State.post_result : (s.post x r).result = r := rfl
@[simp] theorem State.post_status : (s.post x r).status = x := rfl
@[simp] theorem State.post_trace : (s.post x r).trace = s.trace := rfl
@[simp] theorem State.post_posted : (s.post x r).posted = s.posted ++ [(x, r)] := rfl
@[simp] theorem State.post_faultMark : (s.post x r).faultMark = s.faultMark := rfl
@[simp] theorem State.post_refusalMark : (s.post x r).refusalMark = s.refusalMark := rfl
@[simp] theorem State.post_micro : (s.post x r).micro = s.micro := rfl
@[simp] theorem State.post_inbox : (s.post x r).inbox = s.inbox := rfl
@[simp] theorem State.post_target : (s.post x r).target = s.target := rfl
end post

section succeed
variable (s : State) (r : BitVec 16)
@[simp] theorem State.succeed_cfg : (s.succeed r).cfg = s.cfg := rfl
@[simp] theorem State.succeed_dir : (s.succeed r).dir = s.dir := rfl
@[simp] theorem State.succeed_lat : (s.succeed r).lat = s.lat := rfl
@[simp] theorem State.succeed_crit : (s.succeed r).crit = s.crit := rfl
@[simp] theorem State.succeed_cmd : (s.succeed r).cmd = s.cmd := rfl
@[simp] theorem State.succeed_result : (s.succeed r).result = r := rfl
@[simp] theorem State.succeed_status : (s.succeed r).status = encodeOutcome .success := rfl
@[simp] theorem State.succeed_trace : (s.succeed r).trace = s.trace := rfl
@[simp] theorem State.succeed_posted : (s.succeed r).posted = s.posted ++ [(encodeOutcome .success, r)] := rfl
@[simp] theorem State.succeed_faultMark : (s.succeed r).faultMark = s.faultMark := rfl
@[simp] theorem State.succeed_refusalMark : (s.succeed r).refusalMark = s.refusalMark := rfl
@[simp] theorem State.succeed_micro : (s.succeed r).micro = s.micro := rfl
@[simp] theorem State.succeed_inbox : (s.succeed r).inbox = s.inbox := rfl
@[simp] theorem State.succeed_target : (s.succeed r).target = s.target := rfl
end succeed

section fail
variable (s : State) (x : CmdOutcome)
@[simp] theorem State.fail_cfg : (s.fail x).cfg = s.cfg := rfl
@[simp] theorem State.fail_dir : (s.fail x).dir = s.dir := rfl
@[simp] theorem State.fail_lat : (s.fail x).lat = s.lat := rfl
@[simp] theorem State.fail_crit : (s.fail x).crit = s.crit := rfl
@[simp] theorem State.fail_cmd : (s.fail x).cmd = s.cmd := rfl
@[simp] theorem State.fail_result : (s.fail x).result = 0 := rfl
@[simp] theorem State.fail_status : (s.fail x).status = encodeOutcome x := rfl
@[simp] theorem State.fail_trace : (s.fail x).trace = s.trace := rfl
@[simp] theorem State.fail_posted : (s.fail x).posted = s.posted ++ [(encodeOutcome x, 0)] := rfl
@[simp] theorem State.fail_faultMark : (s.fail x).faultMark = s.faultMark := rfl
@[simp] theorem State.fail_refusalMark : (s.fail x).refusalMark = s.refusalMark := rfl
@[simp] theorem State.fail_micro : (s.fail x).micro = s.micro := rfl
@[simp] theorem State.fail_inbox : (s.fail x).inbox = s.inbox := rfl
@[simp] theorem State.fail_target : (s.fail x).target = s.target := rfl
end fail

section raise
variable (s : State) (x : Fault)
@[simp] theorem State.raise_cfg : (s.raise x).cfg = s.cfg := rfl
@[simp] theorem State.raise_dir : (s.raise x).dir = s.dir := rfl
@[simp] theorem State.raise_lat : (s.raise x).lat = s.lat := rfl
@[simp] theorem State.raise_crit : (s.raise x).crit = s.crit := rfl
@[simp] theorem State.raise_cmd : (s.raise x).cmd = s.cmd := rfl
@[simp] theorem State.raise_result : (s.raise x).result = s.result := rfl
@[simp] theorem State.raise_status : (s.raise x).status = s.status := rfl
@[simp] theorem State.raise_trace : (s.raise x).trace = s.trace := rfl
@[simp] theorem State.raise_posted : (s.raise x).posted = s.posted := rfl
@[simp] theorem State.raise_faultMark : (s.raise x).faultMark = s.faultMark.or (some x) := rfl
@[simp] theorem State.raise_refusalMark : (s.raise x).refusalMark = s.refusalMark := rfl
@[simp] theorem State.raise_micro : (s.raise x).micro = s.micro := rfl
@[simp] theorem State.raise_inbox : (s.raise x).inbox = s.inbox := rfl
@[simp] theorem State.raise_target : (s.raise x).target = s.target := rfl
end raise

section refuse
variable (s : State) (x : Refusal)
@[simp] theorem State.refuse_cfg : (s.refuse x).cfg = s.cfg := rfl
@[simp] theorem State.refuse_dir : (s.refuse x).dir = s.dir := rfl
@[simp] theorem State.refuse_lat : (s.refuse x).lat = s.lat := rfl
@[simp] theorem State.refuse_crit : (s.refuse x).crit = s.crit := rfl
@[simp] theorem State.refuse_cmd : (s.refuse x).cmd = s.cmd := rfl
@[simp] theorem State.refuse_result : (s.refuse x).result = s.result := rfl
@[simp] theorem State.refuse_status : (s.refuse x).status = s.status := rfl
@[simp] theorem State.refuse_trace : (s.refuse x).trace = s.trace := rfl
@[simp] theorem State.refuse_posted : (s.refuse x).posted = s.posted := rfl
@[simp] theorem State.refuse_faultMark : (s.refuse x).faultMark = s.faultMark := rfl
@[simp] theorem State.refuse_refusalMark : (s.refuse x).refusalMark = s.refusalMark.or (some x) := rfl
@[simp] theorem State.refuse_micro : (s.refuse x).micro = s.micro := rfl
@[simp] theorem State.refuse_inbox : (s.refuse x).inbox = s.inbox := rfl
@[simp] theorem State.refuse_target : (s.refuse x).target = s.target := rfl
end refuse

end Sys2Proof.Machine
end

