-- ==== Sys2Proof/Laws/Ops.lean ====
section
/-! SUPPORT. Laws/Ops.lean: the pin array, the echo target's memory and the sequencing of micro-operations, said once. -/

namespace Sys2Proof.Machine

/-! ## The pin array -/

/-- Every pin of a `setMembers`, at once. -/
theorem getElem_setMembers {α : Type} (xs : Vector α 48) (b : Bus) (f : Fin 8 → α) (q : Pin) :
    (setMembers xs b f)[q] =
      if h : b.base ≤ q.val ∧ q.val < b.base + 8 then f ⟨q.val - b.base, by omega⟩ else xs[q] := by
  simp [setMembers]

/-- A member of the bus. -/
theorem getElem_setMembers_member {α : Type} (xs : Vector α 48) (b : Bus) (f : Fin 8 → α) (i : Fin 8) :
    (setMembers xs b f)[b.member i] = f i := by
  have h : b.base ≤ (b.member i).val ∧ (b.member i).val < b.base + 8 := by
    simp only [Bus.member]; omega
  rw [getElem_setMembers, dif_pos h]
  congr 1
  ext
  simp [Bus.member]

/-- A member of the other bus. -/
theorem getElem_setMembers_other {α : Type} (xs : Vector α 48) {b c : Bus} (hbc : b ≠ c) (f : Fin 8 → α) (i : Fin 8) :
    (setMembers xs b f)[c.member i] = xs[c.member i] := by
  rw [getElem_setMembers, dif_neg]
  cases b <;> cases c <;> simp_all [Bus.member, Bus.base]

/-- A member of either bus, in the form simp gives an index. -/
@[simp] theorem getElem_setMembers_val {α : Type} (xs : Vector α 48) (b c : Bus) (f : Fin 8 → α) (i : Fin 8) :
    (setMembers xs b f)[(c.member i).val] = if b = c then f i else xs[(c.member i).val] := by
  split
  · next h => subst h; exact getElem_setMembers_member xs b f i
  · next h => exact getElem_setMembers_other xs h f i

/-- A pin that is no bus member. -/
theorem getElem_setMembers_control {α : Type} (xs : Vector α 48) (b : Bus) (f : Fin 8 → α) (q : Pin) (hq : 16 ≤ q.val) :
    (setMembers xs b f)[q] = xs[q] := by
  rw [getElem_setMembers, dif_neg]
  cases b <;> simp only [Bus.base] <;> omega

/-- Setting every member twice is setting it once. -/
@[simp] theorem setMembers_setMembers {α : Type} (xs : Vector α 48) (b : Bus) (f g : Fin 8 → α) :
    setMembers (setMembers xs b f) b g = setMembers xs b g := by
  apply Vector.ext
  intro i hi
  have := getElem_setMembers (setMembers xs b f) b g ⟨i, hi⟩
  have h2 := getElem_setMembers xs b g ⟨i, hi⟩
  have h3 := getElem_setMembers xs b f ⟨i, hi⟩
  simp only [Fin.getElem_fin] at this h2 h3
  rw [this, h2]
  split
  · rfl
  · next h => rw [h3, dif_neg h]

/-- One pin written in the pin array. -/
theorem getElem_setPin {α : Type} (xs : Vector α 48) (p q : Pin) (x : α) :
    (xs.set p x)[q] = if p = q then x else xs[q] := by
  simp [Vector.getElem_set, Fin.ext_iff]

/-- Control pins lie outside both buses. -/
theorem member_lt (b : Bus) (i : Fin 8) : (b.member i).val < 16 := by
  cases b <;> simp [Bus.member, Bus.base] <;> omega

/-! ## The echo target's memory -/

/-- Memory with every address of it at least `lo`. -/
theorem Memory.read_of_lt (m : Memory) (a : Nat) (h : ∀ c ∈ m, a < c.1) : m.read a = Memory.unlisted := by
  induction m with
  | nil => rfl
  | cons c m ih =>
    obtain ⟨k, v⟩ := c
    have hk : a < k := h (k, v) (by simp)
    simp only [Memory.read]
    rw [if_neg (by omega)]
    exact ih fun c hc => h c (by simp [hc])

/-- Reading after putting a byte in front of the rest. -/
theorem Memory.read_put (m : Memory) (a b : Nat) (v : Byte) (h : ∀ c ∈ m, a < c.1) :
    (Memory.put m a v).read b = if a = b then v else m.read b := by
  unfold Memory.put
  split
  · next hv =>
    split
    · next hab => subst hab; rw [Memory.read_of_lt m a h, hv]
    · rfl
  · simp only [Memory.read]

/-- A read after a write: the byte written at its address, every other byte as it was. -/
theorem Memory.read_write (m : Memory) (a b : Nat) (v : Byte) (h : m.wf) :
    (m.write a v).read b = if a = b then v else m.read b := by
  induction m with
  | nil => exact Memory.read_put [] a b v (by simp)
  | cons c m ih =>
    obtain ⟨k, u⟩ := c
    obtain ⟨hp, hc⟩ := h
    have hp' := List.pairwise_cons.mp hp
    have ih' := ih ⟨hp'.2, fun c hm => hc c (by simp [hm])⟩
    simp only [Memory.write]
    split
    · next hak =>
      apply Memory.read_put
      intro c hm
      rcases List.mem_cons.mp hm with rfl | hm
      · exact hak
      · exact lt_trans hak (hp'.1 c hm)
    · split
      · next hak =>
        subst hak
        rw [Memory.read_put _ _ _ _ fun c hm => hp'.1 c hm]
        simp only [Memory.read]
        split <;> simp_all
      · next h1 h2 =>
        simp only [Memory.read, ih']
        split
        · next hkb => subst hkb; rw [if_neg h2]
        · rfl

/-- The entries of a put memory. -/
theorem Memory.mem_put {m : Memory} {a : Nat} {v : Byte} {c : Host.Cell} (h : c ∈ Memory.put m a v) :
    c ∈ m ∨ (c = (a, v) ∧ v ≠ Memory.unlisted) := by
  unfold Memory.put at h
  split at h
  · exact .inl h
  · next hv =>
    rcases List.mem_cons.mp h with rfl | h
    · exact .inr ⟨rfl, hv⟩
    · exact .inl h

/-- The entries of a written memory. -/
theorem Memory.mem_write {m : Memory} {a : Nat} {v : Byte} {c : Host.Cell} (h : c ∈ m.write a v) :
    c ∈ m ∨ (c = (a, v) ∧ v ≠ Memory.unlisted) := by
  induction m with
  | nil => exact Memory.mem_put h
  | cons d m ih =>
    obtain ⟨k, u⟩ := d
    simp only [Memory.write] at h
    split at h
    · exact Memory.mem_put h
    · split at h
      · rcases Memory.mem_put h with h | h
        · exact .inl (by simp [h])
        · exact .inr h
      · rcases List.mem_cons.mp h with rfl | h
        · exact .inl (by simp)
        · rcases ih h with h | h
          · exact .inl (by simp [h])
          · exact .inr h

/-- Putting a lower address in front keeps the canonical form. -/
theorem Memory.put_wf (m : Memory) (a : Nat) (v : Byte) (h : m.wf) (ha : a < 65536) (hlo : ∀ c ∈ m, a < c.1) :
    (Memory.put m a v).wf := by
  unfold Memory.put
  split
  · exact h
  · next hv =>
    refine ⟨List.pairwise_cons.mpr ⟨hlo, h.1⟩, fun c hc => ?_⟩
    rcases List.mem_cons.mp hc with rfl | hc
    · exact ⟨ha, hv⟩
    · exact h.2 c hc

/-- A write keeps the canonical form. -/
theorem Memory.write_wf (m : Memory) (a : Nat) (v : Byte) (h : m.wf) (ha : a < 65536) : (m.write a v).wf := by
  induction m with
  | nil => exact Memory.put_wf [] a v h ha (by simp)
  | cons c m ih =>
    obtain ⟨k, u⟩ := c
    have hp := List.pairwise_cons.mp h.1
    have hm : Memory.wf m := ⟨hp.2, fun c hc => h.2 c (by simp [hc])⟩
    simp only [Memory.write]
    split
    · next hak =>
      refine Memory.put_wf _ _ _ h ha fun c hc => ?_
      rcases List.mem_cons.mp hc with rfl | hc
      · exact hak
      · exact lt_trans hak (hp.1 c hc)
    · split
      · next hak => subst hak; exact Memory.put_wf _ _ _ hm ha hp.1
      · next h1 h2 =>
        refine ⟨List.pairwise_cons.mpr ⟨fun c hc => ?_, (ih hm).1⟩, fun c hc => ?_⟩
        · rcases Memory.mem_write hc with hc | ⟨rfl, _⟩
          · exact hp.1 c hc
          · show k < a
            omega
        · rcases List.mem_cons.mp hc with rfl | hc
          · exact h.2 _ (by simp)
          · exact (ih hm).2 c hc

/-- `MemWrite` keeps the canonical form. -/
theorem Memory.writeBytes_wf (m : Memory) (addr : BitVec 16) (n v : Nat) (h : m.wf) : (m.writeBytes addr n v).wf := by
  induction n generalizing m addr v with
  | zero => exact h
  | succ n ih => exact ih _ _ _ (Memory.write_wf m _ _ h addr.isLt)

/-- `MemWrite` of one byte is a byte write. -/
@[simp] theorem Memory.writeBytes_one (m : Memory) (addr : BitVec 16) (v : Byte) :
    m.writeBytes addr 1 v.toNat = m.write addr.toNat v := by
  simp [Memory.writeBytes]

/-- `MemRead` of one byte is that byte. -/
@[simp] theorem Memory.readBytes_one (m : Memory) (addr : BitVec 16) : m.readBytes addr 1 = (m.read addr.toNat).toNat := by
  simp [Memory.readBytes]

/-! ## Sequences -/

section Flow
variable {α β : Type}

@[simp] theorem Flow.done_andThen (a : α) (s : State) (k : α → State → Flow β) : (Flow.done a s).andThen k = k a s := rfl
@[simp] theorem Flow.failed_andThen (o : CmdOutcome) (s : State) (k : α → State → Flow β) :
    (Flow.failed o s : Flow α).andThen k = .failed o s := rfl
@[simp] theorem Flow.faulted_andThen (f : Fault) (s : State) (k : α → State → Flow β) :
    (Flow.faulted f s : Flow α).andThen k = .faulted f s := rfl

/-- Two parts in sequence are one sequence, however they are grouped. -/
theorem Flow.andThen_assoc {γ : Type} (x : Flow α) (k : α → State → Flow β) (l : β → State → Flow γ) :
    (x.andThen k).andThen l = x.andThen fun a s => (k a s).andThen l := by
  cases x <;> rfl

/-- The state a sequence has come to. -/
def Flow.state : Flow α → State
  | .done _ s => s
  | .failed _ s => s
  | .faulted _ s => s

@[simp] theorem Flow.state_done (a : α) (s : State) : (Flow.done a s).state = s := rfl
@[simp] theorem Flow.state_failed (o : CmdOutcome) (s : State) : (Flow.failed o s : Flow α).state = s := rfl
@[simp] theorem Flow.state_faulted (f : Fault) (s : State) : (Flow.faulted f s : Flow α).state = s := rfl

@[simp] theorem Flow.close_done (a : α) (s : State) (r : α → BitVec 16) : (Flow.done a s).close r = s.succeed (r a) := rfl
@[simp] theorem Flow.close_failed (o : CmdOutcome) (s : State) (r : α → BitVec 16) :
    (Flow.failed o s : Flow α).close r = s.fail o := rfl
@[simp] theorem Flow.close_faulted (f : Fault) (s : State) (r : α → BitVec 16) :
    (Flow.faulted f s : Flow α).close r = s.raise f := rfl
@[simp] theorem Flow.settle_done (a : α) (s : State) : (Flow.done a s).settle = s := rfl
@[simp] theorem Flow.settle_faulted (f : Fault) (s : State) : (Flow.faulted f s : Flow α).settle = s.raise f := rfl

/-- A sequence that ran to its end: its first part did, and the rest went on from there. -/
theorem Flow.andThen_eq_done {x : Flow α} {k : α → State → Flow β} {b : β} {t : State} (h : x.andThen k = .done b t) :
    ∃ a s, x = .done a s ∧ k a s = .done b t := by
  cases x with
  | done a s => exact ⟨a, s, rfl, h⟩
  | failed o s => cases h
  | faulted f s => cases h

/-- What a sequence ends in: `D` where it ran to its end, `O` where a comparison failed, `F` where a fault was raised. -/
def Flow.Meets (x : Flow α) (D : α → State → Prop) (O : CmdOutcome → State → Prop) (F : Fault → State → Prop) : Prop :=
  match x with
  | .done a s => D a s
  | .failed o s => O o s
  | .faulted f s => F f s

/-- Two parts in sequence. -/
theorem Flow.Meets.andThen {x : Flow α} {k : α → State → Flow β} {D : α → State → Prop} {E : β → State → Prop}
    {O : CmdOutcome → State → Prop} {F : Fault → State → Prop} (h : x.Meets D O F)
    (hk : ∀ a s, D a s → (k a s).Meets E O F) : (x.andThen k).Meets E O F := by
  cases x with
  | done a s => exact hk a s h
  | failed o s => exact h
  | faulted f s => exact h

/-- Weaker ends. -/
theorem Flow.Meets.mono {x : Flow α} {D D' : α → State → Prop} {O O' : CmdOutcome → State → Prop}
    {F F' : Fault → State → Prop} (h : x.Meets D O F) (hD : ∀ a s, D a s → D' a s) (hO : ∀ o s, O o s → O' o s)
    (hF : ∀ f s, F f s → F' f s) : x.Meets D' O' F' := by
  cases x with
  | done a s => exact hD a s h
  | failed o s => exact hO o s h
  | faulted f s => exact hF f s h

/-- A list of parts, each keeping `I`. -/
theorem Flow.meets_eachOf {f : α → State → Flow Unit} {xs : List α} {I : State → Prop} {O : CmdOutcome → State → Prop}
    {F : Fault → State → Prop} (hf : ∀ x ∈ xs, ∀ s, I s → (f x s).Meets (fun _ => I) O F) {s : State} (hs : I s) :
    (eachOf f xs s).Meets (fun _ => I) O F := by
  induction xs generalizing s with
  | nil => exact hs
  | cons x xs ih => exact (hf x (by simp) s hs).andThen fun _ t ht => ih (fun y hy => hf y (by simp [hy])) ht

end Flow

end Sys2Proof.Machine
end

