-- ==== Sys2Proof/Laws/Target.lean ====
section
/-! SUPPORT. Laws/Target.lean: what a sample and a clock edge may change of the target. -/

namespace Sys2Proof.Machine

/-! ## A sample changes only the answers to come and the XTL1 count -/

theorem sample_target (s : State) (p : Pin) :
    (s.sample p).2.kind = s.target.kind ∧ (s.sample p).2.forced = s.target.forced ∧
      (s.sample p).2.modeWord = s.target.modeWord ∧ (s.sample p).2.mem = s.target.mem ∧
      (s.sample p).2.la = s.target.la := by
  unfold State.sample
  split
  · split <;> simp
  · unfold sampleHealthy; split <;> simp
  · split
    · simp
    · unfold sampleHealthy; split <;> simp

@[simp] theorem sample_kind (s : State) (p : Pin) : (s.sample p).2.kind = s.target.kind := (sample_target s p).1
@[simp] theorem sample_forced (s : State) (p : Pin) : (s.sample p).2.forced = s.target.forced := (sample_target s p).2.1
@[simp] theorem sample_modeWord (s : State) (p : Pin) : (s.sample p).2.modeWord = s.target.modeWord :=
  (sample_target s p).2.2.1
@[simp] theorem sample_mem (s : State) (p : Pin) : (s.sample p).2.mem = s.target.mem := (sample_target s p).2.2.2.1
@[simp] theorem sample_la (s : State) (p : Pin) : (s.sample p).2.la = s.target.la := (sample_target s p).2.2.2.2

theorem sampleMembers_target (s : State) (b : Bus) (n : Nat) :
    (s.sampleMembers b n).2.kind = s.target.kind ∧ (s.sampleMembers b n).2.forced = s.target.forced ∧
      (s.sampleMembers b n).2.modeWord = s.target.modeWord ∧ (s.sampleMembers b n).2.mem = s.target.mem ∧
      (s.sampleMembers b n).2.la = s.target.la := by
  induction n with
  | zero => simp [State.sampleMembers]
  | succ n ih => simpa [State.sampleMembers] using ih

@[simp] theorem sampleMembers_kind (s : State) (b : Bus) (n : Nat) : (s.sampleMembers b n).2.kind = s.target.kind :=
  (sampleMembers_target s b n).1
@[simp] theorem sampleMembers_forced (s : State) (b : Bus) (n : Nat) :
    (s.sampleMembers b n).2.forced = s.target.forced := (sampleMembers_target s b n).2.1
@[simp] theorem sampleMembers_modeWord (s : State) (b : Bus) (n : Nat) :
    (s.sampleMembers b n).2.modeWord = s.target.modeWord := (sampleMembers_target s b n).2.2.1
@[simp] theorem sampleMembers_mem (s : State) (b : Bus) (n : Nat) : (s.sampleMembers b n).2.mem = s.target.mem :=
  (sampleMembers_target s b n).2.2.2.1
@[simp] theorem sampleMembers_la (s : State) (b : Bus) (n : Nat) : (s.sampleMembers b n).2.la = s.target.la :=
  (sampleMembers_target s b n).2.2.2.2

/-- The answer of an unconstrained target with an answer foretold is that answer. -/
theorem sample_foretold (s : State) (p : Pin) (l : Level) (rest : List Level) (hk : s.target.kind = .unconstrained)
    (ha : s.target.answers = l :: rest) : s.sample p = (l, { s.target with answers := rest }) := by
  simp [State.sample, hk, ha]

/-- Bit `i` of the byte a bus read composes is the level member `i` answered (R145). -/
theorem sampleMembers_getLsbD (s : State) (b : Bus) (n i : Nat) (hi : i < 8) :
    (s.sampleMembers b n).1.getLsbD i =
      (decide (i < n) && levelBit ((s.withTarget (s.sampleMembers b i).2).sample (b.member (Fin.ofNat 8 i))).1) := by
  induction n with
  | zero => simp [State.sampleMembers]
  | succ n ih =>
    simp only [State.sampleMembers, BitVec.getLsbD_or, ih, BitVec.getLsbD_shiftLeft, BitVec.getLsbD_setWidth,
      BitVec.getLsbD_ofBool]
    rcases Nat.lt_trichotomy i n with h | h | h
    · simp [h, show i < n + 1 by omega]
    · subst h
      simp [hi]
    · simp [show ¬ i < n + 1 by omega, show ¬ i < n by omega]
      omega

/-- Eight samples of a bus, each answer foretold: member `i` answers the `i`-th of them (R145). -/
theorem sampleMembers_foretold (s : State) (b : Bus) (hk : s.target.kind = .unconstrained) (ans rest : List Level)
    (n : Nat) (hn : n ≤ ans.length) (ha : s.target.answers = ans ++ rest) :
    (s.sampleMembers b n).2.answers = ans.drop n ++ rest ∧
    ∀ i, i < 8 → (s.sampleMembers b n).1.getLsbD i = (decide (i < n) && decide (ans.getD i .low = .high)) := by
  induction n with
  | zero => simp [State.sampleMembers, ha]
  | succ n ih =>
    obtain ⟨ih1, ih2⟩ := ih (by omega)
    have hl : n < ans.length := by omega
    have hd : ans.drop n = ans[n] :: ans.drop (n+1) := List.drop_eq_getElem_cons hl
    have hs := sample_foretold (s.withTarget (s.sampleMembers b n).2) (b.member (Fin.ofNat 8 n)) ans[n]
      (ans.drop (n+1) ++ rest) (by simpa using hk) (by rw [State.withTarget_target, ih1, hd]; rfl)
    simp only [State.sampleMembers]
    rw [hs]
    refine ⟨rfl, ?_⟩
    intro i hi
    simp only [BitVec.getLsbD_or, ih2 i hi, BitVec.getLsbD_shiftLeft, BitVec.getLsbD_setWidth, BitVec.getLsbD_ofBool]
    have hg : ans.getD n .low = ans[n] := by simp [hl]
    rcases Nat.lt_trichotomy i n with h | h | h
    · simp [h, show i < n + 1 by omega]
    · subst h; rw [hg]; cases h : ans[i] <;> simp [levelBit, hi]
    · have : ¬ i < n + 1 := by omega
      simp [this, show ¬ i < n by omega]
      omega

/-! ## What the echo target takes from a bus -/

/-- A byte composed bit by bit depends on its bits alone. -/
theorem byteOfBits_congr {f g : Fin 8 → Bool} (h : ∀ i, f i = g i) :
    (BitVec.ofBoolListLE ((List.finRange 8).map f) : Byte) = BitVec.ofBoolListLE ((List.finRange 8).map g) := by
  obtain rfl : f = g := funext h
  rfl

/-- The byte composed of a byte's bits is that byte. -/
theorem byteOfBits_getLsbD (v : Byte) :
    (BitVec.ofBoolListLE ((List.finRange 8).map fun i : Fin 8 => v.getLsbD i) : Byte) = v := by
  apply BitVec.eq_of_getLsbD_eq
  intro i hi
  rw [show ∀ bs : List Bool, (BitVec.ofBoolListLE bs).getLsbD i = bs.getD i false from
    fun bs => BitVec.getLsbD_ofBoolListLE]
  have h8 : i < 8 := by simpa using hi
  simp [h8]
  exact (BitVec.getLsbD_eq_getElem h8).symm

/-- Of a bus that is OUT, E takes the driven value of R37. -/
theorem busValue_of_allOut (s : State) (b : Bus) (h : s.busAllOut b = true) : s.busValue b = s.drivenValue b := by
  have hd : ∀ i, s.dir[b.member i] = .output := by simpa [State.busAllOut] using h
  have hm : ∀ i, levelBit (s.memberLevel b i) = decide (s.lat[b.member i] = .high) := fun i => by
    rw [State.memberLevel, State.drivenLevel, if_pos (hd i), Option.getD_some]
    cases s.lat[b.member i] <;> rfl
  exact byteOfBits_congr hm

/-! ## The echo target on a clock edge -/

/-- The data lines of a cycle answer what the state says of the pins and the target, and of nothing else. -/
theorem drives_congr {s t : State} (hd : s.dir = t.dir) (hl : s.lat = t.lat) (p : Pin) (l : Level) :
    s.drives p l = t.drives p l := by
  simp [State.drives, State.drivenLevel, hd, hl]

/-- Only the echo target reacts to an event. -/
theorem react_of_kind (s : State) (p : Pin) (l : Level) (h : s.target.kind ≠ .echo) : s.react p l = s.target := by
  simp [State.react, h]

/-- Only the clock output is reacted to. -/
theorem react_of_ne (s : State) (p : Pin) (l : Level) (h : p ≠ Pin.cout) : s.react p l = s.target := by
  simp [State.react, h]

/-- Only its HIGH level is reacted to. -/
@[simp] theorem react_low (s : State) (p : Pin) : s.react p .low = s.target := by
  simp [State.react]

/-- A clock edge changes only the memory and the latched address. -/
theorem echoClock_target (s : State) :
    (echoClock s).kind = s.target.kind ∧ (echoClock s).answers = s.target.answers ∧
      (echoClock s).forced = s.target.forced ∧ (echoClock s).modeWord = s.target.modeWord ∧
      (echoClock s).xtlSamples = s.target.xtlSamples := by
  unfold echoClock
  split
  · split
    · simp
    · split <;> simp
  · simp

theorem react_target (s : State) (p : Pin) (l : Level) :
    (s.react p l).kind = s.target.kind ∧ (s.react p l).answers = s.target.answers ∧
      (s.react p l).forced = s.target.forced ∧ (s.react p l).modeWord = s.target.modeWord ∧
      (s.react p l).xtlSamples = s.target.xtlSamples := by
  unfold State.react
  split
  · exact echoClock_target s
  · simp

/-- A stored lane keeps the memory's canonical form. -/
theorem echoStore_wf (s : State) (strobe : Pin) (b : Bus) (m : Memory) (h : m.wf) : (echoStore s strobe b m).wf := by
  unfold echoStore
  split
  · exact Memory.writeBytes_wf m _ _ _ h
  · exact h

/-- A clock edge keeps the memory's canonical form. -/
theorem echoClock_wf (s : State) (h : s.target.mem.wf) : (echoClock s).mem.wf := by
  unfold echoClock
  split
  · split
    · exact h
    · split
      · exact echoStore_wf _ _ _ _ (echoStore_wf _ _ _ _ h)
      · exact h
  · exact h

/-- The reaction to an event keeps the memory's canonical form. -/
theorem react_wf (s : State) (p : Pin) (l : Level) (h : s.target.mem.wf) : (s.react p l).mem.wf := by
  unfold State.react
  split
  · exact echoClock_wf s h
  · exact h

end Sys2Proof.Machine
end

