-- ==== Sys2Proof/Laws/Gpio.lean ====
section
/-! SUPPORT. Laws/Gpio.lean: what each micro-operation does to each field, and when it runs to its end. -/

namespace Sys2Proof.Machine

/-! ## Field by field -/

section setDir
variable (p : Pin) (d : Dir) (s : State)
@[simp] theorem setDir_cfg : (setDir p d s).cfg = s.cfg := by simp [setDir]
@[simp] theorem setDir_dir : (setDir p d s).dir = s.dir.set p d := by simp [setDir]
@[simp] theorem setDir_lat : (setDir p d s).lat = s.lat := by simp [setDir]
@[simp] theorem setDir_crit : (setDir p d s).crit = s.crit := by simp [setDir]
@[simp] theorem setDir_cmd : (setDir p d s).cmd = s.cmd := by simp [setDir]
@[simp] theorem setDir_result : (setDir p d s).result = s.result := by simp [setDir]
@[simp] theorem setDir_status : (setDir p d s).status = s.status := by simp [setDir]
@[simp] theorem setDir_trace : (setDir p d s).trace = s.trace ++ [eventWord 1 (dirCode d) (pinId p) 0] := by simp [setDir]
@[simp] theorem setDir_posted : (setDir p d s).posted = s.posted := by simp [setDir]
@[simp] theorem setDir_faultMark : (setDir p d s).faultMark = s.faultMark := by simp [setDir]
@[simp] theorem setDir_refusalMark : (setDir p d s).refusalMark = s.refusalMark := by simp [setDir]
@[simp] theorem setDir_micro : (setDir p d s).micro = s.micro := by simp [setDir]
@[simp] theorem setDir_inbox : (setDir p d s).inbox = s.inbox := by simp [setDir]
@[simp] theorem setDir_target : (setDir p d s).target = s.target := by simp [setDir]
end setDir

section wrLvl
variable (p : Pin) (l : Level) (s : State)
@[simp] theorem wrLvl_cfg : (wrLvl p l s).cfg = s.cfg := by simp [wrLvl]
@[simp] theorem wrLvl_dir : (wrLvl p l s).dir = s.dir := by simp [wrLvl]
@[simp] theorem wrLvl_lat : (wrLvl p l s).lat = s.lat.set p l := by simp [wrLvl]
@[simp] theorem wrLvl_crit : (wrLvl p l s).crit = s.crit := by simp [wrLvl]
@[simp] theorem wrLvl_cmd : (wrLvl p l s).cmd = s.cmd := by simp [wrLvl]
@[simp] theorem wrLvl_result : (wrLvl p l s).result = s.result := by simp [wrLvl]
@[simp] theorem wrLvl_status : (wrLvl p l s).status = s.status := by simp [wrLvl]
@[simp] theorem wrLvl_trace : (wrLvl p l s).trace = s.trace ++ [eventWord 2 (levelCode l) (pinId p) 0] := by simp [wrLvl]
@[simp] theorem wrLvl_posted : (wrLvl p l s).posted = s.posted := by simp [wrLvl]
@[simp] theorem wrLvl_faultMark : (wrLvl p l s).faultMark = s.faultMark := by simp [wrLvl]
@[simp] theorem wrLvl_refusalMark : (wrLvl p l s).refusalMark = s.refusalMark := by simp [wrLvl]
@[simp] theorem wrLvl_micro : (wrLvl p l s).micro = s.micro := by simp [wrLvl]
@[simp] theorem wrLvl_inbox : (wrLvl p l s).inbox = s.inbox := by simp [wrLvl]
end wrLvl

section samplePin
variable (p : Pin) (s : State)
@[simp] theorem samplePin_cfg : (samplePin p s).cfg = s.cfg := by simp [samplePin]
@[simp] theorem samplePin_dir : (samplePin p s).dir = s.dir := by simp [samplePin]
@[simp] theorem samplePin_lat : (samplePin p s).lat = s.lat := by simp [samplePin]
@[simp] theorem samplePin_crit : (samplePin p s).crit = s.crit := by simp [samplePin]
@[simp] theorem samplePin_cmd : (samplePin p s).cmd = s.cmd := by simp [samplePin]
@[simp] theorem samplePin_result : (samplePin p s).result = s.result := by simp [samplePin]
@[simp] theorem samplePin_status : (samplePin p s).status = s.status := by simp [samplePin]
@[simp] theorem samplePin_trace : (samplePin p s).trace = s.trace ++ [eventWord 3 (levelCode (s.sample p).1) (pinId p) 0] := by simp [samplePin]
@[simp] theorem samplePin_posted : (samplePin p s).posted = s.posted := by simp [samplePin]
@[simp] theorem samplePin_faultMark : (samplePin p s).faultMark = s.faultMark := by simp [samplePin]
@[simp] theorem samplePin_refusalMark : (samplePin p s).refusalMark = s.refusalMark := by simp [samplePin]
@[simp] theorem samplePin_micro : (samplePin p s).micro = s.micro := by simp [samplePin]
@[simp] theorem samplePin_inbox : (samplePin p s).inbox = s.inbox := by simp [samplePin]
@[simp] theorem samplePin_target : (samplePin p s).target = (s.sample p).2 := by simp [samplePin]
end samplePin

section busDir
variable (b : Bus) (d : Dir) (s : State)
@[simp] theorem busDir_cfg : (busDir b d s).cfg = s.cfg := by simp [busDir]
@[simp] theorem busDir_dir : (busDir b d s).dir = setMembers s.dir b fun _ => d := by simp [busDir]
@[simp] theorem busDir_lat : (busDir b d s).lat = s.lat := by simp [busDir]
@[simp] theorem busDir_crit : (busDir b d s).crit = s.crit := by simp [busDir]
@[simp] theorem busDir_cmd : (busDir b d s).cmd = s.cmd := by simp [busDir]
@[simp] theorem busDir_result : (busDir b d s).result = s.result := by simp [busDir]
@[simp] theorem busDir_status : (busDir b d s).status = s.status := by simp [busDir]
@[simp] theorem busDir_trace : (busDir b d s).trace = s.trace ++ [eventWord 4 (dirCode d) (busId b) 0] := by simp [busDir]
@[simp] theorem busDir_posted : (busDir b d s).posted = s.posted := by simp [busDir]
@[simp] theorem busDir_faultMark : (busDir b d s).faultMark = s.faultMark := by simp [busDir]
@[simp] theorem busDir_refusalMark : (busDir b d s).refusalMark = s.refusalMark := by simp [busDir]
@[simp] theorem busDir_micro : (busDir b d s).micro = s.micro := by simp [busDir]
@[simp] theorem busDir_inbox : (busDir b d s).inbox = s.inbox := by simp [busDir]
@[simp] theorem busDir_target : (busDir b d s).target = s.target := by simp [busDir]
end busDir

section driveBus
variable (b : Bus) (v : Byte) (s : State)
@[simp] theorem driveBus_cfg : (driveBus b v s).cfg = s.cfg := by simp [driveBus]
@[simp] theorem driveBus_dir : (driveBus b v s).dir = s.dir := by simp [driveBus]
@[simp] theorem driveBus_lat : (driveBus b v s).lat = setMembers s.lat b fun i => bitLevel (v.getLsbD i) := by simp [driveBus]
@[simp] theorem driveBus_crit : (driveBus b v s).crit = s.crit := by simp [driveBus]
@[simp] theorem driveBus_cmd : (driveBus b v s).cmd = s.cmd := by simp [driveBus]
@[simp] theorem driveBus_result : (driveBus b v s).result = s.result := by simp [driveBus]
@[simp] theorem driveBus_status : (driveBus b v s).status = s.status := by simp [driveBus]
@[simp] theorem driveBus_trace : (driveBus b v s).trace = s.trace ++ [eventWord 5 0 (busId b) v] := by simp [driveBus]
@[simp] theorem driveBus_posted : (driveBus b v s).posted = s.posted := by simp [driveBus]
@[simp] theorem driveBus_faultMark : (driveBus b v s).faultMark = s.faultMark := by simp [driveBus]
@[simp] theorem driveBus_refusalMark : (driveBus b v s).refusalMark = s.refusalMark := by simp [driveBus]
@[simp] theorem driveBus_micro : (driveBus b v s).micro = s.micro := by simp [driveBus]
@[simp] theorem driveBus_inbox : (driveBus b v s).inbox = s.inbox := by simp [driveBus]
@[simp] theorem driveBus_target : (driveBus b v s).target = s.target := by simp [driveBus]
end driveBus

section sampleBus
variable (b : Bus) (s : State)
@[simp] theorem sampleBus_cfg : (sampleBus b s).cfg = s.cfg := by simp [sampleBus]
@[simp] theorem sampleBus_dir : (sampleBus b s).dir = s.dir := by simp [sampleBus]
@[simp] theorem sampleBus_lat : (sampleBus b s).lat = s.lat := by simp [sampleBus]
@[simp] theorem sampleBus_crit : (sampleBus b s).crit = s.crit := by simp [sampleBus]
@[simp] theorem sampleBus_cmd : (sampleBus b s).cmd = s.cmd := by simp [sampleBus]
@[simp] theorem sampleBus_result : (sampleBus b s).result = s.result := by simp [sampleBus]
@[simp] theorem sampleBus_status : (sampleBus b s).status = s.status := by simp [sampleBus]
@[simp] theorem sampleBus_trace : (sampleBus b s).trace = s.trace ++ [eventWord 6 0 (busId b) (s.busSample b)] := by simp [sampleBus]
@[simp] theorem sampleBus_posted : (sampleBus b s).posted = s.posted := by simp [sampleBus]
@[simp] theorem sampleBus_faultMark : (sampleBus b s).faultMark = s.faultMark := by simp [sampleBus]
@[simp] theorem sampleBus_refusalMark : (sampleBus b s).refusalMark = s.refusalMark := by simp [sampleBus]
@[simp] theorem sampleBus_micro : (sampleBus b s).micro = s.micro := by simp [sampleBus]
@[simp] theorem sampleBus_inbox : (sampleBus b s).inbox = s.inbox := by simp [sampleBus]
@[simp] theorem sampleBus_target : (sampleBus b s).target = (s.sampleMembers b 8).2 := by simp [sampleBus]
end sampleBus

section enterRegion
variable (s : State)
@[simp] theorem enterRegion_cfg : (enterRegion s).cfg = s.cfg := by simp [enterRegion]
@[simp] theorem enterRegion_dir : (enterRegion s).dir = s.dir := by simp [enterRegion]
@[simp] theorem enterRegion_lat : (enterRegion s).lat = s.lat := by simp [enterRegion]
@[simp] theorem enterRegion_crit : (enterRegion s).crit = true := by simp [enterRegion]
@[simp] theorem enterRegion_cmd : (enterRegion s).cmd = s.cmd := by simp [enterRegion]
@[simp] theorem enterRegion_result : (enterRegion s).result = s.result := by simp [enterRegion]
@[simp] theorem enterRegion_status : (enterRegion s).status = s.status := by simp [enterRegion]
@[simp] theorem enterRegion_trace : (enterRegion s).trace = s.trace ++ [eventWord 7 0 0 0] := by simp [enterRegion]
@[simp] theorem enterRegion_posted : (enterRegion s).posted = s.posted := by simp [enterRegion]
@[simp] theorem enterRegion_faultMark : (enterRegion s).faultMark = s.faultMark := by simp [enterRegion]
@[simp] theorem enterRegion_refusalMark : (enterRegion s).refusalMark = s.refusalMark := by simp [enterRegion]
@[simp] theorem enterRegion_micro : (enterRegion s).micro = s.micro := by simp [enterRegion]
@[simp] theorem enterRegion_inbox : (enterRegion s).inbox = s.inbox := by simp [enterRegion]
@[simp] theorem enterRegion_target : (enterRegion s).target = s.target := by simp [enterRegion]
end enterRegion

section leaveRegion
variable (s : State)
@[simp] theorem leaveRegion_cfg : (leaveRegion s).cfg = s.cfg := by simp [leaveRegion]
@[simp] theorem leaveRegion_dir : (leaveRegion s).dir = s.dir := by simp [leaveRegion]
@[simp] theorem leaveRegion_lat : (leaveRegion s).lat = s.lat := by simp [leaveRegion]
@[simp] theorem leaveRegion_crit : (leaveRegion s).crit = false := by simp [leaveRegion]
@[simp] theorem leaveRegion_cmd : (leaveRegion s).cmd = s.cmd := by simp [leaveRegion]
@[simp] theorem leaveRegion_result : (leaveRegion s).result = s.result := by simp [leaveRegion]
@[simp] theorem leaveRegion_status : (leaveRegion s).status = s.status := by simp [leaveRegion]
@[simp] theorem leaveRegion_trace : (leaveRegion s).trace = s.trace ++ [eventWord 8 0 0 0] := by simp [leaveRegion]
@[simp] theorem leaveRegion_posted : (leaveRegion s).posted = s.posted := by simp [leaveRegion]
@[simp] theorem leaveRegion_faultMark : (leaveRegion s).faultMark = s.faultMark := by simp [leaveRegion]
@[simp] theorem leaveRegion_refusalMark : (leaveRegion s).refusalMark = s.refusalMark := by simp [leaveRegion]
@[simp] theorem leaveRegion_micro : (leaveRegion s).micro = s.micro := by simp [leaveRegion]
@[simp] theorem leaveRegion_inbox : (leaveRegion s).inbox = s.inbox := by simp [leaveRegion]
@[simp] theorem leaveRegion_target : (leaveRegion s).target = s.target := by simp [leaveRegion]
end leaveRegion

/-! ## The driven value of a bus (R37) -/

/-- It depends on the latches alone. -/
theorem drivenValue_congr {s t : State} (h : s.lat = t.lat) (b : Bus) : s.drivenValue b = t.drivenValue b := by
  exact byteOfBits_congr fun i => by rw [h]

/-- It is the byte whose bits the members' latches hold. -/
theorem drivenValue_of_bits {s : State} {b : Bus} {v : Byte}
    (h : ∀ i : Fin 8, decide (s.lat[b.member i] = .high) = v.getLsbD i) : s.drivenValue b = v :=
  (byteOfBits_congr h).trans (byteOfBits_getLsbD v)

/-- Driving a byte onto a bus makes it the bus's driven value. -/
@[simp] theorem driveBus_drivenValue (b : Bus) (v : Byte) (s : State) : (driveBus b v s).drivenValue b = v :=
  drivenValue_of_bits fun i => by
    rw [driveBus_lat, getElem_setMembers_member]
    cases v.getLsbD i <;> rfl

/-! ## The target after a level is written -/

/-- The state the target sees when it reacts to WrLvl(p, l). -/
theorem wrLvl_target (p : Pin) (l : Level) (s : State) :
    (wrLvl p l s).target =
      ((s.withLat (s.lat.set p l)).emit (eventWord 2 (levelCode l) (pinId p) 0)).react p l := rfl

@[simp] theorem wrLvl_target_low (p : Pin) (s : State) : (wrLvl p .low s).target = s.target := by
  simp [wrLvl_target]

theorem wrLvl_target_of_ne (p : Pin) (l : Level) (s : State) (h : p ≠ Pin.cout) : (wrLvl p l s).target = s.target := by
  rw [wrLvl_target, react_of_ne _ _ _ h]; rfl

theorem wrLvl_target_of_kind (p : Pin) (l : Level) (s : State) (h : s.target.kind ≠ .echo) :
    (wrLvl p l s).target = s.target := by
  rw [wrLvl_target, react_of_kind _ _ _ (by simpa using h)]; rfl

@[simp] theorem wrLvl_target_kind (p : Pin) (l : Level) (s : State) : (wrLvl p l s).target.kind = s.target.kind := by
  rw [wrLvl_target, (react_target _ _ _).1]; rfl

@[simp] theorem wrLvl_target_answers (p : Pin) (l : Level) (s : State) :
    (wrLvl p l s).target.answers = s.target.answers := by
  rw [wrLvl_target, (react_target _ _ _).2.1]; rfl

@[simp] theorem wrLvl_target_forced (p : Pin) (l : Level) (s : State) :
    (wrLvl p l s).target.forced = s.target.forced := by
  rw [wrLvl_target, (react_target _ _ _).2.2.1]; rfl

@[simp] theorem wrLvl_target_modeWord (p : Pin) (l : Level) (s : State) :
    (wrLvl p l s).target.modeWord = s.target.modeWord := by
  rw [wrLvl_target, (react_target _ _ _).2.2.2.1]; rfl

@[simp] theorem wrLvl_target_xtlSamples (p : Pin) (l : Level) (s : State) :
    (wrLvl p l s).target.xtlSamples = s.target.xtlSamples := by
  rw [wrLvl_target, (react_target _ _ _).2.2.2.2]; rfl

/-! ## When a micro-operation runs to its end, and when it faults -/

theorem busAllOut_iff (s : State) (b : Bus) : s.busAllOut b = true ↔ ∀ i, s.dir[b.member i] = .output := by
  simp [State.busAllOut]

theorem busAllIn_iff (s : State) (b : Bus) : s.busAllIn b = true ↔ ∀ i, s.dir[b.member i] ≠ .output := by
  simp [State.busAllIn]

theorem rdLvl_done {p : Pin} {s : State} (h : s.dir[p] ≠ .output) : rdLvl p s = .done (s.sample p).1 (samplePin p s) :=
  if_neg h

theorem rdLvl_fault {p : Pin} {s : State} (h : s.dir[p] = .output) : rdLvl p s = .faulted (.readOfOutputPin p) s :=
  if_pos h

theorem busWr_done {b : Bus} (v : Byte) {s : State} (h : ∀ i, s.dir[b.member i] = .output) :
    busWr b v s = .done () (driveBus b v s) := if_pos ((busAllOut_iff s b).mpr h)

theorem busWr_fault {b : Bus} (v : Byte) {s : State} (h : ∃ i, s.dir[b.member i] ≠ .output) :
    busWr b v s = .faulted (.busWriteNotOutput b) s := by
  refine if_neg fun hc => ?_
  obtain ⟨i, hi⟩ := h
  exact hi ((busAllOut_iff s b).mp hc i)

theorem busRd_done {b : Bus} {s : State} (h : ∀ i, s.dir[b.member i] ≠ .output) :
    busRd b s = .done (s.busSample b) (sampleBus b s) := if_pos ((busAllIn_iff s b).mpr h)

theorem busRd_fault {b : Bus} {s : State} (h : ∃ i, s.dir[b.member i] = .output) :
    busRd b s = .faulted (.busReadNotInput b) s := by
  refine if_neg fun hc => ?_
  obtain ⟨i, hi⟩ := h
  exact (busAllIn_iff s b).mp hc i hi

theorem critEnter_done {s : State} (h : s.crit = false) : critEnter s = .done () (enterRegion s) := by
  simp [critEnter, h]

theorem critEnter_fault {s : State} (h : s.crit = true) : critEnter s = .faulted .critNested s := by
  simp [critEnter, h]

theorem critLeave_done {s : State} (h : s.crit = true) : critLeave s = .done () (leaveRegion s) := by
  simp [critLeave, h]

theorem critLeave_fault {s : State} (h : s.crit = false) : critLeave s = .faulted .critUnbalanced s := by
  simp [critLeave, h]

end Sys2Proof.Machine
end

