-- ==== Sys2Proof/Laws/BusCycle.lean ====
section
/-! SUPPORT. Laws/BusCycle.lean: a bus cycle started with CRIT = 0 always runs to its end, in closed form (R229). -/

namespace Sys2Proof.Machine

@[simp] theorem onlyIf_true (f : State → State) (s : State) : onlyIf true f s = f s := rfl
@[simp] theorem onlyIf_false (f : State → State) (s : State) : onlyIf false f s = s := rfl

/-- What a step on an enabled lane leaves alone. -/
theorem onlyIf_keeps {β : Type} (g : State → β) (c : Bool) (f : State → State) (s : State) (h : g (f s) = g s) :
    g (onlyIf c f s) = g s := by
  cases c
  · rfl
  · exact h

/-! ## Step 1 -/

/-- Both buses OUT and carrying the address (R214). -/
def addressed (a : BitVec 32) (s : State) : State :=
  driveBus .high (addrHigh a) (driveBus .low (addrLow a) (busDir .high .output (busDir .low .output s)))

/-- Step 1 cannot fault: the buses were just set OUT. -/
theorem addressPhase_done (a : BitVec 32) (s : State) : addressPhase a s = .done () (addressed a s) := by
  unfold addressPhase
  rw [busWr_done _ (by intro i; simp), Flow.done_andThen, busWr_done _ (by intro i; simp)]
  rfl

/-- Both buses are OUT after step 1. -/
theorem addressed_dir (a : BitVec 32) (s : State) (b : Bus) (i : Fin 8) :
    (addressed a s).dir[b.member i] = .output := by
  cases b <;> simp [addressed]

/-! ## Steps 6 and 9 -/

/-- Step 6 of a write (R218). -/
def dataDriven (a : BitVec 32) (d : BitVec 16) (s : State) : State :=
  onlyIf (laneHi a) (driveBus .high (highLaneData (laneLo a) d)) (onlyIf (laneLo a) (driveBus .low (dataLow d)) s)

theorem driveData_done (a : BitVec 32) (d : BitVec 16) (s : State) (h : ∀ (b : Bus) i, s.dir[b.member i] = .output) :
    driveData a d s = .done () (dataDriven a d s) := by
  have hl : writeLane (laneLo a) .low (dataLow d) s = .done () (onlyIf (laneLo a) (driveBus .low (dataLow d)) s) := by
    unfold writeLane
    cases laneLo a
    · rfl
    · exact busWr_done _ (h .low)
  unfold driveData
  rw [hl, Flow.done_andThen]
  unfold writeLane
  have hd : (onlyIf (laneLo a) (driveBus .low (dataLow d)) s).dir = s.dir :=
    onlyIf_keeps State.dir _ _ _ (by simp)
  unfold dataDriven
  cases laneHi a
  · rfl
  · exact busWr_done _ (by intro i; rw [hd]; exact h .high i)

/-- The byte an enabled lane samples. -/
def laneByte (enabled : Bool) (b : Bus) (s : State) : Option Byte := if enabled then some (s.busSample b) else none

theorem readLane_done (e : Bool) (b : Bus) (s : State) (h : ∀ i, s.dir[b.member i] ≠ .output) :
    readLane e b s = .done (laneByte e b s) (onlyIf e (sampleBus b) s) := by
  unfold readLane laneByte
  cases e
  · rfl
  · simp [busRd_done h]

/-- Step 9 of a read: the samples (R220). -/
def dataSampled (a : BitVec 32) (s : State) : State :=
  onlyIf (laneHi a) (sampleBus .high) (onlyIf (laneLo a) (sampleBus .low) s)

/-- Step 9 of a read: the result (R220). -/
def sampledResult (a : BitVec 32) (s : State) : BitVec 16 :=
  composeRead (laneByte (laneLo a) .low s) (laneByte (laneHi a) .high (onlyIf (laneLo a) (sampleBus .low) s))

theorem sampleData_done (a : BitVec 32) (s : State) (h : ∀ (b : Bus) i, s.dir[b.member i] ≠ .output) :
    sampleData a s = .done (sampledResult a s) (dataSampled a s) := by
  have hd : (onlyIf (laneLo a) (sampleBus .low) s).dir = s.dir := onlyIf_keeps State.dir _ _ _ (by simp)
  unfold sampleData
  rw [readLane_done _ _ _ (h .low), Flow.done_andThen,
    readLane_done _ _ _ (by intro i; rw [hd]; exact h .high i)]
  rfl

/-! ## The phases in between write no direction -/

@[simp] theorem pulseClock_dir (s : State) : (pulseClock s).dir = s.dir := by simp [pulseClock]
@[simp] theorem pulseClock_crit (s : State) : (pulseClock s).crit = s.crit := by simp [pulseClock]
@[simp] theorem rowPhase_dir (s : State) : (rowPhase s).dir = s.dir := by simp [rowPhase]
@[simp] theorem rowPhase_crit (s : State) : (rowPhase s).crit = s.crit := by simp [rowPhase]
@[simp] theorem columnPhase_dir (s : State) : (columnPhase s).dir = s.dir := by simp [columnPhase]
@[simp] theorem columnPhase_crit (s : State) : (columnPhase s).crit = s.crit := by simp [columnPhase]
@[simp] theorem deassert_dir (s : State) : (deassert s).dir = s.dir := by simp [deassert]
@[simp] theorem deassert_crit (s : State) : (deassert s).crit = s.crit := by simp [deassert]
@[simp] theorem assertStrobes_dir (a : BitVec 32) (s : State) : (assertStrobes a s).dir = s.dir := by
  unfold assertStrobes
  rw [onlyIf_keeps State.dir _ _ _ (by simp), onlyIf_keeps State.dir _ _ _ (by simp)]
@[simp] theorem assertStrobes_crit (a : BitVec 32) (s : State) : (assertStrobes a s).crit = s.crit := by
  unfold assertStrobes
  rw [onlyIf_keeps State.crit _ _ _ (by simp), onlyIf_keeps State.crit _ _ _ (by simp)]
@[simp] theorem addressed_crit (a : BitVec 32) (s : State) : (addressed a s).crit = s.crit := by simp [addressed]
@[simp] theorem dataDriven_crit (a : BitVec 32) (d : BitVec 16) (s : State) : (dataDriven a d s).crit = s.crit := by
  unfold dataDriven
  rw [onlyIf_keeps State.crit _ _ _ (by simp), onlyIf_keeps State.crit _ _ _ (by simp)]
@[simp] theorem dataSampled_crit (a : BitVec 32) (s : State) : (dataSampled a s).crit = s.crit := by
  unfold dataSampled
  rw [onlyIf_keeps State.crit _ _ _ (by simp), onlyIf_keeps State.crit _ _ _ (by simp)]

/-! ## The whole cycle -/

/-- The state of a read cycle just before it samples: steps 1 to 8. -/
def readReady (a : BitVec 32) (s : State) : State :=
  columnPhase (releaseBuses (rowPhase (enterRegion (addressed a s))))

/-- The state a read cycle ends in. -/
def readDone (a : BitVec 32) (s : State) : State := leaveRegion (deassert (dataSampled a (readReady a s)))

/-- The state a write cycle ends in. -/
def writeDone (a : BitVec 32) (d : BitVec 16) (s : State) : State :=
  releaseLanes a (leaveRegion (deassert (columnPhase (dataDriven a d (rowPhase (enterRegion
    (assertStrobes a (addressed a s))))))))

/-- Both buses are IN when a read samples (R217). -/
theorem readReady_dir (a : BitVec 32) (s : State) (b : Bus) (i : Fin 8) :
    (readReady a s).dir[b.member i] = .input := by
  cases b <;> simp [readReady, releaseBuses]

/-- A read cycle from CRIT = 0 (R213, R229). -/
theorem busCycle_read (a : BitVec 32) (d : BitVec 16) (s : State) (h : s.crit = false) :
    busCycle a d true s = .done (sampledResult a (readReady a s)) (readDone a s) := by
  unfold busCycle criticalRegion
  simp only [addressPhase_done, Flow.done_andThen, Bool.not_true, onlyIf_false]
  rw [critEnter_done (by simpa using h), Flow.done_andThen]
  simp only [dataPhase, if_true, Flow.done_andThen, resultPhase]
  rw [show columnPhase (releaseBuses (rowPhase (enterRegion (addressed a s)))) = readReady a s from rfl,
    sampleData_done _ _ (by intro b i; rw [readReady_dir]; simp), Flow.done_andThen,
    critLeave_done (by simp [readReady, releaseBuses])]
  rfl

/-- A write cycle from CRIT = 0 (R213, R229). -/
theorem busCycle_write (a : BitVec 32) (d : BitVec 16) (s : State) (h : s.crit = false) :
    busCycle a d false s = .done 0 (writeDone a d s) := by
  unfold busCycle criticalRegion
  simp only [addressPhase_done, Flow.done_andThen, Bool.not_false, onlyIf_true]
  rw [critEnter_done (by simpa using h), Flow.done_andThen]
  simp only [dataPhase, Bool.false_eq_true, if_false, resultPhase]
  rw [driveData_done _ _ _ (by intro b i; simpa using addressed_dir a s b i), Flow.done_andThen, Flow.done_andThen,
    critLeave_done (by simp)]
  rfl

/-- A bus cycle from CRIT = 1 faults at step 3 (R147): its address is on the buses, and nothing else has happened. -/
theorem busCycle_nested (a : BitVec 32) (d : BitVec 16) (r : Bool) (s : State) (h : s.crit = true) :
    busCycle a d r s = .faulted .critNested (onlyIf (!r) (assertStrobes a) (addressed a s)) := by
  unfold busCycle criticalRegion
  simp only [addressPhase_done, Flow.done_andThen]
  rw [critEnter_fault]
  · rfl
  · rw [onlyIf_keeps State.crit _ _ _ (by simp)]
    simpa using h

end Sys2Proof.Machine
end

