-- ==== Sys2Proof/Laws/Decode.lean ====
section
/-! SUPPORT. Laws/Decode.lean: the fields of a word built from fields, and the codes and ids read back
(spec/30_encoding.md R101, R108, R110). -/

namespace Sys2Proof

/-! ## The fields of a command word -/

section commandWord
variable (opc : Byte) (data : BitVec 16) (addr : BitVec 32)

theorem commandWord_getLsbD (k : Nat) :
    (commandWord opc data addr).getLsbD k =
      if k < 32 then addr.getLsbD k else if k < 48 then data.getLsbD (k - 32)
      else if k < 56 then false else opc.getLsbD (k - 56) := by
  unfold commandWord
  rw [BitVec.getLsbD_append, BitVec.getLsbD_append, BitVec.getLsbD_append]
  by_cases h1 : k < 32
  · rw [if_pos h1, if_pos h1]
  rw [if_neg h1, if_neg h1]
  by_cases h2 : k < 48
  · rw [if_pos (show k - 32 < 16 by omega), if_pos h2]
  rw [if_neg (show ¬ k - 32 < 16 by omega), if_neg h2]
  by_cases h3 : k < 56
  · rw [if_pos (show k - 32 - 16 < 8 by omega), if_pos h3]
    exact BitVec.getLsbD_zero
  · rw [if_neg (show ¬ k - 32 - 16 < 8 by omega), if_neg h3]
    congr 1

@[simp] theorem cmdOpc_commandWord : cmdOpc (commandWord opc data addr) = opc := by
  apply BitVec.eq_of_getLsbD_eq
  intro k hk
  simp only [cmdOpc, BitVec.getLsbD_extractLsb', commandWord_getLsbD, hk, decide_true, Bool.true_and]
  rw [if_neg (by omega), if_neg (by omega), if_neg (by omega), show 56 + k - 56 = k by omega]

@[simp] theorem cmdRsv_commandWord : cmdRsv (commandWord opc data addr) = 0 := by
  apply BitVec.eq_of_getLsbD_eq
  intro k hk
  simp only [cmdRsv, BitVec.getLsbD_extractLsb', commandWord_getLsbD, hk, decide_true, Bool.true_and]
  rw [if_neg (by omega), if_neg (by omega), if_pos (by omega)]
  exact BitVec.getLsbD_zero.symm

@[simp] theorem cmdData16_commandWord : cmdData16 (commandWord opc data addr) = data := by
  apply BitVec.eq_of_getLsbD_eq
  intro k hk
  simp only [cmdData16, BitVec.getLsbD_extractLsb', commandWord_getLsbD, hk, decide_true, Bool.true_and]
  rw [if_neg (by omega), if_pos (by omega), show 32 + k - 32 = k by omega]

@[simp] theorem cmdData8_commandWord : cmdData8 (commandWord opc data addr) = data.extractLsb' 0 8 := by
  apply BitVec.eq_of_getLsbD_eq
  intro k hk
  simp only [cmdData8, BitVec.getLsbD_extractLsb', commandWord_getLsbD, hk, decide_true, Bool.true_and]
  rw [if_neg (by omega), if_pos (by omega), show 32 + k - 32 = 0 + k by omega]

@[simp] theorem cmdAddr32_commandWord : cmdAddr32 (commandWord opc data addr) = addr := by
  apply BitVec.eq_of_getLsbD_eq
  intro k hk
  simp only [cmdAddr32, BitVec.getLsbD_extractLsb', commandWord_getLsbD, hk, decide_true, Bool.true_and]
  rw [if_pos (by omega), show 0 + k = k by omega]

end commandWord

/-- A command word is what its fields build, where RSV is zero. -/
theorem commandWord_fields (w : CommandWord) (h : cmdRsv w = 0) : commandWord (cmdOpc w) (cmdData16 w) (cmdAddr32 w) = w := by
  apply BitVec.eq_of_getLsbD_eq
  intro k hk
  rw [commandWord_getLsbD]
  by_cases h1 : k < 32
  · rw [if_pos h1]
    simp only [cmdAddr32, BitVec.getLsbD_extractLsb', h1, decide_true, Bool.true_and, Nat.zero_add]
  rw [if_neg h1]
  by_cases h2 : k < 48
  · rw [if_pos h2]
    simp only [cmdData16, BitVec.getLsbD_extractLsb', show k - 32 < 16 by omega, decide_true, Bool.true_and,
      show 32 + (k - 32) = k by omega]
  rw [if_neg h2]
  by_cases h3 : k < 56
  · rw [if_pos h3]
    have := congrArg (fun v => v.getLsbD (k - 48)) h
    simp only [cmdRsv, BitVec.getLsbD_extractLsb', show k - 48 < 8 by omega, decide_true, Bool.true_and,
      show 48 + (k - 48) = k by omega] at this
    exact (this.trans BitVec.getLsbD_zero).symm
  · rw [if_neg h3]
    simp only [cmdOpc, BitVec.getLsbD_extractLsb', show k - 56 < 8 by omega, decide_true, Bool.true_and,
      show 56 + (k - 56) = k by omega]

/-- A byte below a zero byte is read back. -/
@[simp] theorem extract_zero_append (d : Byte) : ((0x00 : Byte) ++ d).extractLsb' 0 8 = d := by
  apply BitVec.eq_of_getLsbD_eq
  intro k hk
  rw [BitVec.getLsbD_extractLsb', BitVec.getLsbD_append]
  simp [hk]

/-- Sixteen bits whose high byte is clear are a zero byte above their low byte. -/
theorem zero_append_extract {d : BitVec 16} (h : d &&& ~~~(0x00FF : BitVec 16) = 0) :
    (0x00 : Byte) ++ d.extractLsb' 0 8 = d := by
  apply BitVec.eq_of_getLsbD_eq
  intro k hk
  rw [BitVec.getLsbD_append]
  by_cases h8 : k < 8
  · simp [h8]
  · have hm : ∀ k < 16, (~~~(0x00FF : BitVec 16)).getLsbD k = decide (8 ≤ k) := by decide
    have := congrArg (fun v => v.getLsbD k) h
    simp only [BitVec.getLsbD_and, hm k hk] at this
    rw [if_neg h8]
    have h0 : d.getLsbD k = false := by
      have h8' : 8 ≤ k := by omega
      simpa [h8'] using this
    rw [h0]
    exact BitVec.getLsbD_zero

/-- What an accepted command word admits: RSV zero, DATA16 inside its mask, ADDR32 as its use says (R104). -/
theorem accepted_ok {w : CommandWord} {m : BitVec 16} {u : LowUse} {i j : Instr} (h : accepted w m u j = .ok i) :
    i = j ∧ cmdRsv w = 0 ∧ cmdData16 w &&& ~~~m = 0 ∧ (u = .mustBeZero → cmdAddr32 w = 0) ∧
      (u = .address → addressInRange (cmdAddr32 w) = true) := by
  unfold accepted at h
  split at h
  · cases h
  · next hf =>
    cases h
    refine ⟨rfl, ?_⟩
    unfold fieldError at hf
    split at hf
    · cases hf
    split at hf
    · cases hf
    next h1 h2 =>
    refine ⟨by simpa using h1, by simpa using h2, ?_, ?_⟩
    · rintro rfl
      simpa using hf
    · rintro rfl
      simpa using hf

/-! ## The fields of an event word -/

section eventWord
variable (kind arg : BitVec 4) (id val : Byte)

theorem eventWord_getLsbD (k : Nat) :
    (eventWord kind arg id val).getLsbD k =
      if k < 8 then val.getLsbD k else if k < 16 then id.getLsbD (k - 8)
      else if k < 20 then arg.getLsbD (k - 16) else kind.getLsbD (k - 20) := by
  unfold eventWord
  rw [BitVec.getLsbD_append, BitVec.getLsbD_append, BitVec.getLsbD_append]
  by_cases h1 : k < 8
  · rw [if_pos h1, if_pos h1]
  rw [if_neg h1, if_neg h1]
  by_cases h2 : k < 16
  · rw [if_pos (show k - 8 < 8 by omega), if_pos h2]
  rw [if_neg (show ¬ k - 8 < 8 by omega), if_neg h2]
  by_cases h3 : k < 20
  · rw [if_pos (show k - 8 - 8 < 4 by omega), if_pos h3]
    congr 1
  · rw [if_neg (show ¬ k - 8 - 8 < 4 by omega), if_neg h3]
    congr 1

@[simp] theorem evtKind_eventWord : evtKind (eventWord kind arg id val) = kind := by
  apply BitVec.eq_of_getLsbD_eq
  intro k hk
  simp only [evtKind, BitVec.getLsbD_extractLsb', eventWord_getLsbD, hk, decide_true, Bool.true_and]
  rw [if_neg (by omega), if_neg (by omega), if_neg (by omega), show 20 + k - 20 = k by omega]

@[simp] theorem evtArg_eventWord : evtArg (eventWord kind arg id val) = arg := by
  apply BitVec.eq_of_getLsbD_eq
  intro k hk
  simp only [evtArg, BitVec.getLsbD_extractLsb', eventWord_getLsbD, hk, decide_true, Bool.true_and]
  rw [if_neg (by omega), if_neg (by omega), if_pos (by omega), show 16 + k - 16 = k by omega]

@[simp] theorem evtId_eventWord : evtId (eventWord kind arg id val) = id := by
  apply BitVec.eq_of_getLsbD_eq
  intro k hk
  simp only [evtId, BitVec.getLsbD_extractLsb', eventWord_getLsbD, hk, decide_true, Bool.true_and]
  rw [if_neg (by omega), if_pos (by omega), show 8 + k - 8 = k by omega]

@[simp] theorem evtVal_eventWord : evtVal (eventWord kind arg id val) = val := by
  apply BitVec.eq_of_getLsbD_eq
  intro k hk
  simp only [evtVal, BitVec.getLsbD_extractLsb', eventWord_getLsbD, hk, decide_true, Bool.true_and]
  rw [if_pos (by omega), show 0 + k = k by omega]

end eventWord

/-- An event word is what its fields build. -/
theorem eventWord_fields (w : EventWord) : eventWord (evtKind w) (evtArg w) (evtId w) (evtVal w) = w := by
  apply BitVec.eq_of_getLsbD_eq
  intro k hk
  rw [eventWord_getLsbD]
  by_cases h1 : k < 8
  · rw [if_pos h1]
    simp only [evtVal, BitVec.getLsbD_extractLsb', h1, decide_true, Bool.true_and, Nat.zero_add]
  rw [if_neg h1]
  by_cases h2 : k < 16
  · rw [if_pos h2]
    simp only [evtId, BitVec.getLsbD_extractLsb', show k - 8 < 8 by omega, decide_true, Bool.true_and,
      show 8 + (k - 8) = k by omega]
  rw [if_neg h2]
  by_cases h3 : k < 20
  · rw [if_pos h3]
    simp only [evtArg, BitVec.getLsbD_extractLsb', show k - 16 < 4 by omega, decide_true, Bool.true_and,
      show 16 + (k - 16) = k by omega]
  · rw [if_neg h3]
    simp only [evtKind, BitVec.getLsbD_extractLsb', show k - 20 < 4 by omega, decide_true, Bool.true_and,
      show 20 + (k - 20) = k by omega]

/-! ## Codes and ids -/

@[simp] theorem dirOfCode_dirCode (d : Dir) : dirOfCode (dirCode d) = some d := by cases d <;> decide
@[simp] theorem levelOfCode_levelCode (l : Level) : levelOfCode (levelCode l) = some l := by cases l <;> decide
@[simp] theorem busOfId_busId (b : Bus) : busOfId (busId b) = some b := by cases b <;> decide

theorem dirCode_of {c : BitVec 4} {d : Dir} (h : dirOfCode c = some d) : dirCode d = c := by
  revert c d; decide
theorem levelCode_of {c : BitVec 4} {l : Level} (h : levelOfCode c = some l) : levelCode l = c := by
  revert c l; decide
theorem busId_of {c : Byte} {b : Bus} (h : busOfId c = some b) : busId b = c := by
  unfold busOfId at h
  split at h
  · cases h; rename_i h; exact h.symm
  · split at h
    · cases h; rename_i h; exact h.symm
    · cases h

theorem pinId_toNat (p : Pin) : (pinId p).toNat = p.val := by
  simp only [pinId, BitVec.toNat_ofNat]
  omega

theorem pinOfId_pinId {n : Nat} {p : Pin} (h : pinExists n p = true) : pinOfId n (pinId p) = some p := by
  unfold pinOfId
  have h48 : (pinId p).toNat < 48 := by rw [pinId_toNat]; omega
  rw [dif_pos h48]
  have hp : (⟨(pinId p).toNat, h48⟩ : Pin) = p := Fin.ext (pinId_toNat p)
  rw [hp, if_pos h]

theorem pinId_of {n : Nat} {c : Byte} {p : Pin} (h : pinOfId n c = some p) : pinId p = c ∧ pinExists n p = true := by
  unfold pinOfId at h
  split at h
  · split at h
    · next h1 h2 =>
      cases h
      exact ⟨by simp [pinId], h2⟩
    · cases h
  · cases h

end Sys2Proof
end

