-- ==== Sys2Proof/Laws/Check.lean ====
section
/-! SUPPORT. Laws/Check.lean: what each part of CHECK ends in, for every state and every target (R180 to R190). -/

namespace Sys2Proof.Machine

/-- Reading and comparing a pin: it went on, or failed, or the pin was an output. -/
theorem expectLevel_meets (p : Pin) (l : Level) (s : State) :
    (expectLevel p l s).Meets (fun _ t => s.dir[p] ≠ .output ∧ (s.sample p).1 = l ∧ t = samplePin p s)
      (fun o t => s.dir[p] ≠ .output ∧ (s.sample p).1 ≠ l ∧ o = .pinStateMismatch p l (s.sample p).1 ∧ t = samplePin p s)
      (fun f t => s.dir[p] = .output ∧ f = .readOfOutputPin p ∧ t = s) := by
  unfold expectLevel
  by_cases hd : s.dir[p] = .output
  · rw [rdLvl_fault hd]
    exact ⟨hd, rfl, rfl⟩
  · rw [rdLvl_done hd, Flow.done_andThen]
    split
    · next h => exact ⟨hd, h, rfl⟩
    · next h => exact ⟨hd, h, rfl, rfl⟩

/-- Reading and comparing a bus. -/
theorem expectBus_meets (b : Bus) (v : Byte) (s : State) :
    (expectBus b v s).Meets (fun _ t => (∀ i, s.dir[b.member i] ≠ .output) ∧ s.busSample b = v ∧ t = sampleBus b s)
      (fun o t => (∀ i, s.dir[b.member i] ≠ .output) ∧ s.busSample b ≠ v ∧
        o = .busValueMismatch b v (s.busSample b) ∧ t = sampleBus b s)
      (fun f t => (∃ i, s.dir[b.member i] = .output) ∧ f = .busReadNotInput b ∧ t = s) := by
  unfold expectBus
  by_cases hd : ∃ i, s.dir[b.member i] = .output
  · rw [busRd_fault hd]
    exact ⟨hd, rfl, rfl⟩
  · rw [busRd_done fun i hi => hd ⟨i, hi⟩, Flow.done_andThen]
    split
    · next h => exact ⟨fun i hi => hd ⟨i, hi⟩, h, rfl⟩
    · next h => exact ⟨fun i hi => hd ⟨i, hi⟩, h, rfl, rfl⟩

/-- Where pin reads keep `I`, comparing a pin keeps it; a failure names the pin and the level it did not read. -/
theorem expectLevel_keeps {I : State → Prop} {p : Pin} (l : Level) {s : State} (hs : I s)
    (hI : s.dir[p] ≠ .output → I (samplePin p s)) :
    (expectLevel p l s).Meets (fun _ t => I t) (fun o t => (∃ got, o = .pinStateMismatch p l got ∧ got ≠ l) ∧ I t)
      (fun f t => s.dir[p] = .output ∧ f = .readOfOutputPin p ∧ I t) := by
  refine (expectLevel_meets p l s).mono ?_ ?_ ?_
  · rintro _ _ ⟨hd, _, rfl⟩
    exact hI hd
  · rintro _ _ ⟨hd, hne, rfl, rfl⟩
    exact ⟨⟨_, rfl, hne⟩, hI hd⟩
  · rintro _ _ ⟨hd, rfl, rfl⟩
    exact ⟨hd, rfl, hs⟩

/-- Where bus reads keep `I`, comparing a bus keeps it; a failure names the bus and the byte. -/
theorem expectBus_keeps {I : State → Prop} {b : Bus} (v : Byte) {s : State} (hs : I s)
    (hI : (∀ i, s.dir[b.member i] ≠ .output) → I (sampleBus b s)) :
    (expectBus b v s).Meets (fun _ t => I t) (fun o t => (∃ got, o = .busValueMismatch b v got ∧ got ≠ v) ∧ I t)
      (fun f t => (∃ i, s.dir[b.member i] = .output) ∧ f = .busReadNotInput b ∧ I t) := by
  refine (expectBus_meets b v s).mono ?_ ?_ ?_
  · rintro _ _ ⟨hd, _, rfl⟩
    exact hI hd
  · rintro _ _ ⟨hd, hne, rfl, rfl⟩
    exact ⟨⟨_, rfl, hne⟩, hI hd⟩
  · rintro _ _ ⟨hd, rfl, rfl⟩
    exact ⟨hd, rfl, hs⟩

/-- The clock loop: what it answers says which levels were seen; only a read of an output ends it early. -/
theorem sampleClock_keeps {I : State → Prop} (hI : ∀ s, I s → s.dir[Pin.xtl1] ≠ .output → I (samplePin Pin.xtl1 s))
    (n : Nat) (lo hi : Bool) {s : State} (hs : I s) :
    (sampleClock n lo hi s).Meets (fun _ t => I t) (fun _ _ => False)
      (fun f t => t.dir[Pin.xtl1] = .output ∧ f = .readOfOutputPin Pin.xtl1 ∧ I t) := by
  induction n generalizing lo hi s with
  | zero => exact hs
  | succ n ih =>
    unfold sampleClock
    by_cases hd : s.dir[Pin.xtl1] = .output
    · rw [rdLvl_fault hd]
      exact ⟨hd, rfl, hs⟩
    · rw [rdLvl_done hd, Flow.done_andThen]
      split <;> exact ih _ _ (hI s hs hd)


/-! ## The parts of CHECK, by what they leave of the pins -/

/-- Whether an event is a pin write (R109). -/
def isPinWrite (w : EventWord) : Bool := decide (evtKind w = 2)

@[simp] theorem isPinWrite_eventWord (k a : BitVec 4) (i v : Byte) : isPinWrite (eventWord k a i v) = decide (k = 2) := by
  simp only [isPinWrite, evtKind_eventWord]

/-- What a part of CHECK has left: the latches, and the events of its pin writes so far. -/
structure Left where
  lat : Vector Level 48
  writes : List EventWord

/-- The latches of `s`, nothing written. -/
def Left.untouched (s : State) : Left := ⟨s.lat, []⟩

/-- After one more pin write. -/
def Left.write (L : Left) (p : Pin) (l : Level) : Left :=
  ⟨L.lat.set p l, L.writes ++ [eventWord 2 (levelCode l) (pinId p) 0]⟩

/-- Configuration and directions as in `s`, latches and pin writes since `s` as `L` has them. -/
def PinsAre (s : State) (L : Left) (t : State) : Prop :=
  t.cfg = s.cfg ∧ t.dir = s.dir ∧ t.lat = L.lat ∧
    ∃ es, t.trace = s.trace ++ es ∧ es.filter isPinWrite = L.writes

theorem PinsAre.refl (s : State) : PinsAre s (Left.untouched s) s := ⟨rfl, rfl, rfl, [], by simp, rfl⟩

/-- A pin write is among the events since `s` exactly where it is among the writes. -/
theorem PinsAre.mem_iff {s t : State} {L : Left} (h : PinsAre s L t) {w : EventWord} (hw : isPinWrite w = true) :
    w ∈ t.trace.drop s.trace.length ↔ w ∈ L.writes := by
  obtain ⟨_, _, _, es, ht, hes⟩ := h
  rw [ht, ← hes]
  simp [hw]

theorem PinsAre.wrLvl {s t : State} {L : Left} (p : Pin) (l : Level) (h : PinsAre s L t) :
    PinsAre s (L.write p l) (wrLvl p l t) := by
  obtain ⟨hc, hd, hl, es, ht, hes⟩ := h
  exact ⟨by simp [hc], by simp [hd], by simp [hl, Left.write], es ++ [_], by rw [wrLvl_trace, ht, List.append_assoc],
    by simp [hes, Left.write]⟩

theorem PinsAre.samplePin {s t : State} {L : Left} (p : Pin) (h : PinsAre s L t) : PinsAre s L (samplePin p t) := by
  obtain ⟨hc, hd, hl, es, ht, hes⟩ := h
  exact ⟨by simp [hc], by simp [hd], by simp [hl], es ++ [_], by rw [samplePin_trace, ht, List.append_assoc], by simp [hes]⟩

theorem PinsAre.sampleBus {s t : State} {L : Left} (b : Bus) (h : PinsAre s L t) : PinsAre s L (sampleBus b t) := by
  obtain ⟨hc, hd, hl, es, ht, hes⟩ := h
  exact ⟨by simp [hc], by simp [hd], by simp [hl], es ++ [_], by rw [sampleBus_trace, ht, List.append_assoc], by simp [hes]⟩

/-- A failure that names one of `ps`, the pins left as `L` has them. -/
def PinFailure (s : State) (ps : List Pin) (L : Left) (o : CmdOutcome) (t : State) : Prop :=
  (∃ p ∈ ps, ∃ e g, o = .pinStateMismatch p e g) ∧ PinsAre s L t

/-- A failure that names a bus, the pins left as `L` has them. -/
def BusFailure (s : State) (L : Left) (o : CmdOutcome) (t : State) : Prop :=
  (∃ b e g, o = .busValueMismatch b e g) ∧ PinsAre s L t

/-- A fault on one of `ps`. -/
def PinFault (s : State) (ps : List Pin) (L : Left) (f : Fault) (t : State) : Prop :=
  (∃ p ∈ ps, s.dir[p] = .output ∧ f = .readOfOutputPin p) ∧ PinsAre s L t

/-- A fault on a bus some member drives. -/
def BusFault (s : State) (L : Left) (f : Fault) (t : State) : Prop :=
  (∃ b, (∃ i : Fin 8, s.dir[b.member i] = .output) ∧ f = .busReadNotInput b) ∧ PinsAre s L t

theorem expectLevel_pins {s t : State} {L : Left} {ps : List Pin} {p : Pin} (l : Level) (hp : p ∈ ps)
    (h : PinsAre s L t) :
    (expectLevel p l t).Meets (fun _ => PinsAre s L) (PinFailure s ps L) (PinFault s ps L) := by
  refine (expectLevel_keeps l h fun _ => h.samplePin p).mono (fun _ _ h => h) ?_ ?_
  · rintro o u ⟨⟨g, rfl, _⟩, hu⟩
    exact ⟨⟨p, hp, l, g, rfl⟩, hu⟩
  · rintro f u ⟨hd, rfl, hu⟩
    exact ⟨⟨p, hp, by rw [← h.2.1]; exact hd, rfl⟩, hu⟩

theorem expectBus_pins {s t : State} {L : Left} {b : Bus} (v : Byte) (h : PinsAre s L t) :
    (expectBus b v t).Meets (fun _ u => PinsAre s L u ∧ ∀ i, s.dir[b.member i] ≠ .output) (BusFailure s L)
      (BusFault s L) := by
  refine (expectBus_meets b v t).mono ?_ ?_ ?_
  · rintro _ u ⟨hd, _, rfl⟩
    exact ⟨h.sampleBus b, fun i => by rw [← h.2.1]; exact hd i⟩
  · rintro o u ⟨hd, _, rfl, rfl⟩
    exact ⟨⟨b, v, _, rfl⟩, h.sampleBus b⟩
  · rintro f u ⟨⟨i, hi⟩, rfl, rfl⟩
    exact ⟨⟨b, ⟨i, by rw [← h.2.1]; exact hi⟩, rfl⟩, h⟩

/-- Both buses compared: where it went on, no member drives. -/
theorem expectBuses_pins {s t : State} {L : Left} (want : Bus → Byte) (o : BusCheckOrder) (h : PinsAre s L t) :
    (eachOf (fun b => expectBus b (want b)) (busOrder o) t).Meets
      (fun _ u => PinsAre s L u ∧ ∀ (b : Bus) (i : Fin 8), s.dir[b.member i] ≠ .output) (BusFailure s L) (BusFault s L) := by
  cases o <;>
  · simp only [busOrder, eachOf]
    refine (expectBus_pins _ h).andThen fun _ u hu => ?_
    refine (expectBus_pins _ hu.1).andThen fun _ w hw => ?_
    refine ⟨hw.1, fun b i => ?_⟩
    cases b
    · first | exact hu.2 i | exact hw.2 i
    · first | exact hw.2 i | exact hu.2 i

/-- The pins steps 1 to 3 read. -/
def earlyPins (n : Nat) : List Pin := groundPins n ++ [Pin.vcc, Pin.pup, Pin.ready, Pin.xtl1]

/-- The pins step 6 reads. -/
def auxPins : List Pin := [Pin.aux0, Pin.aux1, Pin.aux2, Pin.aux3]

theorem PinFault.mono {s t : State} {L : Left} {ps qs : List Pin} {f : Fault} (h : PinFault s ps L f t)
    (hsub : ∀ p ∈ ps, p ∈ qs) : PinFault s qs L f t := by
  obtain ⟨⟨p, hp, hd, rfl⟩, hu⟩ := h
  exact ⟨⟨p, hsub p hp, hd, rfl⟩, hu⟩

theorem early_sub (n : Nat) : ∀ p ∈ earlyPins n, p ∈ inputOnlyPins n := fun p hp => by
  simp only [earlyPins, inputOnlyPins, List.mem_append, List.mem_cons] at hp ⊢
  tauto

theorem aux_sub (n : Nat) : ∀ p ∈ auxPins, p ∈ inputOnlyPins n := fun p hp => by
  simp only [auxPins, inputOnlyPins, List.mem_append, List.mem_cons] at hp ⊢
  tauto

theorem checkPower_pins (s : State) :
    (checkPower s).Meets (fun _ => PinsAre s (Left.untouched s)) (PinFailure s (earlyPins s.cfg.nGnd) (Left.untouched s))
      (PinFault s (earlyPins s.cfg.nGnd) (Left.untouched s)) := by
  refine (Flow.meets_eachOf (fun g hg t ht => expectLevel_pins .low (by simp [earlyPins, hg]) ht)
    (PinsAre.refl s)).andThen fun _ t ht => ?_
  refine (expectLevel_pins .high (by simp [earlyPins]) ht).andThen fun _ u hu => ?_
  exact expectLevel_pins .low (by simp [earlyPins]) hu

theorem checkReady_pins {s t : State} (ht : PinsAre s (Left.untouched s) t) :
    (checkReady t).Meets (fun _ => PinsAre s (Left.untouched s)) (PinFailure s (earlyPins s.cfg.nGnd) (Left.untouched s))
      (PinFault s (earlyPins s.cfg.nGnd) (Left.untouched s)) := expectLevel_pins .high (by simp [earlyPins]) ht

theorem checkClock_pins {s t : State} (ht : PinsAre s (Left.untouched s) t) :
    (checkClock t).Meets (fun _ => PinsAre s (Left.untouched s)) (PinFailure s (earlyPins s.cfg.nGnd) (Left.untouched s))
      (PinFault s (earlyPins s.cfg.nGnd) (Left.untouched s)) := by
  have hx : Pin.xtl1 ∈ earlyPins s.cfg.nGnd := by simp [earlyPins]
  refine ((sampleClock_keeps (fun u hu _ => hu.samplePin Pin.xtl1) _ _ _ ht).mono (fun _ _ h => h)
    (fun _ _ h => h.elim) ?_).andThen fun saw u hu => ?_
  · rintro f u ⟨hd, rfl, hu⟩
    exact ⟨⟨_, hx, by rw [← hu.2.1]; exact hd, rfl⟩, hu⟩
  · split
    · exact ⟨⟨_, hx, _, _, rfl⟩, hu⟩
    · split
      · exact ⟨⟨_, hx, _, _, rfl⟩, hu⟩
      · exact hu

/-- What step 5 leaves while BCLR is asserted, and after its release. -/
def bclrAsserted (s : State) : Left := (Left.untouched s).write Pin.bclr .low
def bclrReleased (s : State) : Left := (bclrAsserted s).write Pin.bclr .high

/-- Step 5, no member driving a bus. -/
theorem checkMode_pins {s t : State} (ht : PinsAre s (Left.untouched s) t)
    (hb : ∀ (b : Bus) (i : Fin 8), s.dir[b.member i] ≠ .output) :
    (checkMode t).Meets (fun _ => PinsAre s (bclrReleased s))
      (fun o u => BusFailure s (bclrAsserted s) o u ∨ BusFailure s (bclrReleased s) o u) (fun _ _ => False) := by
  have nofault : ∀ L f u, ¬ BusFault s L f u := fun L f u ⟨⟨b, ⟨i, hi⟩, _⟩, _⟩ => hb b i hi
  unfold checkMode
  refine Flow.Meets.andThen (D := fun _ => PinsAre s (bclrAsserted s)) ?_ fun _ u hu => ?_
  · exact (expectBuses_pins (fun b => byteOf b (wrLvl Pin.bclr .low t).cfg.modeWord) _ (ht.wrLvl _ _)).mono
      (fun _ _ h => h.1) (fun _ _ h => .inl h) fun f u h => nofault _ f u h
  · exact (expectBuses_pins (fun _ => 0xFF) _ (hu.wrLvl _ _)).mono (fun _ _ h => h.1) (fun _ _ h => .inr h)
      fun f u h => nofault _ f u h

/-- What step 6 leaves while DLS and the latch-enable pin are asserted. -/
def latchAsserted (s : State) : Left := ((bclrReleased s).write Pin.dls .high).write s.cfg.latchEnablePin .high

/-- Step 6. -/
theorem checkLatch_pins {s t : State} (ht : PinsAre s (bclrReleased s) t) :
    (checkLatch t).Meets (fun _ u => u.dir = s.dir) (PinFailure s auxPins (latchAsserted s))
      (PinFault s auxPins (latchAsserted s)) := by
  unfold checkLatch
  rw [ht.1]
  refine Flow.Meets.andThen (D := fun _ => PinsAre s (latchAsserted s)) ?_ fun _ u hu => by
    simpa [Flow.Meets] using hu.2.1
  exact Flow.meets_eachOf (fun a ha u hu => expectLevel_pins .high ha hu) ((ht.wrLvl _ _).wrLvl _ _)

/-- What a failed CHECK says and leaves (R188). -/
def CheckFailure (s : State) (o : CmdOutcome) (t : State) : Prop :=
  PinFailure s (earlyPins s.cfg.nGnd) (Left.untouched s) o t ∨ PinFailure s auxPins (latchAsserted s) o t ∨
    BusFailure s (Left.untouched s) o t ∨ BusFailure s (bclrAsserted s) o t ∨ BusFailure s (bclrReleased s) o t

/-- What a fault of CHECK comes from (R190). -/
def CheckFault (s : State) (f : Fault) (t : State) : Prop :=
  (∃ p ∈ inputOnlyPins s.cfg.nGnd, s.dir[p] = .output ∧ f = .readOfOutputPin p) ∨
    (∃ (b : Bus) (i : Fin 8), s.dir[b.member i] = .output ∧ f = .busReadNotInput b ∧ t.lat = s.lat)

theorem PinFault.checkFault {s t : State} {ps : List Pin} {L : Left} {f : Fault} (h : PinFault s ps L f t)
    (hps : ∀ p ∈ ps, p ∈ inputOnlyPins s.cfg.nGnd) : CheckFault s f t := by
  obtain ⟨⟨p, hp, hd, hf⟩, _⟩ := h
  exact .inl ⟨p, hps p hp, hd, hf⟩

/-- CHECK as a whole: what a failure or a fault leaves of the pins, and where each can come from (R188, R190). -/
theorem selfCheck_pins (s : State) :
    (selfCheck s).Meets (fun _ t => t.dir = s.dir) (CheckFailure s) (CheckFault s) := by
  have early := early_sub s.cfg.nGnd
  unfold selfCheck
  refine ((checkPower_pins s).mono (fun _ _ h => h) (fun _ _ h => .inl h) fun _ _ h => h.checkFault early).andThen
    fun _ t1 h1 => ?_
  refine ((checkReady_pins h1).mono (fun _ _ h => h) (fun _ _ h => .inl h) fun _ _ h => h.checkFault early).andThen
    fun _ t2 h2 => ?_
  refine ((checkClock_pins h2).mono (fun _ _ h => h) (fun _ _ h => .inl h) fun _ _ h => h.checkFault early).andThen
    fun _ t3 h3 => ?_
  refine ((expectBuses_pins (fun _ => 0xFF) _ h3).mono (fun _ _ h => h) (fun _ _ h => .inr (.inr (.inl h))) ?_).andThen
    fun _ t4 h4 => ?_
  · rintro f u ⟨⟨b, ⟨i, hi⟩, rfl⟩, hu⟩
    exact .inr ⟨b, i, hi, rfl, hu.2.2.1⟩
  refine ((checkMode_pins h4.1 h4.2).mono (fun _ _ h => h) (fun _ _ h => .inr (.inr (.inr h))) fun _ _ h => h.elim).andThen
    fun _ t5 h5 => ?_
  exact (checkLatch_pins h5).mono (fun _ _ h => h) (fun _ _ h => .inr (.inl h)) fun _ _ h => h.checkFault (aux_sub _)

end Sys2Proof.Machine
end

