-- ==== Sys2Proof/Laws/Run.lean ====
section
/-! SUPPORT. Laws/Run.lean: said once, everything an instruction can do: a run of micro-operations, one event each, and then
an end that posts, faults or refuses. Every invariant is two small goals over this. -/

namespace Sys2Proof.Machine

/-- The micro-operation `i`, run to its end, takes `s` to `t` (R141 to R148). -/
inductive MicroStep : Instr → State → State → Prop where
  | setdir (p : Pin) (d : Dir) (s : State) : MicroStep (.setdir p d) s (setDir p d s)
  | wrlvl (p : Pin) (l : Level) (s : State) : MicroStep (.wrlvl p l) s (wrLvl p l s)
  | rdlvl (p : Pin) (s : State) (h : s.dir[p] ≠ .output) : MicroStep (.rdlvl p (s.sample p).1) s (samplePin p s)
  | busdir (b : Bus) (d : Dir) (s : State) : MicroStep (.busdir b d) s (busDir b d s)
  | buswr (b : Bus) (v : Byte) (s : State) (h : ∀ i, s.dir[b.member i] = .output) :
    MicroStep (.buswr b v) s (driveBus b v s)
  | busrd (b : Bus) (s : State) (h : ∀ i, s.dir[b.member i] ≠ .output) :
    MicroStep (.busrd b (s.busSample b)) s (sampleBus b s)
  | critenter (s : State) (h : s.crit = false) : MicroStep .critenter s (enterRegion s)
  | critleave (s : State) (h : s.crit = true) : MicroStep .critleave s (leaveRegion s)

/-- The event word a micro-operation is recorded as (R109). -/
def eventOf (i : Instr) : EventWord :=
  match encode i with
  | .event w => w
  | .command _ => 0

/-- Micro-operations one after another (R12). -/
inductive MicroRun : List Instr → State → State → Prop where
  | nil (s : State) : MicroRun [] s s
  | cons {i : Instr} {is : List Instr} {s t u : State} (h : MicroStep i s t) (r : MicroRun is t u) : MicroRun (i :: is) s u

theorem MicroRun.append {is js : List Instr} {s t u : State} (h : MicroRun is s t) (k : MicroRun js t u) :
    MicroRun (is ++ js) s u := by
  induction h with
  | nil => exact k
  | cons h _ ih => exact .cons h (ih k)

/-- A micro-operation emits exactly its event (R140). -/
theorem MicroStep.trace {i : Instr} {s t : State} (h : MicroStep i s t) : t.trace = s.trace ++ [eventOf i] := by
  cases h <;> simp [eventOf, encode]

/-- A run emits its events in order (R42, R81). -/
theorem MicroRun.trace {is : List Instr} {s t : State} (h : MicroRun is s t) :
    t.trace = s.trace ++ is.map eventOf := by
  induction h with
  | nil => simp
  | cons h _ ih => rw [ih, h.trace]; simp

/-- From `s` to `t` by micro-operations that `A` allows. -/
def Goes (A : Instr → Prop) (s t : State) : Prop := ∃ is, MicroRun is s t ∧ ∀ i ∈ is, A i

section Goes
variable {A : Instr → Prop} {s t u : State}

theorem Goes.refl (s : State) : Goes A s s := ⟨[], .nil s, by simp⟩

theorem Goes.trans (h : Goes A s t) (k : Goes A t u) : Goes A s u := by
  obtain ⟨is, hr, ha⟩ := h
  obtain ⟨js, kr, ka⟩ := k
  exact ⟨is ++ js, hr.append kr, fun i hi => (List.mem_append.mp hi).elim (ha i) (ka i)⟩

theorem Goes.one {i : Instr} (h : MicroStep i s t) (ha : A i) : Goes A s t :=
  ⟨[i], .cons h (.nil t), by simpa using ha⟩

theorem Goes.mono {B : Instr → Prop} (h : Goes A s t) (hab : ∀ i, A i → B i) : Goes B s t := by
  obtain ⟨is, hr, ha⟩ := h
  exact ⟨is, hr, fun i hi => hab i (ha i hi)⟩

/-- What every allowed micro-operation keeps, a run keeps. -/
theorem Goes.keeps (P : State → Prop) (hP : ∀ i s t, A i → MicroStep i s t → P s → P t) (h : Goes A s t) (hs : P s) :
    P t := by
  obtain ⟨is, hr, ha⟩ := h
  induction hr with
  | nil => exact hs
  | cons h _ ih =>
    exact ih (hP _ _ _ (ha _ (by simp)) h hs) fun i hi => ha i (by simp [hi])

end Goes

/-! ## What no micro-operation touches -/

/-- The fields no micro-operation writes. -/
structure SameEnds (s t : State) : Prop where
  cfg : t.cfg = s.cfg
  cmd : t.cmd = s.cmd
  result : t.result = s.result
  status : t.status = s.status
  posted : t.posted = s.posted
  faultMark : t.faultMark = s.faultMark
  refusalMark : t.refusalMark = s.refusalMark
  micro : t.micro = s.micro
  inbox : t.inbox = s.inbox

theorem SameEnds.refl (s : State) : SameEnds s s := ⟨rfl, rfl, rfl, rfl, rfl, rfl, rfl, rfl, rfl⟩

theorem SameEnds.trans {s t u : State} (h : SameEnds s t) (k : SameEnds t u) : SameEnds s u :=
  ⟨k.cfg.trans h.cfg, k.cmd.trans h.cmd, k.result.trans h.result, k.status.trans h.status, k.posted.trans h.posted,
    k.faultMark.trans h.faultMark, k.refusalMark.trans h.refusalMark, k.micro.trans h.micro, k.inbox.trans h.inbox⟩

theorem MicroStep.sameEnds {i : Instr} {s t : State} (h : MicroStep i s t) : SameEnds s t := by
  cases h <;> constructor <;> simp

/-- A run of micro-operations writes no register, no mark and no configuration. -/
theorem Goes.sameEnds {A : Instr → Prop} {s t : State} (h : Goes A s t) : SameEnds s t :=
  Goes.keeps (SameEnds s) (fun _ _ _ _ hm hs => hs.trans hm.sameEnds) h (SameEnds.refl s)

/-! ## Micro-operations inside a sequence -/

section Follows
variable {A : Instr → Prop} {s : State} {α β : Type}

theorem goes_setDir {p : Pin} {d : Dir} (ha : A (.setdir p d)) : Goes A s (setDir p d s) := .one (.setdir p d s) ha
theorem goes_wrLvl {p : Pin} {l : Level} (ha : A (.wrlvl p l)) : Goes A s (wrLvl p l s) := .one (.wrlvl p l s) ha
theorem goes_busDir {b : Bus} {d : Dir} (ha : A (.busdir b d)) : Goes A s (busDir b d s) := .one (.busdir b d s) ha

theorem goes_rdLvl {p : Pin} (ha : ∀ l, A (.rdlvl p l)) : Goes A s (rdLvl p s).state := by
  unfold rdLvl
  split
  · exact .refl s
  · next h => exact .one (.rdlvl p s h) (ha _)

theorem goes_busRd {b : Bus} (ha : ∀ v, A (.busrd b v)) : Goes A s (busRd b s).state := by
  unfold busRd
  split
  · next h => exact .one (.busrd b s ((busAllIn_iff s b).mp h)) (ha _)
  · exact .refl s

theorem goes_busWr {b : Bus} {v : Byte} (ha : A (.buswr b v)) : Goes A s (busWr b v s).state := by
  unfold busWr
  split
  · next h => exact .one (.buswr b v s ((busAllOut_iff s b).mp h)) ha
  · exact .refl s

theorem goes_critEnter (ha : A .critenter) : Goes A s (critEnter s).state := by
  unfold critEnter
  split
  · exact .refl s
  · next h => exact .one (.critenter s (by simpa using h)) ha

theorem goes_critLeave (ha : A .critleave) : Goes A s (critLeave s).state := by
  unfold critLeave
  split
  · next h => exact .one (.critleave s h) ha
  · exact .refl s

/-- A sequence goes as its parts do. -/
theorem goes_andThen {x : Flow α} {k : α → State → Flow β} (hx : Goes A s x.state)
    (hk : ∀ a t, Goes A t (k a t).state) : Goes A s (x.andThen k).state := by
  cases x with
  | done a t => exact hx.trans (hk a t)
  | failed o t => exact hx
  | faulted f t => exact hx

/-- As `goes_andThen`, where the second part may use what the first leaves of the fields no micro-operation writes. -/
theorem goes_andThen_of {x : Flow α} {k : α → State → Flow β} (hx : Goes A s x.state)
    (hk : ∀ a t, SameEnds s t → Goes A t (k a t).state) : Goes A s (x.andThen k).state := by
  cases x with
  | done a t => exact hx.trans (hk a t hx.sameEnds)
  | failed o t => exact hx
  | faulted f t => exact hx

/-- A list of parts goes as each of them does. -/
theorem goes_eachOf {f : α → State → Flow Unit} {xs : List α} (hf : ∀ x ∈ xs, ∀ t, Goes A t (f x t).state) :
    Goes A s (eachOf f xs s).state := by
  induction xs generalizing s with
  | nil => exact .refl s
  | cons x xs ih =>
    exact goes_andThen (hf x (by simp) s) fun _ t => ih fun y hy => hf y (by simp [hy])

/-- A left fold goes as each of its parts does. -/
theorem goes_foldl {f : State → α → State} {xs : List α} (hf : ∀ x ∈ xs, ∀ t, Goes A t (f t x)) :
    Goes A s (xs.foldl f s) := by
  induction xs generalizing s with
  | nil => exact .refl s
  | cons x xs ih => exact (hf x (by simp) s).trans (ih fun y hy => hf y (by simp [hy]))

end Follows

/-! ## What each instruction may do -/

/-- The control outputs (R32). -/
def controlPins : List Pin := [Pin.ras, Pin.cas, Pin.wlb, Pin.whb, Pin.bclr, Pin.dls, Pin.pi, Pin.cout]

/-- The pins a bus cycle writes (spec/10_state.md R47). -/
def cyclePins : List Pin := [Pin.ras, Pin.cas, Pin.wlb, Pin.whb, Pin.dls, Pin.cout]

/-- The pins CHECK reads (R180). -/
def checkReads (nGnd : Nat) : List Pin := inputOnlyPins nGnd

/-- The micro-operations of IDLE (R170). -/
def IdleOp (nGnd : Nat) : Instr → Prop
  | .setdir p .output => p ∈ controlPins
  | .setdir p .input => p ∈ inputOnlyPins nGnd
  | .wrlvl p _ => p ∈ controlPins
  | .busdir _ .inputPullup => True
  | _ => False

/-- The micro-operations of CHECK (R180). -/
def CheckOp (c : Config) : Instr → Prop
  | .wrlvl p _ => p = Pin.bclr ∨ p = Pin.dls ∨ p = c.latchEnablePin
  | .rdlvl p _ => p ∈ checkReads c.nGnd
  | .busrd _ _ => True
  | _ => False

/-- The micro-operations of a bus cycle (R213). -/
def CycleOp : Instr → Prop
  | .wrlvl p _ => p ∈ cyclePins
  | .busdir _ _ => True
  | .buswr _ _ => True
  | .busrd _ _ => True
  | .critenter => True
  | .critleave => True
  | _ => False

/-- The micro-operations an instruction may perform, in a state with configuration `c`. -/
def Allowed (c : Config) (i j : Instr) : Prop :=
  match i with
  | .idle => IdleOp c.nGnd j
  | .check => CheckOp c j
  | .mread _ => CycleOp j
  | .mwrite _ _ => CycleOp j
  | .bcr _ => CycleOp j
  | .bcw _ _ => CycleOp j
  | .waitint _ _ => False
  | .ackint => False
  | .setdir p d => j = .setdir p d
  | .wrlvl p l => j = .wrlvl p l
  | .rdlvl p _ => ∃ l, j = .rdlvl p l
  | .busdir b d => j = .busdir b d
  | .buswr b v => j = .buswr b v
  | .busrd b _ => ∃ v, j = .busrd b v
  | .critenter => j = .critenter
  | .critleave => j = .critleave

/-- How an instruction ends: a micro-operation posts nothing, a command posts, either may leave a mark. -/
inductive Closed (u : State) : State → Prop where
  | same : Closed u u
  | posted (st : BitVec 32) (r : BitVec 16) : Closed u (u.post st r)
  | raised (f : Fault) : Closed u (u.raise f)
  | refused (r : Refusal) : Closed u (u.refuse r)

theorem closed_close {α : Type} (x : Flow α) (r : α → BitVec 16) : Closed x.state (x.close r) := by
  cases x with
  | done a s => exact .posted _ _
  | failed o s => exact .posted _ _
  | faulted f s => exact .raised f

theorem closed_settle {α : Type} (x : Flow α) : Closed x.state x.settle := by
  cases x with
  | done a s => exact .same
  | failed o s => exact .posted _ _
  | faulted f s => exact .raised f

/-- IDLE's run (R170). -/
theorem idle_goes (s : State) : Goes (IdleOp s.cfg.nGnd) s (idleBuses (idleInputs (idleControls s))) := by
  have hc : Goes (IdleOp s.cfg.nGnd) s (idleControls s) := by
    have hone : ∀ l, ∀ p ∈ controlPins, ∀ t, Goes (IdleOp s.cfg.nGnd) t (driveControl l p t) := fun l p hp t =>
      (goes_wrLvl (l := l) (show IdleOp _ (.wrlvl p l) from hp)).trans
        (goes_setDir (show IdleOp _ (.setdir p .output) from hp))
    exact (goes_foldl fun p hp t => hone .high p (by simp [controlPins] at hp ⊢; tauto) t).trans
      (goes_foldl fun p hp t => hone .low p (by simp [controlPins] at hp ⊢; tauto) t)
  have hi : Goes (IdleOp s.cfg.nGnd) (idleControls s) (idleInputs (idleControls s)) := by
    unfold idleInputs
    rw [hc.sameEnds.cfg]
    exact goes_foldl fun p hp t => goes_setDir (show IdleOp _ (.setdir p .input) from hp)
  exact (hc.trans hi).trans ((goes_busDir (show IdleOp _ (.busdir .low .inputPullup) from trivial)).trans
    (goes_busDir (show IdleOp _ (.busdir .high .inputPullup) from trivial)))

/-- Reading and comparing a pin (R180). -/
theorem goes_expectLevel {A : Instr → Prop} {p : Pin} {l : Level} {s : State} (ha : ∀ l, A (.rdlvl p l)) :
    Goes A s (expectLevel p l s).state :=
  goes_andThen (goes_rdLvl ha) fun a t => by split <;> exact .refl t

/-- Reading and comparing a bus (R180). -/
theorem goes_expectBus {A : Instr → Prop} {b : Bus} {v : Byte} {s : State} (ha : ∀ v, A (.busrd b v)) :
    Goes A s (expectBus b v s).state :=
  goes_andThen (goes_busRd ha) fun a t => by split <;> exact .refl t

/-- The clock loop (R183). -/
theorem goes_sampleClock {A : Instr → Prop} (ha : ∀ l, A (.rdlvl Pin.xtl1 l)) (n : Nat) (lo hi : Bool) (s : State) :
    Goes A s (sampleClock n lo hi s).state := by
  induction n generalizing lo hi s with
  | zero => exact .refl s
  | succ n ih => exact goes_andThen (goes_rdLvl ha) fun a t => by cases a <;> exact ih _ _ t

/-- The pins step 1 to 3 and 6 read are among those CHECK reads. -/
theorem mem_checkReads (n : Nat) {p : Pin}
    (h : p ∈ groundPins n ∨ p ∈ [Pin.vcc, Pin.pup, Pin.ready, Pin.xtl1, Pin.aux0, Pin.aux1, Pin.aux2, Pin.aux3]) :
    p ∈ checkReads n := List.mem_append.mpr h

/-- CHECK's run (R180). -/
theorem check_goes (s : State) : Goes (CheckOp s.cfg) s (selfCheck s).state := by
  have rd : ∀ {p : Pin}, p ∈ groundPins s.cfg.nGnd ∨
      p ∈ [Pin.vcc, Pin.pup, Pin.ready, Pin.xtl1, Pin.aux0, Pin.aux1, Pin.aux2, Pin.aux3] →
      ∀ l, CheckOp s.cfg (.rdlvl p l) := fun h _ => mem_checkReads _ h
  have bus : ∀ b v, CheckOp s.cfg (.busrd b v) := fun _ _ => trivial
  have ones : ∀ t, Goes (CheckOp s.cfg) t (checkAllOnes t).state := fun t =>
    goes_eachOf fun b _ u => goes_expectBus (bus b)
  unfold selfCheck
  refine goes_andThen_of ?_ fun _ t1 h1 => goes_andThen_of ?_ fun _ t2 h2 => goes_andThen_of ?_ fun _ t3 h3 =>
    goes_andThen_of (ones t3) fun _ t4 h4 => goes_andThen_of ?_ fun _ t5 h5 => ?_
  · refine goes_andThen (goes_eachOf fun g hg u => goes_expectLevel (rd (.inl hg))) fun _ t => ?_
    exact goes_andThen (goes_expectLevel (rd (.inr (by simp)))) fun _ u => goes_expectLevel (rd (.inr (by simp)))
  · exact goes_expectLevel (rd (.inr (by simp)))
  · refine goes_andThen (goes_sampleClock (rd (.inr (by simp))) _ _ _ _) fun a t => ?_
    split
    · exact .refl t
    · split <;> exact .refl t
  · unfold checkMode
    refine goes_andThen ?_ fun _ t => ?_
    · exact (goes_wrLvl (show CheckOp s.cfg (.wrlvl Pin.bclr .low) from .inl rfl)).trans
        (goes_eachOf fun b _ u => goes_expectBus (bus b))
    · exact (goes_wrLvl (show CheckOp s.cfg (.wrlvl Pin.bclr .high) from .inl rfl)).trans (ones _)
  · have hlatch : t5.cfg = s.cfg := by
      rw [h5.cfg, h4.cfg, h3.cfg, h2.cfg, h1.cfg]
    unfold checkLatch
    rw [hlatch]
    refine goes_andThen_of ?_ fun _ t h => ?_
    · refine ((goes_wrLvl (show CheckOp s.cfg (.wrlvl Pin.dls .high) from .inr (.inl rfl))).trans
        (goes_wrLvl (show CheckOp s.cfg (.wrlvl s.cfg.latchEnablePin .high) from .inr (.inr rfl)))).trans ?_
      exact goes_eachOf fun a ha u => goes_expectLevel (rd (.inr (by simp at ha ⊢; tauto)))
    · rw [Flow.state_done, h.cfg, hlatch]
      exact (goes_wrLvl (show CheckOp s.cfg (.wrlvl s.cfg.latchEnablePin .low) from .inr (.inr rfl))).trans
        (goes_wrLvl (show CheckOp s.cfg (.wrlvl Pin.dls .low) from .inr (.inl rfl)))

/-- Writing a pin of the bus cycle. -/
theorem goes_cycle_wrLvl {p : Pin} (l : Level) (s : State) (h : p ∈ cyclePins) : Goes CycleOp s (wrLvl p l s) :=
  goes_wrLvl (show CycleOp (.wrlvl p l) from h)

/-- A step done for enabled lanes only. -/
theorem goes_onlyIf {A : Instr → Prop} {c : Bool} {f : State → State} {s : State} (h : Goes A s (f s)) :
    Goes A s (onlyIf c f s) := by
  unfold onlyIf
  split
  · exact h
  · exact .refl s

/-- A clock pulse. -/
theorem goes_pulseClock (s : State) : Goes CycleOp s (pulseClock s) :=
  (goes_cycle_wrLvl .high s (by decide)).trans (goes_cycle_wrLvl .low _ (by decide))

/-- The bus cycle's run (R213). -/
theorem busCycle_goes (a : BitVec 32) (d : BitVec 16) (r : Bool) (s : State) :
    Goes CycleOp s (busCycle a d r s).state := by
  have bd : ∀ b d t, Goes CycleOp t (busDir b d t) := fun b d t => goes_busDir (show CycleOp (.busdir b d) from trivial)
  have bw : ∀ b v t, Goes CycleOp t (busWr b v t).state := fun b v t => goes_busWr (show CycleOp (.buswr b v) from trivial)
  have br : ∀ b t, Goes CycleOp t (busRd b t).state := fun b t => goes_busRd fun _ => trivial
  have lane : ∀ e b t, Goes CycleOp t (readLane e b t).state := fun e b t => by
    unfold readLane
    split
    · exact goes_andThen (br b t) fun _ u => .refl u
    · exact .refl t
  unfold busCycle addressPhase
  refine goes_andThen (goes_andThen (((bd _ _ s).trans (bd _ _ _)).trans (bw _ _ _)) fun _ t => bw _ _ t) fun _ t => ?_
  refine goes_andThen ?_ fun _ u => ?_
  · refine (goes_onlyIf (c := !r) (f := assertStrobes a) ?_).trans ?_
    · exact (goes_onlyIf (goes_cycle_wrLvl .low _ (by decide))).trans (goes_onlyIf (goes_cycle_wrLvl .low _ (by decide)))
    · unfold criticalRegion
      refine goes_andThen (goes_critEnter trivial) fun _ t => ?_
      refine goes_andThen ?_ fun _ t => ?_
      · refine ((goes_cycle_wrLvl (p := Pin.ras) .low t (by decide)).trans (goes_pulseClock _)).trans ?_
        unfold dataPhase
        split
        · exact (bd _ _ _).trans (bd _ _ _)
        · refine goes_andThen ?_ fun _ u => ?_ <;>
          · unfold writeLane
            split
            · exact bw _ _ _
            · exact .refl _
      refine goes_andThen ?_ fun _ u => ?_
      · refine ((goes_cycle_wrLvl (p := Pin.cas) .low t (by decide)).trans
          ((goes_cycle_wrLvl (p := Pin.dls) .high _ (by decide)).trans (goes_pulseClock _))).trans ?_
        unfold resultPhase
        split
        · exact goes_andThen (lane _ _ _) fun _ u => goes_andThen (lane _ _ u) fun _ v => .refl v
        · exact .refl _
      · refine goes_andThen ?_ fun _ v => .refl v
        refine (((goes_cycle_wrLvl (p := Pin.cas) .high u (by decide)).trans
          (goes_cycle_wrLvl (p := Pin.dls) .low _ (by decide))).trans
          (goes_cycle_wrLvl (p := Pin.ras) .high _ (by decide))).trans (goes_critLeave trivial)
  · exact goes_onlyIf (((goes_onlyIf (bd _ _ u)).trans (goes_onlyIf (bd _ _ _))).trans
      ((goes_onlyIf (goes_cycle_wrLvl .high _ (by decide))).trans (goes_onlyIf (goes_cycle_wrLvl .high _ (by decide)))))

/-- Every instruction answers a next state: allowed micro-operations from `s` to some `u`, then its end. -/
theorem exec_cases (i : Instr) (s : State) :
    ∃ u t, exec i s = .next t ∧ Goes (Allowed s.cfg i) s u ∧ Closed u t := by
  cases i with
  | idle => exact ⟨_, _, rfl, idle_goes s, .posted _ _⟩
  | check => exact ⟨_, _, rfl, check_goes s, closed_close _ _⟩
  | mread a => exact ⟨_, _, rfl, busCycle_goes a _ true s, closed_close _ _⟩
  | mwrite a d => exact ⟨_, _, rfl, busCycle_goes a _ false s, closed_close _ _⟩
  | bcr a => exact ⟨_, _, rfl, busCycle_goes a _ true s, closed_close _ _⟩
  | bcw a d => exact ⟨_, _, rfl, busCycle_goes a _ false s, closed_close _ _⟩
  | waitint n t =>
    refine ⟨s, _, rfl, .refl s, ?_⟩
    unfold inReferenceProfile
    split
    · exact .posted _ _
    · exact .refused _
  | ackint =>
    refine ⟨s, _, rfl, .refl s, ?_⟩
    unfold inReferenceProfile
    split
    · exact .posted _ _
    · exact .refused _
  | setdir p d => exact ⟨_, _, rfl, goes_setDir rfl, .same⟩
  | wrlvl p l => exact ⟨_, _, rfl, goes_wrLvl rfl, .same⟩
  | rdlvl p l => exact ⟨_, _, rfl, goes_rdLvl fun l => ⟨l, rfl⟩, closed_settle _⟩
  | busdir b d => exact ⟨_, _, rfl, goes_busDir rfl, .same⟩
  | buswr b v => exact ⟨_, _, rfl, goes_busWr rfl, closed_settle _⟩
  | busrd b v => exact ⟨_, _, rfl, goes_busRd fun v => ⟨v, rfl⟩, closed_settle _⟩
  | critenter => exact ⟨_, _, rfl, goes_critEnter rfl, closed_settle _⟩
  | critleave => exact ⟨_, _, rfl, goes_critLeave rfl, closed_settle _⟩

end Sys2Proof.Machine
end

