-- ==== Sys2Proof/Laws/Exec.lean ====
section
/-! SUPPORT. Laws/Exec.lean: the inversion of exec and of step: what a next state tells of the instruction and of the fetch. -/

namespace Sys2Proof.Machine

/-! ## The end of an instruction -/

/-- The end of an instruction writes no pin, no CRIT, no event, and nothing of the target, CMD or the queues. -/
structure SamePins (u t : State) : Prop where
  cfg : t.cfg = u.cfg
  dir : t.dir = u.dir
  lat : t.lat = u.lat
  crit : t.crit = u.crit
  cmd : t.cmd = u.cmd
  trace : t.trace = u.trace
  micro : t.micro = u.micro
  inbox : t.inbox = u.inbox
  target : t.target = u.target

theorem Closed.samePins {u t : State} (h : Closed u t) : SamePins u t := by
  cases h <;> constructor <;> simp

/-- The end of an instruction keeps the marks there are. -/
theorem Closed.marks {u t : State} (h : Closed u t) :
    (∀ f, u.faultMark = some f → t.faultMark = some f) ∧ (∀ r, u.refusalMark = some r → t.refusalMark = some r) := by
  cases h <;> simp +contextual

/-- The end of an instruction posts at most one pair. -/
theorem Closed.posted_once {u t : State} (h : Closed u t) : t.posted = u.posted ∨ t.posted = u.posted ++ [(t.status, t.result)] := by
  cases h <;> simp

/-- A next state of `exec`: allowed micro-operations, then the instruction's end. -/
theorem exec_next {i : Instr} {s t : State} (h : exec i s = .next t) : ∃ u, Goes (Allowed s.cfg i) s u ∧ Closed u t := by
  obtain ⟨u, t', he, hg, hc⟩ := exec_cases i s
  rw [he] at h
  cases h
  exact ⟨u, hg, hc⟩

/-- A micro-operation allows only itself. -/
theorem allowed_micro {c : Config} {i j : Instr} (hi : i.isCommand = false) (h : Allowed c i j) :
    i = j ∨ (∃ p l l', i = .rdlvl p l ∧ j = .rdlvl p l') ∨ (∃ b v v', i = .busrd b v ∧ j = .busrd b v') := by
  cases i <;>
    first
    | (simp [Instr.isCommand] at hi; done)
    | (simp only [Allowed] at h; subst h; exact .inl rfl)
    | (simp only [Allowed] at h; obtain ⟨l, rfl⟩ := h; simp)

/-- Only WRLVL COUT HIGH touches the echo target's memory. -/
theorem MicroStep.mem {j : Instr} {s t : State} (h : MicroStep j s t) (hj : j ≠ .wrlvl Pin.cout .high) :
    t.target.mem = s.target.mem := by
  cases h with
  | wrlvl p l =>
    by_cases hp : p = Pin.cout
    · subst hp
      cases l
      · simp
      · exact absurd rfl hj
    · rw [wrLvl_target_of_ne _ _ _ hp]
  | _ => simp

/-- Every micro-operation keeps the echo target's memory canonical. -/
theorem MicroStep.mem_wf {j : Instr} {s t : State} (h : MicroStep j s t) (hs : s.target.mem.wf) : t.target.mem.wf := by
  cases h with
  | wrlvl p l => rw [wrLvl_target]; exact react_wf _ _ _ hs
  | rdlvl p s _ => rw [samplePin_target, sample_mem]; exact hs
  | busrd b s _ => rw [sampleBus_target, sampleMembers_mem]; exact hs
  | setdir p d s => exact hs
  | busdir b d s => exact hs
  | buswr b v s _ => exact hs
  | critenter s _ => exact hs
  | critleave s _ => exact hs

/-! ## A step -/

theorem stopped_eq_none {s : State} : s.stopped = none ↔ s.faultMark = none ∧ s.refusalMark = none := by
  unfold State.stopped
  cases s.faultMark <;> cases s.refusalMark <;> simp

/-- How a step came to a next state. -/
inductive Stepped (s t : State) : Prop where
  /-- Nothing to run (R293). -/
  | waited (hm : s.micro = []) (hi : s.inbox = []) (ht : t = s)
  /-- A word at the micro-step that records nothing. -/
  | badEvent (w : EventWord) (rest : List EventWord) (why : Invalid) (hm : s.micro = w :: rest)
      (hd : decodeEvent s.cfg.nGnd w = .error why) (ht : t = (s.withMicro rest).refuse (.invalidEvent why))
  /-- The micro-operation at the micro-step (R12). -/
  | ranMicro (w : EventWord) (rest : List EventWord) (i : Instr) (hm : s.micro = w :: rest)
      (hd : decodeEvent s.cfg.nGnd w = .ok i) (he : exec i (s.withMicro rest) = .next t)
  /-- A command word that spells nothing (R287). -/
  | badCommand (w : CommandWord) (rest : List CommandWord) (why : Invalid) (hm : s.micro = []) (hi : s.inbox = w :: rest)
      (hd : decodeCommand w = .error why) (ht : t = ((s.withInbox rest).withCmd w).refuse (.invalidCommand why))
  /-- The command in CMD (R100). -/
  | ranCommand (w : CommandWord) (rest : List CommandWord) (i : Instr) (hm : s.micro = []) (hi : s.inbox = w :: rest)
      (hd : decodeCommand w = .ok i) (he : exec i ((s.withInbox rest).withCmd w) = .next t)

/-- A next state of `step`: the state was unmarked, and one of five things happened. -/
theorem step_next {s t : State} (h : step s = .next t) : (s.faultMark = none ∧ s.refusalMark = none) ∧ Stepped s t := by
  unfold step at h
  cases hs : s.stopped with
  | some o =>
    rw [hs] at h
    unfold State.stopped at hs
    split at hs
    · cases hs; cases h
    · split at hs
      · cases hs; cases h
      · cases hs
  | none =>
    refine ⟨stopped_eq_none.mp hs, ?_⟩
    rw [hs] at h
    dsimp only at h
    cases hm : s.micro with
    | cons w rest =>
      simp only [State.fetch, hm, Fetched.word, decode] at h
      cases hd : decodeEvent s.cfg.nGnd w with
      | ok i => rw [hd] at h; exact .ranMicro w rest i hm hd h
      | error why => rw [hd] at h; cases h; exact .badEvent w rest why hm hd rfl
    | nil =>
      cases hi : s.inbox with
      | nil =>
        simp only [State.fetch, hm, hi, Fetched.word] at h
        cases h
        exact .waited hm hi rfl
      | cons w rest =>
        simp only [State.fetch, hm, hi, Fetched.word, decode] at h
        cases hd : decodeCommand w with
        | ok i => rw [hd] at h; exact .ranCommand w rest i hm hi hd h
        | error why => rw [hd] at h; cases h; exact .badCommand w rest why hm hi hd rfl

/-- What taking a word, every micro-operation and every end keep, a step keeps. -/
theorem step_keeps (P : State → Prop) {s t : State} (h : step s = .next t) (hs : P s)
    (hmicro : ∀ s m, P s → P (s.withMicro m)) (hcmd : ∀ s ws w, P s → P ((s.withInbox ws).withCmd w))
    (hrefuse : ∀ s r, P s → P (s.refuse r)) (hrun : ∀ i s t, MicroStep i s t → P s → P t)
    (hend : ∀ u t, Closed u t → P u → P t) : P t := by
  have hexec : ∀ i s, P s → exec i s = .next t → P t := fun i s hs he => by
    obtain ⟨u, hg, hc⟩ := exec_next he
    exact hend u t hc (hg.keeps P (fun i s t _ => hrun i s t) hs)
  cases (step_next h).2 with
  | waited hm hi ht => rw [ht]; exact hs
  | badEvent w rest why hm hd ht => rw [ht]; exact hrefuse _ _ (hmicro s rest hs)
  | ranMicro w rest i hm hd he => exact hexec i _ (hmicro s rest hs) he
  | badCommand w rest why hm hi hd ht => rw [ht]; exact hrefuse _ _ (hcmd s rest w hs)
  | ranCommand w rest i hm hi hd he => exact hexec i _ (hcmd s rest w hs) he

/-! ## What decodes is of its kind -/

/-- A command word decodes to a command. -/
theorem decodeCommand_isCommand {w : CommandWord} {i : Instr} (h : decodeCommand w = .ok i) : i.isCommand = true := by
  have key : ∀ m u j, accepted w m u j = .ok i → i = j := fun m u j hj => by
    unfold accepted at hj
    split at hj
    · cases hj
    · cases hj; rfl
  unfold decodeCommand at h
  repeat' split at h
  all_goals first | (rw [key _ _ _ h]; rfl) | cases h

end Sys2Proof.Machine
end

