-- ==== Sys2Proof/Laws/Flags.lean ====
section
/-! SUPPORT. Laws/Flags.lean: the fields of a STATUS word built from fields (spec/30_encoding.md R111). -/

namespace Sys2Proof.Machine

section statusWord
variable (observed expected subject code : Byte)

theorem statusWord_getLsbD (k : Nat) :
    (statusWord observed expected subject code).getLsbD k =
      if k < 8 then code.getLsbD k else if k < 16 then subject.getLsbD (k - 8)
      else if k < 24 then expected.getLsbD (k - 16) else observed.getLsbD (k - 24) := by
  unfold statusWord
  rw [BitVec.getLsbD_append, BitVec.getLsbD_append, BitVec.getLsbD_append]
  by_cases h1 : k < 8
  · rw [if_pos h1, if_pos h1]
  rw [if_neg h1, if_neg h1]
  by_cases h2 : k < 16
  · rw [if_pos (show k - 8 < 8 by omega), if_pos h2]
  rw [if_neg (show ¬ k - 8 < 8 by omega), if_neg h2]
  by_cases h3 : k < 24
  · rw [if_pos (show k - 8 - 8 < 8 by omega), if_pos h3]
    congr 1
  · rw [if_neg (show ¬ k - 8 - 8 < 8 by omega), if_neg h3]
    congr 1

@[simp] theorem statusCode_statusWord : statusCode (statusWord observed expected subject code) = code := by
  apply BitVec.eq_of_getLsbD_eq
  intro k hk
  simp only [statusCode, BitVec.getLsbD_extractLsb', statusWord_getLsbD, hk, decide_true, Bool.true_and]
  rw [if_pos (by omega), show 0 + k = k by omega]

@[simp] theorem statusSubject_statusWord : statusSubject (statusWord observed expected subject code) = subject := by
  apply BitVec.eq_of_getLsbD_eq
  intro k hk
  simp only [statusSubject, BitVec.getLsbD_extractLsb', statusWord_getLsbD, hk, decide_true, Bool.true_and]
  rw [if_neg (by omega), if_pos (by omega), show 8 + k - 8 = k by omega]

@[simp] theorem statusExpected_statusWord : statusExpected (statusWord observed expected subject code) = expected := by
  apply BitVec.eq_of_getLsbD_eq
  intro k hk
  simp only [statusExpected, BitVec.getLsbD_extractLsb', statusWord_getLsbD, hk, decide_true, Bool.true_and]
  rw [if_neg (by omega), if_neg (by omega), if_pos (by omega), show 16 + k - 16 = k by omega]

@[simp] theorem statusObserved_statusWord : statusObserved (statusWord observed expected subject code) = observed := by
  apply BitVec.eq_of_getLsbD_eq
  intro k hk
  simp only [statusObserved, BitVec.getLsbD_extractLsb', statusWord_getLsbD, hk, decide_true, Bool.true_and]
  rw [if_neg (by omega), if_neg (by omega), if_neg (by omega), show 24 + k - 24 = k by omega]

end statusWord

end Sys2Proof.Machine
end

