-- ==== Sys2Proof/Laws/Idle.lean ====
section
/-! SUPPORT. Laws/Idle.lean: what IDLE leaves on every pin, in the trace and in the target (spec/41_idle.md R170, R171). -/

namespace Sys2Proof.Machine

/-- Which pins the ground pins are (R32). -/
theorem mem_groundPins (n : Nat) (q : Pin) : q ∈ groundPins n ↔ 0x20 ≤ q.val ∧ pinExists n q = true := by
  have hq := q.isLt
  simp only [groundPins, List.mem_map, pinExists, decide_eq_true_eq]
  constructor
  · rintro ⟨k, hk, rfl⟩
    rw [List.mem_take_iff_getElem] at hk
    obtain ⟨j, hj, rfl⟩ := hk
    simp only [List.getElem_finRange, Fin.val_cast]
    simp at hj
    omega
  · rintro ⟨h1, h2⟩
    refine ⟨⟨q.val - 0x20, by omega⟩, ?_, Fin.ext (by simp; omega)⟩
    rw [List.mem_take_iff_getElem]
    exact ⟨q.val - 0x20, by simp; omega, by simp⟩

/-- Which pins the input-only pins are (R170). -/
theorem mem_inputOnlyPins (n : Nat) (q : Pin) : q ∈ inputOnlyPins n ↔ 0x18 ≤ q.val ∧ pinExists n q = true := by
  unfold inputOnlyPins
  rw [List.mem_append, mem_groundPins]
  have h : q ∈ [Pin.vcc, Pin.pup, Pin.ready, Pin.xtl1, Pin.aux0, Pin.aux1, Pin.aux2, Pin.aux3] ↔
      0x18 ≤ q.val ∧ q.val < 0x20 := by revert q; decide
  rw [h]
  simp only [pinExists, decide_eq_true_eq]
  omega

/-! ## The three parts -/

section foldl
variable (d : Dir) (l : Level) (ps : List Pin) (s : State)

@[simp] theorem foldl_setDir_dir (q : Pin) :
    (ps.foldl (fun s p => setDir p d s) s).dir[q] = if q ∈ ps then d else s.dir[q] := by
  induction ps generalizing s with
  | nil => simp
  | cons p ps ih =>
    rw [List.foldl_cons, ih, setDir_dir, getElem_setPin]
    simp only [List.mem_cons, eq_comm (a := q) (b := p)]
    split <;> split <;> simp_all

@[simp] theorem foldl_setDir_lat : (ps.foldl (fun s p => setDir p d s) s).lat = s.lat := by
  induction ps generalizing s with
  | nil => rfl
  | cons p ps ih => rw [List.foldl_cons, ih, setDir_lat]

@[simp] theorem foldl_setDir_target : (ps.foldl (fun s p => setDir p d s) s).target = s.target := by
  induction ps generalizing s with
  | nil => rfl
  | cons p ps ih => rw [List.foldl_cons, ih, setDir_target]

theorem foldl_setDir_trace :
    (ps.foldl (fun s p => setDir p d s) s).trace = s.trace ++ ps.map fun p => eventWord 1 (dirCode d) (pinId p) 0 := by
  induction ps generalizing s with
  | nil => simp
  | cons p ps ih => rw [List.foldl_cons, ih, setDir_trace]; simp

@[simp] theorem foldl_driveControl_dir (q : Pin) :
    (ps.foldl (fun s p => driveControl l p s) s).dir[q] = if q ∈ ps then .output else s.dir[q] := by
  induction ps generalizing s with
  | nil => simp
  | cons p ps ih =>
    rw [List.foldl_cons, ih]
    simp only [driveControl, setDir_dir, wrLvl_dir, getElem_setPin, List.mem_cons, eq_comm (a := q) (b := p)]
    split <;> split <;> simp_all

@[simp] theorem foldl_driveControl_lat (q : Pin) :
    (ps.foldl (fun s p => driveControl l p s) s).lat[q] = if q ∈ ps then l else s.lat[q] := by
  induction ps generalizing s with
  | nil => simp
  | cons p ps ih =>
    rw [List.foldl_cons, ih]
    simp only [driveControl, setDir_lat, wrLvl_lat, getElem_setPin, List.mem_cons, eq_comm (a := q) (b := p)]
    split <;> split <;> simp_all

@[simp] theorem foldl_driveControl_cfg : (ps.foldl (fun s p => driveControl l p s) s).cfg = s.cfg := by
  induction ps generalizing s with
  | nil => rfl
  | cons p ps ih => rw [List.foldl_cons, ih, driveControl, setDir_cfg, wrLvl_cfg]

theorem foldl_driveControl_trace :
    (ps.foldl (fun s p => driveControl l p s) s).trace =
      s.trace ++ ps.flatMap fun p => [eventWord 2 (levelCode l) (pinId p) 0, eventWord 1 1 (pinId p) 0] := by
  induction ps generalizing s with
  | nil => simp
  | cons p ps ih => rw [List.foldl_cons, ih]; simp [driveControl, dirCode]

/-- The control outputs are written LOW except pins that are not the clock output: the target does not react. -/
theorem foldl_driveControl_target (h : l = .low ∨ Pin.cout ∉ ps) :
    (ps.foldl (fun s p => driveControl l p s) s).target = s.target := by
  induction ps generalizing s with
  | nil => rfl
  | cons p ps ih =>
    rw [List.foldl_cons, ih _ (h.imp_right fun h hm => h (List.mem_cons_of_mem _ hm)), driveControl, setDir_target]
    rcases h with rfl | h
    · exact wrLvl_target_low p s
    · exact wrLvl_target_of_ne p l s fun hp => h (by simp [hp])

end foldl

/-! ## IDLE as a whole -/

/-- The state IDLE has reached before it posts. -/
def idled (s : State) : State := idleBuses (idleInputs (idleControls s))

/-- IDLE writes the direction of every pin that exists, and of no other (R170). -/
theorem idled_dir (s : State) (q : Pin) :
    (idled s).dir[q] = if q.val < 0x10 then .inputPullup else if q.val < 0x18 then .output
      else if pinExists s.cfg.nGnd q = true then .input else s.dir[q] := by
  have hc : (idleControls s).cfg = s.cfg := by unfold idleControls; rw [foldl_driveControl_cfg, foldl_driveControl_cfg]
  have hctl : (idleControls s).dir[q] = if 0x10 ≤ q.val ∧ q.val < 0x18 then .output else s.dir[q] := by
    have h : (q ∈ [Pin.dls, Pin.pi, Pin.cout] ∨ q ∈ [Pin.ras, Pin.cas, Pin.wlb, Pin.whb, Pin.bclr]) ↔
        0x10 ≤ q.val ∧ q.val < 0x18 := by revert q; decide
    unfold idleControls
    rw [foldl_driveControl_dir, foldl_driveControl_dir, ← ite_or]
    simp only [h]
  unfold idled idleBuses idleInputs
  rw [hc, busDir_dir, busDir_dir, getElem_setMembers, getElem_setMembers, foldl_setDir_dir, hctl]
  simp only [mem_inputOnlyPins, Bus.base]
  by_cases h1 : q.val < 0x10
  · rw [if_pos h1]
    by_cases h2 : 8 ≤ q.val
    · rw [dif_pos (by omega)]
    · rw [dif_neg (by omega), dif_pos (by omega)]
  · rw [if_neg h1, dif_neg (by omega), dif_neg (by omega)]
    by_cases h2 : q.val < 0x18
    · rw [if_pos h2, if_neg (by omega), if_pos (by omega)]
    · rw [if_neg h2, if_neg (by omega : ¬(0x10 ≤ q.val ∧ q.val < 0x18))]
      by_cases h3 : pinExists s.cfg.nGnd q = true
      · rw [if_pos h3, if_pos ⟨by omega, h3⟩]
      · rw [if_neg h3, if_neg (by tauto)]

/-- IDLE writes the latches of the control outputs, and of no other pin (R170). -/
theorem idled_lat (s : State) (q : Pin) :
    (idled s).lat[q] = if q ∈ [Pin.dls, Pin.pi, Pin.cout] then .low
      else if q ∈ [Pin.ras, Pin.cas, Pin.wlb, Pin.whb, Pin.bclr] then .high else s.lat[q] := by
  unfold idled idleBuses idleInputs idleControls
  rw [busDir_lat, busDir_lat, foldl_setDir_lat, foldl_driveControl_lat, foldl_driveControl_lat]

/-- IDLE changes nothing of the target. -/
theorem idled_target (s : State) : (idled s).target = s.target := by
  unfold idled idleBuses idleInputs idleControls
  rw [busDir_target, busDir_target, foldl_setDir_target, foldl_driveControl_target _ _ _ (.inl rfl),
    foldl_driveControl_target _ _ _ (.inr (by decide))]

end Sys2Proof.Machine
end

