-- ==== Sys2Proof/Laws/PerInstr.lean ====
section
/-! SUPPORT. Laws/PerInstr.lean: the family Row: the word of every well-formed instruction meets the match and mask of its
row of spec/opcode_table.json (spec/30_encoding.md R103, R109). -/

namespace Sys2Proof.Laws.Row

/-- Match and mask of the row of an instruction: R103 for the commands, R109 for the micro-operations. -/
def row : Instr → Nat × Nat
  | .idle => (0x0100000000000000, 0xFFFFFFFFFFFFFFFF)
  | .check => (0x0200000000000000, 0xFFFFFFFFFFFFFFFF)
  | .mread _ => (0x0300000000000000, 0xFFFFFFFFFFFC0000)
  | .mwrite _ _ => (0x0400000000000000, 0xFFFFFF00FFFC0000)
  | .bcr _ => (0x0500000000000000, 0xFFFFFFFFFFFC0000)
  | .bcw _ _ => (0x0600000000000000, 0xFFFF0000FFFC0000)
  | .waitint _ _ => (0x0700000000000000, 0xFFFFFF0000000000)
  | .ackint => (0x0800000000000000, 0xFFFFFFFFFFFFFFFF)
  | .setdir _ _ => (0x100000, 0xF000FF)
  | .wrlvl _ _ => (0x200000, 0xFE00FF)
  | .rdlvl _ _ => (0x300000, 0xFE00FF)
  | .busdir _ _ => (0x404000, 0xF0FEFF)
  | .buswr _ _ => (0x504000, 0xFFFE00)
  | .busrd _ _ => (0x604000, 0xFFFE00)
  | .critenter => (0x700000, 0xFFFFFF)
  | .critleave => (0x800000, 0xFFFFFF)

/-- The word meets a row: a command word of 64 bits for a command, an event word of 24 bits for a micro-operation. -/
def meets (w : CodeWord) (isCommand : Bool) (r : Nat × Nat) : Prop :=
  match w with
  | .command w => isCommand = true ∧ w &&& BitVec.ofNat 64 r.2 = BitVec.ofNat 64 r.1
  | .event w => isCommand = false ∧ w &&& BitVec.ofNat 24 r.2 = BitVec.ofNat 24 r.1

/-- The word of the instruction, where it is well-formed under some number of ground pins, meets its row. -/
def Statement (i : Instr) : Prop := ∀ n : Nat, i.wellFormed n = true → meets (encode i) i.isCommand (row i)

/-- Masking four fields masks each of them. -/
theorem and_fields {a b c d : Nat} (x1 m1 : BitVec a) (x2 m2 : BitVec b) (x3 m3 : BitVec c) (x4 m4 : BitVec d) :
    (x1 ++ x2 ++ x3 ++ x4) &&& (m1 ++ m2 ++ m3 ++ m4) = (x1 &&& m1) ++ (x2 &&& m2) ++ (x3 &&& m3) ++ (x4 &&& m4) := by
  simp only [BitVec.and_append]

/-- A command word meets a row that its fields meet. -/
theorem command_meets {m v : Nat} (opc : Byte) (data : BitVec 16) (addr : BitVec 32) (m1 m2 : Byte) (m3 : BitVec 16)
    (m4 : BitVec 32) (hm : BitVec.ofNat 64 m = m1 ++ m2 ++ m3 ++ m4)
    (hv : (opc &&& m1) ++ ((0 : Byte) &&& m2) ++ (data &&& m3) ++ (addr &&& m4) = BitVec.ofNat 64 v) :
    commandWord opc data addr &&& BitVec.ofNat 64 m = BitVec.ofNat 64 v := by
  rw [hm, ← hv]
  exact and_fields opc m1 0 m2 data m3 addr m4

/-- An event word meets a row that its fields meet. -/
theorem event_meets {m v : Nat} (kind arg : BitVec 4) (id val : Byte) (m1 m2 : BitVec 4) (m3 m4 : Byte)
    (hm : BitVec.ofNat 24 m = m1 ++ m2 ++ m3 ++ m4)
    (hv : (kind &&& m1) ++ (arg &&& m2) ++ (id &&& m3) ++ (val &&& m4) = BitVec.ofNat 24 v) :
    eventWord kind arg id val &&& BitVec.ofNat 24 m = BitVec.ofNat 24 v := by
  rw [hm, ← hv]
  exact and_fields kind m1 arg m2 id m3 val m4

/-- Masking with nothing leaves nothing. -/
theorem and_none {w : Nat} (x : BitVec w) : x &&& (0 : BitVec w) = 0 := by simp

/-- A zero high byte survives no mask of the high byte alone. -/
theorem lowByte_and (d : Byte) : ((0x00 : Byte) ++ d) &&& (0xFF00 : BitVec 16) = 0 := by
  have h := BitVec.and_append (x₁ := (0 : Byte)) (x₂ := (0xFF : Byte)) (y₁ := d) (y₂ := (0 : Byte))
  rw [and_none] at h
  exact h

/-- An address in range has no bit of the mask of its row. -/
theorem address_and {a : BitVec 32} (h : addressInRange a = true) : a &&& 0xFFFC0000 = 0 := by
  have h' : a.extractLsb' 18 14 = 0 := by simpa [addressInRange] using h
  apply BitVec.eq_of_getLsbD_eq
  intro k hk
  have hm : ∀ k < 32, (0xFFFC0000 : BitVec 32).getLsbD k = decide (18 ≤ k) := by decide
  rw [BitVec.getLsbD_and, hm k hk]
  show _ = (0#32).getLsbD k
  rw [BitVec.getLsbD_zero]
  by_cases h18 : 18 ≤ k
  · have := congrArg (fun v => v.getLsbD (k - 18)) h'
    simp only [BitVec.getLsbD_extractLsb', show 18 + (k - 18) = k by omega, show k - 18 < 14 by omega] at this
    have h0 : a.getLsbD k = false := by simpa using this
    rw [h0, Bool.false_and]
  · simp [h18]

theorem idle : Statement .idle := fun _ _ => ⟨rfl, by decide⟩
theorem check : Statement .check := fun _ _ => ⟨rfl, by decide⟩
theorem ackint : Statement .ackint := fun _ _ => ⟨rfl, by decide⟩
theorem critenter : Statement .critenter := fun _ _ => ⟨rfl, by decide⟩
theorem critleave : Statement .critleave := fun _ _ => ⟨rfl, by decide⟩

theorem mread (a : BitVec 32) : Statement (.mread a) := fun _ h =>
  ⟨rfl, command_meets (m := 0xFFFFFFFFFFFC0000) (v := 0x0300000000000000)
    0x03 0 a 0xFF 0xFF 0xFFFF 0xFFFC0000 (by decide) (by rw [address_and h]; decide)⟩

theorem bcr (a : BitVec 32) : Statement (.bcr a) := fun _ h =>
  ⟨rfl, command_meets (m := 0xFFFFFFFFFFFC0000) (v := 0x0500000000000000)
    0x05 0 a 0xFF 0xFF 0xFFFF 0xFFFC0000 (by decide) (by rw [address_and h]; decide)⟩

theorem mwrite (a : BitVec 32) (d : Byte) : Statement (.mwrite a d) := fun _ h =>
  ⟨rfl, command_meets (m := 0xFFFFFF00FFFC0000) (v := 0x0400000000000000)
    0x04 _ a 0xFF 0xFF 0xFF00 0xFFFC0000 (by decide) (by rw [address_and h, lowByte_and]; decide)⟩

theorem bcw (a : BitVec 32) (d : BitVec 16) : Statement (.bcw a d) := fun _ h =>
  ⟨rfl, command_meets (m := 0xFFFF0000FFFC0000) (v := 0x0600000000000000)
    0x06 d a 0xFF 0xFF 0 0xFFFC0000 (by decide) (by rw [address_and h, and_none]; decide)⟩

theorem waitint (sel : Byte) (t : BitVec 32) : Statement (.waitint sel t) := fun _ _ =>
  ⟨rfl, command_meets (m := 0xFFFFFF0000000000) (v := 0x0700000000000000)
    0x07 _ t 0xFF 0xFF 0xFF00 0 (by decide) (by rw [and_none, lowByte_and]; decide)⟩

theorem setdir (p : Pin) (d : Dir) : Statement (.setdir p d) := fun _ _ =>
  ⟨rfl, event_meets (m := 0xF000FF) (v := 0x100000)
    1 (dirCode d) (pinId p) 0 0xF 0 0 0xFF (by decide) (by rw [and_none, and_none]; decide)⟩

theorem wrlvl (p : Pin) (l : Level) : Statement (.wrlvl p l) := fun _ _ =>
  ⟨rfl, event_meets (m := 0xFE00FF) (v := 0x200000)
    2 (levelCode l) (pinId p) 0 0xF 0xE 0 0xFF (by decide) (by rw [and_none]; cases l <;> decide)⟩

theorem rdlvl (p : Pin) (l : Level) : Statement (.rdlvl p l) := fun _ _ =>
  ⟨rfl, event_meets (m := 0xFE00FF) (v := 0x300000)
    3 (levelCode l) (pinId p) 0 0xF 0xE 0 0xFF (by decide) (by rw [and_none]; cases l <;> decide)⟩

theorem busdir (b : Bus) (d : Dir) : Statement (.busdir b d) := fun _ _ => by
  cases b <;> cases d <;> exact ⟨rfl, by decide⟩

theorem buswr (b : Bus) (v : Byte) : Statement (.buswr b v) := fun _ _ =>
  ⟨rfl, event_meets (m := 0xFFFE00) (v := 0x504000)
    5 0 (busId b) v 0xF 0xF 0xFE 0 (by decide) (by rw [and_none]; cases b <;> decide)⟩

theorem busrd (b : Bus) (v : Byte) : Statement (.busrd b v) := fun _ _ =>
  ⟨rfl, event_meets (m := 0xFFFE00) (v := 0x604000)
    6 0 (busId b) v 0xF 0xF 0xFE 0 (by decide) (by rw [and_none]; cases b <;> decide)⟩

end Sys2Proof.Laws.Row
end

