-- ==== Sys2Proof/Tests/Slice0.lean ====
section
/-! SUPPORT. Tests/Slice0.lean: the model's own tests, expected values from spec/95_test_vectors.md and the rules it cites, and
for every statement with hypotheses a witness that meets them. -/

namespace Sys2Proof.Tests

open Sys2Proof.Machine

/-! ## Small states -/

/-- The parameters of spec/95_test_vectors.md section 0. -/
def small : Config := { Config.reference with clockSamples := 4 }

/-- The post-IDLE pin state of spec/41_idle.md R171, every other field at reset. -/
def rest (c : Config) (tgt : Target) : State :=
  { State.resetWith c with
    dir := Vector.ofFn fun p => if p.val < 16 then .inputPullup else if p.val < 24 then .output else .input
    lat := Vector.ofFn fun p => if p ∈ [Pin.ras, Pin.cas, Pin.wlb, Pin.whb, Pin.bclr] then .high else .low
    target := tgt }

/-- W[0x123] = 0xBEEF. -/
def beef : Memory := [(0x246, 0xEF), (0x247, 0xBE)]

/-- After IDLE on H. -/
def onH : State := rest small (Target.healthyFor small)

/-- After IDLE on E with W[0x123] = 0xBEEF. -/
def onE : State := rest small (Target.echoFor small beef)

/-- After IDLE on H[p := l]. -/
def onForced (p : Pin) (l : Level) : State := rest small { Target.healthyFor small with forced := [(p, l)] }

/-- After IDLE on the unconstrained target with its answers foretold. -/
def onAnswers (ans : List Level) : State := rest small { Target.reset with answers := ans }

/-- Both buses OUT. -/
def busesOut : State := { onH with dir := Vector.ofFn fun p => if p.val < 24 then .output else .input }

/-- The next state of an outcome. -/
def nextOf (o : Host.Outcome State Fault Refusal) : Option State := match o with | .next s => some s | _ => none

/-- What an instruction's next state says of the trace it added, STATUS and RESULT. -/
def seenBy (i : Instr) (s : State) : Option (List EventWord × BitVec 32 × BitVec 16) :=
  (nextOf (exec i s)).map fun t => (emitted s t, t.status, t.result)

/-! ## Well-formedness: each check refuses an ill-formed term -/

/-- R106: an address value with a bit of 31:18 set. -/
theorem test_wellFormed_refuses_addresses :
    (Instr.mread 0x40246).wellFormed 1 = false ∧ (Instr.mwrite 0x80000246 0).wellFormed 1 = false ∧
    (Instr.bcr 0x40000).wellFormed 1 = false ∧ (Instr.bcw 0x40246 0).wellFormed 1 = false ∧
    (Instr.bcr 0x3FFFF).wellFormed 1 = true := by decide

/-- R32: a pin that does not exist, GND1 where P_NGND = 1. -/
theorem test_wellFormed_refuses_pins :
    (Instr.setdir 0x21 .output).wellFormed 1 = false ∧ (Instr.wrlvl 0x21 .low).wellFormed 1 = false ∧
    (Instr.rdlvl 0x21 .low).wellFormed 1 = false ∧ (Instr.setdir 0x20 .output).wellFormed 1 = true ∧
    (Instr.rdlvl 0x2F .low).wellFormed 16 = true := by decide

/-- R8: no ground pin, seventeen, no clock sample, two pins on one physical pin, a latch-enable pin that does not exist. -/
theorem test_wellFormed_refuses_configurations :
    Config.wellFormed { small with nGnd := 0 } = false ∧ Config.wellFormed { small with nGnd := 17 } = false ∧
    Config.wellFormed { small with clockSamples := 0 } = false ∧
    Config.wellFormed { small with pinMap := Vector.replicate 48 7 } = false ∧
    Config.wellFormed { small with latchEnablePin := 0x21 } = false ∧ small.wellFormed = true := by decide

/-! ## Decoding: words written out from the encoding tables -/

/-- R116 and L2.6. -/
theorem test_decode_commands :
    decodeCommand 0x0100000000000000 = .ok .idle ∧ decodeCommand 0x0200000000000000 = .ok .check ∧
    decodeCommand 0x0300000000010246 = .ok (.mread 0x10246) ∧
    decodeCommand 0x0400005A00020246 = .ok (.mwrite 0x20246 0x5A) ∧
    decodeCommand 0x0500000000030246 = .ok (.bcr 0x30246) ∧
    decodeCommand 0x0600BEEF00030246 = .ok (.bcw 0x30246 0xBEEF) ∧
    decodeCommand 0x0700000000000064 = .ok (.waitint 0 100) ∧ decodeCommand 0x0800000000000000 = .ok .ackint ∧
    decodeCommand 0x030000000003FFFF = .ok (.mread 0x3FFFF) ∧
    decodeCommand 0x07000000FFFFFFFF = .ok (.waitint 0 0xFFFFFFFF) := by decide

/-- L2.6: refused words, and why. -/
theorem test_decode_refuses_commands :
    decodeCommand 0 = .error .reservedOpcode ∧ decodeCommand 0x0900000000000000 = .error .reservedOpcode ∧
    decodeCommand 0x0101000000000000 = .error .reservedByte ∧ decodeCommand 0x0100000000000001 = .error .operandBits ∧
    decodeCommand 0x0200000100000000 = .error .operandBits ∧ decodeCommand 0x0300000080000246 = .error .addressBits ∧
    decodeCommand 0x0300000100010246 = .error .operandBits ∧ decodeCommand 0x0600BEEF00040246 = .error .addressBits ∧
    decodeCommand 0x0800000000000001 = .error .operandBits := by decide

/-- L2.1 and the examples of spec/40_gpio_primitives.md. -/
theorem test_decode_events :
    decodeEvent 1 0x111000 = .ok (.setdir 0x10 .output) ∧ decodeEvent 1 0x101B00 = .ok (.setdir 0x1B .input) ∧
    decodeEvent 1 0x211600 = .ok (.wrlvl 0x16 .high) ∧ decodeEvent 1 0x311800 = .ok (.rdlvl 0x18 .high) ∧
    decodeEvent 1 0x424000 = .ok (.busdir .low .inputPullup) ∧ decodeEvent 1 0x504102 = .ok (.buswr .high 0x02) ∧
    decodeEvent 1 0x6040EF = .ok (.busrd .low 0xEF) ∧ decodeEvent 1 0x700000 = .ok .critenter ∧
    decodeEvent 1 0x800000 = .ok .critleave := by decide

/-- L2.1: words a checker of traces must reject. -/
theorem test_decode_refuses_events :
    decodeEvent 1 0x000000 = .error .reservedKind ∧ decodeEvent 1 0x900000 = .error .reservedKind ∧
    decodeEvent 1 0x131000 = .error .badArg ∧ decodeEvent 1 0x112100 = .error .badId ∧
    decodeEvent 1 0x504200 = .error .badId ∧ decodeEvent 1 0x700001 = .error .badVal ∧
    decodeEvent 1 0x221600 = .error .badArg := by decide

/-- The encoder gives the words of R116 and L2.1. -/
theorem test_encode :
    encode (.bcw 0x30246 0xBEEF) = .command 0x0600BEEF00030246 ∧ encode (.waitint 1 100) = .command 0x0700000100000064 ∧
    encode (.setdir 0x10 .output) = .event 0x111000 ∧ encode (.busrd .high 0xBE) = .event 0x6041BE := by decide

/-- The host's numbering of spec/opcode_table.json reads the same words. -/
theorem test_decodeTableWord :
    decodeTableWord 64 0x0400000000000000 = some (.mwrite 0 0) ∧ decodeTableWord 24 0x304000 = none ∧
    decodeTableWord 24 0x404000 = some (.busdir .low .input) ∧ decodeTableWord 24 0x800000 = some .critleave := by decide

/-- R114, R115 and L2.6: text to words. -/
theorem test_assembler :
    assembleText "wrb  0x0247, 0xA5 ; odd byte" = .ok (some (.command 0x040000A500020246)) ∧
    assembleText "rdw 0x7FFF" = .ok (some (.command 0x050000000003FFFE)) ∧
    assembleText "rdw 0x8000" = .error .doesNotFit ∧ assembleText "waitint 0, 100" = .ok (some (.command 0x0700000000000064)) ∧
    assembleText "; nothing" = .ok none ∧ assembleText "mread" = .error .badLine := by decide

/-! ## Reset and steps -/

/-- Reset memory is in its canonical form, and reset waits. -/
theorem test_reset :
    State.reset.target.mem.wf ∧ (nextOf (step State.reset)) = some State.reset ∧ State.reset.lat[Pin.ras] = .low := by
  decide

/-- A refused word leaves its mark, and the next step answers it. -/
theorem test_step_refuses :
    (nextOf (step (State.reset.withFetchWord 64 0x0900000000000000))).map (fun s => (s.refusalMark, s.cmd, s.trace)) =
      some (some (.invalidCommand .reservedOpcode), 0x0900000000000000, []) := by decide

/-- A word of each size placed by `withFetchWord` runs first. -/
theorem test_withFetchWord :
    (nextOf (step (State.reset.withFetchWord 64 0x0800000000000000))).map (fun s => (s.status, s.posted)) =
      some (0, [(0, 0)]) ∧
    (nextOf (step (State.reset.withFetchWord 24 0x700000))).map (fun s => (s.crit, s.trace)) =
      some (true, [0x700000]) := by decide

/-! ## Micro-operations: L2.1 -/

theorem test_setdir : (nextOf (exec (.setdir 0x10 .output) State.reset)).map (fun s => (s.dir[Pin.ras], s.seen Pin.ras, s.trace)) =
    some (.output, .driven .low, [0x111000]) := by decide

/-- WRLVL of a pin that is still an input reaches no target. -/
theorem test_wrlvl : (nextOf (exec (.wrlvl 0x10 .high) State.reset)).map (fun s => (s.lat[Pin.ras], s.seen Pin.ras, s.trace)) =
    some (.high, .floating, [0x211000]) := by decide

theorem test_rdlvl : (nextOf (exec (.rdlvl 0x18 .low) onH)).map (fun s => (s.trace, s.faultMark)) =
    some ([0x311800], none) := by decide

theorem test_rdlvl_output : (nextOf (exec (.rdlvl 0x10 .low) onH)).map (fun s => (s.trace, s.faultMark)) =
    some ([], some (.readOfOutputPin 0x10)) := by decide

theorem test_busdir : (nextOf (exec (.busdir .high .output) onH)).map (fun s => (s.busDirection .high, s.busDirection .low, s.trace)) =
    some (.out, .inp, [0x414100]) := by decide

theorem test_buswr : (nextOf (exec (.buswr .high 0x02) busesOut)).map
      (fun s => (s.lat[Bus.member .high 1], s.lat[Bus.member .high 0], s.lat[Bus.member .low 1], s.trace)) =
    some (.high, .low, .low, [0x504102]) := by decide

theorem test_buswr_input : (nextOf (exec (.buswr .low 0x00) onH)).map (fun s => (s.trace, s.faultMark)) =
    some ([], some (.busWriteNotOutput .low)) := by decide

/-- R37: a bus's driven value is its latches, whatever its directions. -/
theorem test_driven_value : (driveBus .high 0xA5 onH).drivenValue .high = 0xA5 ∧ onH.busDirection .high = .inp ∧
    (nextOf (exec (.buswr .low 0x46) busesOut)).map (fun s => s.drivenValue .low) = some 0x46 := by decide

theorem test_busrd : (nextOf (exec (.busrd .low 0x00) (onAnswers [.high, .high, .high, .high, .low, .high, .high, .high]))).map
      (fun s => (s.trace, s.target.answers)) = some ([0x6040EF], []) := by decide

/-- One member OUT is enough. -/
theorem test_busrd_mixed : (nextOf (exec (.busrd .low 0x00) (setDir 3 .output onH))).map (fun s => (s.trace, s.faultMark)) =
    some ([0x110300], some (.busReadNotInput .low)) := by decide

theorem test_critenter : (nextOf (exec .critenter onH)).map (fun s => (s.crit, s.trace)) = some (true, [0x700000]) ∧
    (nextOf (exec .critenter { onH with crit := true })).map (fun s => (s.trace, s.faultMark)) =
      some ([], some .critNested) := by decide

theorem test_critleave : (nextOf (exec .critleave { onH with crit := true })).map (fun s => (s.crit, s.trace)) =
      some (false, [0x800000]) ∧
    (nextOf (exec .critleave onH)).map (fun s => (s.trace, s.faultMark)) = some ([], some .critUnbalanced) := by decide

/-! ## Commands: L2.2 to L2.5 -/

theorem test_idle_events : (seenBy .idle State.reset) = some (
    [0x211000, 0x111000, 0x211100, 0x111100, 0x211200, 0x111200, 0x211300, 0x111300, 0x211700, 0x111700, 0x201400, 0x111400,
     0x201500, 0x111500, 0x201600, 0x111600, 0x102000, 0x101800, 0x101900, 0x101A00, 0x101B00, 0x101C00, 0x101D00, 0x101E00,
     0x101F00, 0x424000, 0x424100], 0, 0) := by decide

theorem test_idle_pins : (nextOf (exec .idle State.reset)).map (fun s => (s.dir, s.lat)) =
    some ((rest Config.reference Target.reset).dir, (rest Config.reference Target.reset).lat) := by decide

theorem test_check_events : seenBy .check onH = some (
    [0x302000, 0x311800, 0x301900, 0x311A00, 0x301B00, 0x311B00, 0x301B00, 0x311B00, 0x6040FF, 0x6041FF, 0x201700, 0x6040FF,
     0x604136, 0x211700, 0x6040FF, 0x6041FF, 0x211400, 0x211500, 0x311C00, 0x311D00, 0x311E00, 0x311F00, 0x201500, 0x201400],
    0x00000000, 0) := by decide

/-- H[D12 := LOW]: the short test of step 4 names busHigh. -/
theorem test_check_short : (seenBy .check (onForced 0x0C .low)).map (fun r => (r.1.length, r.2)) =
    some (10, 0xEFFF4102, 0) := by decide

theorem test_bcr : seenBy (.bcr 0x30246) onE = some (
    [0x414000, 0x414100, 0x504046, 0x504102, 0x700000, 0x201000, 0x211600, 0x201600, 0x404000, 0x404100, 0x201100, 0x211400,
     0x211600, 0x201600, 0x6040EF, 0x6041BE, 0x211100, 0x201400, 0x211000, 0x800000], 0, 0xBEEF) := by decide +kernel

/-- Before IDLE, E sees no strobe. -/
theorem test_bcr_before_idle :
    (seenBy (.bcr 0x30246) { State.resetWith small with target := Target.echoFor small beef }).map (fun r => r.2) =
      some (0, 0xFFFF) := by decide +kernel

theorem test_bcw_high_lane : (nextOf (exec (.bcw 0x20246 0x1234) onE)).map (fun s => (emitted onE s, s.target.mem)) = some (
    [0x414000, 0x414100, 0x504046, 0x504102, 0x201300, 0x700000, 0x201000, 0x211600, 0x201600, 0x504134, 0x201100, 0x211400,
     0x211600, 0x201600, 0x211100, 0x201400, 0x211000, 0x800000, 0x424100, 0x211300],
    [(0x246, 0xEF), (0x247, 0x34)]) := by decide +kernel

/-- With lanes 00 nothing is stored and both buses stay OUT. -/
theorem test_bcw_no_lane : (nextOf (exec (.bcw 0x00246 0x1234) onE)).map
      (fun s => (s.target.mem, s.busDirection .low, s.busDirection .high, s.trace.length)) =
    some (beef, .out, .out, 16) := by decide +kernel

theorem test_mread_high_lane : (seenBy (.mread 0x20246) onE).map (fun r => r.2) = some (0, 0x00BE) := by decide +kernel

theorem test_mread_both_lanes : (seenBy (.mread 0x30246) onE).map (fun r => (r.1.length, r.2)) =
    some (20, 0, 0x00EF) := by decide +kernel

/-- The high byte is written as 0x00, so its entry of the memory goes. -/
theorem test_mwrite_both_lanes : (nextOf (exec (.mwrite 0x30246 0x5A) onE)).map (fun s => s.target.mem) =
    some [(0x246, 0x5A)] := by decide +kernel

theorem test_mwrite_low_lane : (nextOf (exec (.mwrite 0x10246 0x5A) onE)).map (fun s => (s.target.mem, s.busDirection .high)) =
    some ([(0x246, 0x5A), (0x247, 0xBE)], .out) := by decide +kernel

theorem test_waitint : seenBy (.waitint 1 100) onH = some ([], 0x00000003, 0) := by decide

theorem test_ackint : seenBy .ackint onH = some ([], 0, 0) ∧
    (nextOf (exec .ackint { onH with cfg := { small with intProfile := .other } })).map (fun s => (s.refusalMark, s.posted)) =
      some (some .interruptProfile, []) := by decide

/-! ## Witnesses: for every statement with hypotheses, a state and operands that meet them -/

/-- An unmarked state between commands with one word to come. -/
def withWord (s : State) (w : CommandWord) : State := { s with inbox := [w] }

/-- The answers H gives `small`'s CHECK, foretold. -/
def passing : List Level :=
  [.low, .high, .low, .high, .low, .high, .low, .high] ++ List.replicate 16 .high
  ++ (List.replicate 8 .high ++ [.low, .high, .high, .low, .high, .high, .low, .low]) ++ List.replicate 20 .high

/-- A CHECK state whose inputs and buses are readable. -/
def foretelling : State := onAnswers passing

/-- A target that presents 0x37FF while BCLR is asserted. -/
def onBadMode : State := rest small { Target.healthyFor small with modeWord := 0x37FF }

/-- Answers whose busLow does not return to all-ones once BCLR is released. -/
def onUnreleased : State := onAnswers (passing.set 40 .low)

/-- Every instruction answers some next state, in every state. -/
theorem exec_answers (i : Instr) (s : State) : ∃ t, exec i s = .next t := by cases i <;> exact ⟨_, rfl⟩

/-- StepRunsTheNextCommand. -/
theorem test_witness_next_command :
    (withWord onH 0x0200000000000000).unmarked ∧ (withWord onH 0x0200000000000000).micro = [] ∧
    (withWord onH 0x0200000000000000).inbox = [0x0200000000000000] ∧ decodeCommand 0x0200000000000000 = .ok .check := by
  refine ⟨⟨rfl, rfl⟩, rfl, rfl, by decide⟩

/-- StepRunsTheNextMicroOperation. -/
theorem test_witness_next_microOperation :
    (onH.withFetchWord 24 0x700000).unmarked ∧ (onH.withFetchWord 24 0x700000).micro = [0x700000] ∧
    decodeEvent onH.cfg.nGnd 0x700000 = .ok .critenter := ⟨⟨rfl, rfl⟩, rfl, by decide⟩

/-- InvalidCommandIsRefused. -/
theorem test_witness_invalid_command :
    (withWord onH 0).unmarked ∧ (withWord onH 0).micro = [] ∧ (withWord onH 0).inbox = [0] ∧
    decodeCommand 0 = .error .reservedOpcode := ⟨⟨rfl, rfl⟩, rfl, rfl, by decide⟩

/-- StepStopsWaitsOrGoesOn, clause by clause. -/
theorem test_witness_stops :
    (onH.raise .critNested).faultMark = some .critNested ∧
    ((onH.refuse .interruptProfile).faultMark = none ∧
      (onH.refuse .interruptProfile).refusalMark = some .interruptProfile) ∧
    onH.unmarked ∧ onH.micro = [] ∧ onH.inbox = [] := ⟨rfl, ⟨rfl, rfl⟩, ⟨rfl, rfl⟩, rfl, rfl⟩

/-- EventWordsAreChecked, clause by clause: KIND 0, 9 and 15, an accepted word, direction code 3, GND1 where P_NGND = 1. -/
theorem test_witness_event_words :
    ((0x000000 : EventWord) >>> 20).setWidth 4 = (0 : BitVec 4) ∧ 9 ≤ ((0x900000 : EventWord) >>> 20).toNat ∧
    9 ≤ ((0xF00000 : EventWord) >>> 20).toNat ∧ decodeEvent 1 0x504102 = .ok (.buswr .high 2) ∧
    (((0x131000 : EventWord) >>> 20).toNat = 1 ∧ 3 ≤ (((0x131000 : EventWord) >>> 16).setWidth 4).toNat) ∧
    (((0x112100 : EventWord) >>> 20).toNat = 1 ∧ (((0x112100 : EventWord) >>> 16).setWidth 4).toNat < 3 ∧
      0x20 + 1 ≤ (((0x112100 : EventWord) >>> 8).setWidth 8).toNat) := by decide

/-- DecodeOfEncodeIsIdentity: the highest address, the highest pin, and one instruction of every other constructor. -/
theorem test_witness_wellFormed :
    (Instr.bcw 0x3FFFF 0xFFFF).wellFormed 16 = true ∧ (Instr.mread 0x3FFFF).wellFormed 1 = true ∧
    (Instr.setdir 0x2F .inputPullup).wellFormed 16 = true ∧ (Instr.waitint 0xFF 0xFFFFFFFF).wellFormed 1 = true ∧
    (Instr.busrd .high 0xFF).wellFormed 1 = true := by decide

/-- EncodeOfDecodeIsIdentity. -/
theorem test_witness_decodes :
    decode 1 (.command 0x0600FFFF0003FFFE) = .ok (.bcw 0x3FFFE 0xFFFF) ∧ decode 1 (.event 0x312000) = .ok (.rdlvl 0x20 .high) := by
  decide

/-- PseudoInstructionsExpand, at the ends of each range. -/
theorem test_witness_pseudo :
    assemble (.rdb 0xFFFF) = .ok (.mread 0x2FFFE) ∧ assemble (.wrb 0 255) = .ok (.mwrite 0x10000 0xFF) ∧
    assemble (.rdw 0x7FFF) = .ok (.bcr 0x3FFFE) ∧ assemble (.wrw 0 65535) = .ok (.bcw 0x30000 0xFFFF) ∧
    assemble (.wrw 0x8000 0) = .error .doesNotFit := by decide

/-- RdlvlSamplesAnInput: an input, an input with pull-up, an output. -/
theorem test_witness_rdlvl :
    onH.dir[Pin.vcc] ≠ .output ∧ onH.dir[Bus.member .low 0] = .inputPullup ∧
    (onH.dir[Pin.ras] = .output ∧ onH.faultMark = none) := by decide

/-- BuswrDrivesEachBit, both clauses. -/
theorem test_witness_buswr :
    (∀ i, busesOut.dir[Bus.member .low i] = .output) ∧ (onH.dir[Bus.member .low 0] ≠ .output ∧ onH.faultMark = none) := by
  decide

/-- BusrdComposesEightSamples, both clauses and the eight foretold answers. -/
theorem test_witness_busrd :
    (∀ i, foretelling.dir[Bus.member .high i] ≠ .output) ∧
    ((passing.take 8).length = 8 ∧ foretelling.foretold (passing.take 8 ++ passing.drop 8)) ∧
    (busesOut.dir[Bus.member .high 7] = .output ∧ busesOut.faultMark = none) :=
  ⟨by decide, ⟨by decide, rfl, by decide⟩, by decide, rfl⟩

/-- CritenterSetsCrit and CritleaveClearsCrit, both clauses of each. -/
theorem test_witness_crit :
    onH.crit = false ∧ onH.faultMark = none ∧ { onH with crit := true }.crit = true ∧
    { onH with crit := true }.faultMark = none := ⟨rfl, rfl, rfl, rfl⟩

/-- MicroOperationFrame, TargetSeesEachEvent and MarksAreNeverCleared. -/
theorem test_witness_microOperations :
    (Instr.wrlvl Pin.cout .low).isCommand = false ∧ (∃ t, exec (.wrlvl Pin.cout .low) onE = .next t) ∧
    busesOut.busAllOut .high = true ∧ (∃ t, exec (.buswr .high 2) busesOut = .next t) ∧
    (∃ t, exec .critenter (onH.raise .critNested) = .next t) ∧
    (∃ t, exec .idle (onH.refuse .interruptProfile) = .next t) :=
  ⟨rfl, exec_answers _ _, by decide, exec_answers _ _, exec_answers _ _, exec_answers _ _⟩

/-- ClockEdgeStoresOnlyStrobedLanes: E in the data phase with WLB alone driven LOW; the odd byte and a third byte are kept, and
the even byte is the one the premise leaves out. -/
theorem test_witness_clock_edge :
    let s := wrLvl Pin.cas .low (wrLvl Pin.ras .low (wrLvl Pin.wlb .low onE))
    s.onEcho ∧ (∃ t, exec (.wrlvl Pin.cout .high) s = .next t) ∧
    (1 = (laneAddress s.target.la .high).toNat ∧ s.seen Pin.whb ≠ .driven .low) ∧
    (∀ b, 2 ≠ (laneAddress s.target.la b).toNat) ∧
    (0 = (laneAddress s.target.la .low).toNat ∧ s.seen Pin.wlb = .driven .low ∧ s.seen Pin.ras = .driven .low ∧
      s.seen Pin.cas = .driven .low) := by
  refine ⟨⟨by decide, by decide⟩, exec_answers _ _, by decide, fun b => by cases b <;> decide, by decide⟩

/-- The post-IDLE state meets every premise on pins: IdlePins, readable inputs and buses, released strobes. -/
theorem test_witness_idle_pins :
    onH.idlePins ∧ onE.idlePins ∧ onH.inputsReadable ∧ onH.busesReadable ∧ onE.strobesReleased := by
  refine ⟨⟨by decide, by decide, by decide, fun b => ?_⟩, ⟨by decide, by decide, by decide, fun b => ?_⟩, ?_, fun b => ?_, ?_⟩
  · cases b <;> decide
  · cases b <;> decide
  · unfold State.inputsReadable; decide
  · cases b <;> decide
  · unfold State.strobesReleased; decide

/-- IdleEmitsItsFixedSequence at sixteen ground pins; IdleReachesTheSafePinState and IdleFrame. -/
theorem test_witness_idle :
    (rest { small with nGnd := 16 } Target.reset).cfg.nGnd ≤ 16 ∧ (∃ t, exec .idle onH = .next t) ∧ onH.crit = false ∧
    pinExists onH.cfg.nGnd 0x21 = false := ⟨by decide, exec_answers _ _, rfl, by decide⟩

/-- CheckPassesOnTheHealthyTarget at the least number of samples that can pass. -/
theorem test_witness_check_passes :
    let c := { small with clockSamples := 2 }
    let s := rest c (Target.healthyFor c)
    s.idlePins ∧ s.onHealthy ∧ s.cfg.latchEnablePin = Pin.pi ∧ s.cfg.nGnd ≤ 16 ∧ 2 ≤ s.cfg.clockSamples := by
  refine ⟨⟨by decide, by decide, by decide, fun b => by cases b <;> decide⟩, ⟨rfl, rfl, rfl⟩, rfl, by decide, by decide⟩

/-- The table's events are those of R180: L2.3's passing trace, and the trace of a failure at VCC cut there. -/
theorem test_check_trace :
    seenBy .check foretelling = some (checkTrace (releaseEvents small) (checkRows small passing), 0, 0) ∧
    seenBy .check foretelling = seenBy .check onH ∧
    checkTrace (releaseEvents small) (checkRows small (passing.set 1 .low)) = [0x302000, 0x301800] := by decide +kernel

/-- CheckReportsTheFirstMismatch, with exactly the answers CHECK can use up: one list that passes and two that fail. -/
theorem test_witness_check_reports :
    foretelling.inputsReadable ∧ foretelling.busesReadable ∧ foretelling.cfg.wellFormed = true ∧
    foretelling.foretold passing ∧ foretelling.cfg.nGnd + 3 + foretelling.cfg.clockSamples + 52 ≤ passing.length ∧
    firstMismatch (checkRows foretelling.cfg passing) = .success ∧
    firstMismatch (checkRows foretelling.cfg (passing.set 40 .low)) = .busValueMismatch .low 0xFF 0xFE ∧
    firstMismatch (checkRows foretelling.cfg (passing.set 1 .low)) = .pinStateMismatch Pin.vcc .high .low ∧
    onUnreleased.foretold (passing.set 40 .low) := by
  refine ⟨?_, fun b => by cases b <;> decide, by decide, ⟨rfl, rfl⟩, by decide, by decide +kernel, by decide +kernel,
    by decide +kernel, ⟨rfl, rfl⟩⟩
  unfold State.inputsReadable; decide

/-- CheckPostsOrFaultsOnADrivenBus: its premises with the buses driven, where CHECK faults, and on `onH`, where it posts. -/
theorem test_witness_check_posts_or_faults :
    busesOut.inputsReadable ∧ busesOut.faultMark = none ∧
    (nextOf (exec .check busesOut)).map (fun s => s.faultMark) = some (some (.busReadNotInput .low)) ∧
    onH.faultMark = none := by
  refine ⟨?_, rfl, by decide +kernel, rfl⟩
  unfold State.inputsReadable; decide

/-- What CHECK posts, and whether BCLR was asserted and released. -/
def busFailure (s : State) : Option (List (BitVec 32 × BitVec 16) × Bool × Bool) :=
  (nextOf (exec .check s)).map fun t => (t.posted, (emitted s t).contains 0x201700, (emitted s t).contains 0x211700)

/-- H with mode word 0x37FF (L2.3) leaves BCLR LOW; a bus that does not return leaves it HIGH (R188, R308). -/
theorem test_check_bclr :
    (nextOf (exec .check onBadMode)).map (fun s => (s.status, s.lat[Pin.bclr])) = some (0x37364102, .low) ∧
    (nextOf (exec .check onUnreleased)).map (fun s => (s.status, s.lat[Pin.bclr])) = some (0xFEFF4002, .high) := by
  decide +kernel

/-- FailedCheckLeavesPinsAsTheyStand, clause by clause: the first and the last early pin, an AUX pin, and a bus in step 4, in
step 5 with BCLR asserted, and in step 5 after its release. -/
theorem test_witness_check_failures :
    (nextOf (exec .check (onForced 0x20 .high))).map (fun s => s.posted) =
      some [(encodeOutcome (.pinStateMismatch 0x20 .low .high), 0)] ∧
    (nextOf (exec .check (onForced 0x1B .high))).map (fun s => s.posted) =
      some [(encodeOutcome (.pinStateMismatch 0x1B .low .high), 0)] ∧
    (nextOf (exec .check (onForced 0x1C .low))).map (fun s => s.posted) =
      some [(encodeOutcome (.pinStateMismatch 0x1C .high .low), 0)] ∧
    busFailure (onForced 0x03 .low) = some ([(encodeOutcome (.busValueMismatch .low 0xFF 0xF7), 0)], false, false) ∧
    busFailure onBadMode = some ([(encodeOutcome (.busValueMismatch .high 0x36 0x37), 0)], true, false) ∧
    busFailure onUnreleased = some ([(encodeOutcome (.busValueMismatch .low 0xFF 0xFE), 0)], true, true) := by decide +kernel

/-- CheckFrame. -/
theorem test_witness_check_frame : (∃ t, exec .check onE = .next t) ∧ onE.cfg.latchEnablePin ≠ Pin.cout :=
  ⟨exec_answers _ _, by decide⟩

/-- Program P5: a write of the low lane alone, then CHECK: busHigh faults (R306). -/
theorem test_check_after_partial_write :
    ((nextOf (exec (.mwrite 0x10246 0x5A) onH)).bind fun t => nextOf (exec .check t)).map (fun u => u.faultMark) =
      some (some (.busReadNotInput .high)) := by decide +kernel

/-- CheckAfterPartialWriteFaults, for both writes, both orders, one lane and none. -/
theorem test_witness_partial_write :
    (∃ d, Instr.bcw 0x10246 1 = .bcw 0x10246 d) ∧ (∃ v, Instr.mwrite 0x00246 1 = .mwrite 0x00246 v) ∧
    { small with busCheckOrder := .highFirst }.wellFormed = true ∧
    onH.idlePins ∧ onH.onHealthy ∧ onH.cfg.wellFormed = true ∧ onH.cfg.busCheckOrder = .lowFirst ∧
    2 ≤ onH.cfg.clockSamples ∧ onH.crit = false ∧ onH.faultMark = none ∧
    ((0x10246 : BitVec 32).getLsbD 16 && (0x10246 : BitVec 32).getLsbD 17) = false ∧
    ((0x00246 : BitVec 32).getLsbD 16 && (0x00246 : BitVec 32).getLsbD 17) = false :=
  ⟨⟨_, rfl⟩, ⟨_, rfl⟩, by decide, test_witness_idle_pins.1, ⟨rfl, rfl, rfl⟩, by decide, rfl, by decide, rfl, rfl, by decide,
    by decide⟩

/-- The bus-cycle statements: CRIT = 0, the family, and a next state of each command; the nested cycle with CRIT = 1. -/
theorem test_witness_bus_cycle :
    onE.crit = false ∧ phaseOf (.bcr 0x30246) = .transacting ∧ phaseOf (.mwrite 0x00246 0) = .transacting ∧
    (∃ t, exec (.mread 0x30246) onE = .next t) ∧ (∃ t, exec (.bcw 0x10246 1) onE = .next t) ∧
    ({ onE with crit := true }.crit = true ∧ { onE with crit := true }.faultMark = none) :=
  ⟨rfl, rfl, rfl, exec_answers _ _, exec_answers _ _, rfl, rfl⟩

/-- BusCycleFrame: a canonical memory, and a byte outside both words. -/
theorem test_witness_bus_cycle_frame :
    onE.target.mem.wf ∧ ∀ b, 0x248 ≠ (laneAddress (addressOf (.bcw 0x30246 0)) b).toNat ∧
      0x248 ≠ (laneAddress onE.target.la b).toNat := ⟨by decide, fun b => by cases b <;> decide⟩

/-- EventCountsAreFixed, its clause on a CHECK that succeeds. -/
theorem test_witness_event_counts :
    onH.cfg.nGnd ≤ 16 ∧ (nextOf (exec .check onH)).map (fun t => t.posted) = some (onH.posted ++ [(0, 0)]) ∧
    (∃ t, exec (.waitint 0 100) onH = .next t) := ⟨by decide, by decide +kernel, exec_answers _ _⟩

/-- BusCycleBeforeIdleReachesNoStrobe: the reset state. -/
theorem test_witness_before_idle :
    State.reset.crit = false ∧
    ∀ p ∈ [Pin.ras, Pin.cas, Pin.wlb, Pin.whb, Pin.dls, Pin.cout], State.reset.dir[p] = .input := by decide

/-- EchoRoundTripLaw: an address value in range for each setting of the lanes, 00, 01, 10 and 11. -/
theorem test_witness_round_trip :
    (addressInRange 0x0FFFE = true ∧ ((0x0FFFE : BitVec 32).getLsbD 16 || (0x0FFFE : BitVec 32).getLsbD 17) = false) ∧
    (addressInRange 0x1FFFE = true ∧ (0x1FFFE : BitVec 32).getLsbD 16 = true ∧ (0x1FFFE : BitVec 32).getLsbD 17 = false) ∧
    (addressInRange 0x2FFFE = true ∧ (0x2FFFE : BitVec 32).getLsbD 16 = false ∧ (0x2FFFE : BitVec 32).getLsbD 17 = true) ∧
    (addressInRange 0x3FFFE = true ∧ ((0x3FFFE : BitVec 32).getLsbD 16 && (0x3FFFE : BitVec 32).getLsbD 17) = true) := by
  decide

/-- The echo statements: E after IDLE, a 16-bit write and a byte write of the highest word. -/
theorem test_witness_echo :
    onE.strobesReleased ∧ onE.onEcho ∧ onE.crit = false ∧ addressInRange 0x3FFFE = true ∧
    ((0x3FFFE : BitVec 32).getLsbD 16 && (0x3FFFE : BitVec 32).getLsbD 17) = true ∧
    (∃ v : Byte, Instr.mwrite 0x3FFFE 0x5A = .mwrite 0x3FFFE v ∧ (0x005A : BitVec 16) = v.setWidth 16) :=
  ⟨test_witness_idle_pins.2.2.2.2, ⟨rfl, by decide⟩, rfl, by decide, by decide, ⟨0x5A, rfl, by decide⟩⟩

/-- The interrupt statements: both profiles. -/
theorem test_witness_interrupt_profile :
    onH.cfg.intProfile = .reference ∧ { onH with cfg := { small with intProfile := .other } }.cfg.intProfile ≠ .reference ∧
    { onH with cfg := { small with intProfile := .other } }.unmarked := ⟨rfl, by decide, rfl, rfl⟩

/-- CommandsWriteOnlyTheirState and CommandPostsOnceOrMarks: an unmarked state, and a CHECK that leaves it unmarked. -/
theorem test_witness_commands :
    Instr.check.isCommand = true ∧ onH.crit = false ∧ onH.unmarked ∧
    (nextOf (exec .check onH)).map (fun t => (t.faultMark, t.refusalMark)) = some (none, none) :=
  ⟨rfl, rfl, ⟨rfl, rfl⟩, by decide +kernel⟩

/-- The statements about a step: between commands, readable inputs, valid trace words, canonical memory, and a next state. -/
theorem test_witness_steps :
    onE.between ∧ onE.inputsReadable ∧ onE.faultMark = none ∧ onE.cfg.wellFormed = true ∧
    (∀ w ∈ onE.trace, ∃ i, decodeEvent onE.cfg.nGnd w = .ok i) ∧ onE.target.mem.wf ∧ (∃ t, step onE = .next t) := by
  refine ⟨⟨rfl, rfl⟩, ?_, rfl, by decide, fun w hw => absurd hw (by simp [onE, rest, State.resetWith]), by decide, ⟨_, rfl⟩⟩
  unfold State.inputsReadable; decide

/-- DutifulHarnessNeverMeetsAFault: boot, a write, IDLE and CHECK again; and a sequence that breaks a duty is refused. -/
theorem test_witness_dutiful :
    small.wellFormed = true ∧ small.intProfile = .reference ∧
    (∀ i ∈ [Instr.idle, .check, .mwrite 0x10246 1, .idle, .check, .bcr 0x30246], i.wellFormed small.nGnd = true) ∧
    dutiful .fresh [.idle, .check, .mwrite 0x10246 1, .idle, .check, .bcr 0x30246] = true ∧
    dutiful .fresh [.idle, .check, .mwrite 0x10246 1, .check] = false := by decide

/-- CommandIsItsEventsReplayed and PinMapAndMemberOrderHaveNoEffect. -/
theorem test_witness_replay :
    (Instr.bcw 0x30246 1).isCommand = true ∧ (Instr.bcw 0x30246 1).wellFormed onE.cfg.nGnd = true ∧
    onE.cfg.wellFormed = true ∧ onE.unmarked ∧ onE.micro = [] ∧ (∃ t, exec (.bcw 0x30246 1) onE = .next t) :=
  ⟨rfl, by decide, by decide, ⟨rfl, rfl⟩, rfl, exec_answers _ _⟩

/-- ResetMeetsTheInvariants: the configurations R8 admits, at both ends of P_NGND. -/
theorem test_witness_configurations :
    Config.reference.wellFormed = true ∧ Config.wellFormed { Config.reference with nGnd := 16 } = true := by decide

end Sys2Proof.Tests
end

section
/-! The family of spec/00_scope.md: what no micro-operation sees, the micro-step, the replay of a command's events, and the
two parameters no instruction depends on. -/

namespace Sys2Proof.Machine

/-! ## What no micro-operation sees: the configuration and the micro-step -/

/-- `s` with its configuration and its micro-step rewritten. -/
def State.recast (φ : Config → Config) (μ : List EventWord → List EventWord) (s : State) : State :=
  { s with cfg := φ s.cfg, micro := μ s.micro }

/-- A sequence with the state it has come to rewritten. -/
def Flow.mapState {α : Type} (g : State → State) : Flow α → Flow α
  | .done a s => .done a (g s)
  | .failed o s => .failed o (g s)
  | .faulted f s => .faulted f (g s)

section recast
variable (φ : Config → Config) (μ : List EventWord → List EventWord) (s : State)

@[simp] theorem State.recast_dir : (s.recast φ μ).dir = s.dir := rfl

@[simp] theorem State.recast_lat : (s.recast φ μ).lat = s.lat := rfl
@[simp] theorem State.recast_withDir (x : Vector Dir 48) : (s.recast φ μ).withDir x = (s.withDir x).recast φ μ := rfl
@[simp] theorem State.recast_withLat (x : Vector Level 48) : (s.recast φ μ).withLat x = (s.withLat x).recast φ μ := rfl
@[simp] theorem State.recast_emit (w : EventWord) : (s.recast φ μ).emit w = (s.emit w).recast φ μ := rfl

/-! ### The micro-operations -/

@[simp] theorem setDir_recast (p : Pin) (d : Dir) : setDir p d (s.recast φ μ) = (setDir p d s).recast φ μ := rfl
@[simp] theorem wrLvl_recast (p : Pin) (l : Level) : wrLvl p l (s.recast φ μ) = (wrLvl p l s).recast φ μ := rfl
@[simp] theorem busDir_recast (b : Bus) (d : Dir) : busDir b d (s.recast φ μ) = (busDir b d s).recast φ μ := by
  simp only [busDir, State.recast_dir, State.recast_withDir, State.recast_emit]
@[simp] theorem driveBus_recast (b : Bus) (v : Byte) : driveBus b v (s.recast φ μ) = (driveBus b v s).recast φ μ := by
  simp only [driveBus, State.recast_lat, State.recast_withLat, State.recast_emit]
@[simp] theorem enterRegion_recast : enterRegion (s.recast φ μ) = (enterRegion s).recast φ μ := rfl
@[simp] theorem leaveRegion_recast : leaveRegion (s.recast φ μ) = (leaveRegion s).recast φ μ := rfl
@[simp] theorem sample_recast (p : Pin) : (s.recast φ μ).sample p = s.sample p := rfl
@[simp] theorem samplePin_recast (p : Pin) : samplePin p (s.recast φ μ) = (samplePin p s).recast φ μ := rfl

@[simp] theorem sampleMembers_recast (b : Bus) (n : Nat) : (s.recast φ μ).sampleMembers b n = s.sampleMembers b n := by
  induction n with
  | zero => rfl
  | succ n ih =>
    simp only [State.sampleMembers, ih]
    rfl

@[simp] theorem busSample_recast (b : Bus) : (s.recast φ μ).busSample b = s.busSample b := by
  simp only [State.busSample, sampleMembers_recast]

@[simp] theorem sampleBus_recast (b : Bus) : sampleBus b (s.recast φ μ) = (sampleBus b s).recast φ μ := by
  simp only [sampleBus, sampleMembers_recast, busSample_recast]
  rfl

/-- A micro-operation runs alike whatever the configuration and the rest of the micro-step. -/
theorem MicroStep.recast {i : Instr} {t : State} (h : MicroStep i s t) : MicroStep i (s.recast φ μ) (t.recast φ μ) := by
  cases h with
  | setdir p d => exact .setdir p d _
  | wrlvl p l => exact .wrlvl p l _
  | rdlvl p _ h => exact .rdlvl p (s.recast φ μ) h
  | busdir b d => simpa only [busDir_recast] using MicroStep.busdir b d (s.recast φ μ)
  | buswr b v _ h => simpa only [driveBus_recast] using MicroStep.buswr b v (s.recast φ μ) h
  | busrd b _ h => simpa only [busSample_recast, sampleBus_recast] using MicroStep.busrd b (s.recast φ μ) h
  | critenter _ h => exact .critenter (s.recast φ μ) h
  | critleave _ h => exact .critleave (s.recast φ μ) h

end recast

/-! ## The micro-step (R12, R140) -/

/-- An unmarked state with a micro-operation's word at the micro-step runs that micro-operation. -/
theorem step_micro {s : State} {w : EventWord} {rest : List EventWord} {i : Instr} (hu : s.unmarked)
    (hm : s.micro = w :: rest) (hd : decodeEvent s.cfg.nGnd w = .ok i) : step s = exec i (s.withMicro rest) := by
  unfold step
  rw [stopped_eq_none.mpr hu]
  simp only [State.fetch, hm, Fetched.word, decode, hd]

/-- Settles O3. -/
theorem stepRunsTheNextMicroOperation : Obligations.StepRunsTheNextMicroOperation := by
  unfold Obligations.StepRunsTheNextMicroOperation
  intro s w rest i hu hm hd
  exact step_micro hu hm hd

/-- A micro-operation that can run to its end does so as an instruction. -/
theorem MicroStep.exec_eq {i : Instr} {s t : State} (h : MicroStep i s t) : exec i s = .next t := by
  cases h with
  | setdir p d => rfl
  | wrlvl p l => rfl
  | rdlvl p _ h => simp only [exec, execRdlvl, rdLvl_done h, Flow.settle_done]
  | busdir b d => rfl
  | buswr b v _ h => simp only [exec, execBuswr, busWr_done v h, Flow.settle_done]
  | busrd b _ h => simp only [exec, execBusrd, busRd_done h, Flow.settle_done]
  | critenter _ h => simp only [exec, execCritenter, critEnter_done h, Flow.settle_done]
  | critleave _ h => simp only [exec, execCritleave, critLeave_done h, Flow.settle_done]

/-! ## The events of a command spell its micro-operations -/

/-- The event word of a well-formed micro-operation decodes to it (R109, R110). -/
theorem decodeEvent_eventOf {n : Nat} {i : Instr} (hc : i.isCommand = false) (hw : i.wellFormed n = true) :
    decodeEvent n (eventOf i) = .ok i := by
  cases i with
  | setdir p d => simp [eventOf, encode, decodeEvent, decodeSetdir, pinOfId_pinId hw]
  | wrlvl p l => simp [eventOf, encode, decodeEvent, decodePinLevel, pinOfId_pinId hw]
  | rdlvl p l => simp [eventOf, encode, decodeEvent, decodePinLevel, pinOfId_pinId hw]
  | busdir b d => simp [eventOf, encode, decodeEvent, decodeBusdir]
  | buswr b v => simp [eventOf, encode, decodeEvent, decodeBusValue]
  | busrd b v => simp [eventOf, encode, decodeEvent, decodeBusValue]
  | critenter => simp [eventOf, encode, decodeEvent, decodeCrit]
  | critleave => simp [eventOf, encode, decodeEvent, decodeCrit]
  | _ => cases hc

/-- Only the micro-operations are micro-steps. -/
theorem MicroStep.isCommand_eq_false {i : Instr} {s t : State} (h : MicroStep i s t) : i.isCommand = false := by
  cases h <;> rfl

/-- A pin below the ground pins exists, whatever P_NGND (R32). -/
theorem pinExists_of_lt (n : Nat) {p : Pin} (h : p.val < 0x20) : pinExists n p = true :=
  decide_eq_true (Nat.lt_add_right n h)

theorem pinExists_of_mem_inputOnlyPins {n : Nat} {p : Pin} (h : p ∈ inputOnlyPins n) : pinExists n p = true :=
  ((mem_inputOnlyPins n p).mp h).2

theorem IdleOp.wellFormed {n : Nat} {j : Instr} (h : IdleOp n j) : j.wellFormed n = true := by
  have control : ∀ p ∈ controlPins, pinExists n p = true := fun p hp =>
    pinExists_of_lt n ((by decide : ∀ p ∈ controlPins, p.val < 0x20) p hp)
  cases j with
  | setdir p d =>
    cases d with
    | input => exact pinExists_of_mem_inputOnlyPins h
    | output => exact control p h
    | inputPullup => exact h.elim
  | wrlvl p l => exact control p h
  | busdir b d => rfl
  | _ => exact h.elim

theorem CheckOp.wellFormed {c : Config} {j : Instr} (hc : pinExists c.nGnd c.latchEnablePin = true) (h : CheckOp c j) :
    j.wellFormed c.nGnd = true := by
  cases j with
  | wrlvl p l =>
    rcases h with rfl | rfl | rfl
    · exact pinExists_of_lt _ (by decide)
    · exact pinExists_of_lt _ (by decide)
    · exact hc
  | rdlvl p l => exact pinExists_of_mem_inputOnlyPins h
  | busrd b v => rfl
  | _ => exact h.elim

theorem CycleOp.wellFormed {n : Nat} {j : Instr} (h : CycleOp j) : j.wellFormed n = true := by
  cases j with
  | wrlvl p l => exact pinExists_of_lt n ((by decide : ∀ p ∈ cyclePins, p.val < 0x20) p h)
  | busdir b d => rfl
  | buswr b v => rfl
  | busrd b v => rfl
  | critenter => rfl
  | critleave => rfl
  | _ => exact h.elim

/-- Every micro-operation of a command names pins that exist. -/
theorem Allowed.wellFormed {c : Config} {i j : Instr} (hi : i.isCommand = true) (hc : c.wellFormed = true)
    (h : Allowed c i j) : j.wellFormed c.nGnd = true := by
  have hlatch : pinExists c.nGnd c.latchEnablePin = true := (Bool.and_eq_true_iff.mp hc).2
  cases i with
  | idle => exact IdleOp.wellFormed h
  | check => exact CheckOp.wellFormed hlatch h
  | mread a => exact CycleOp.wellFormed h
  | mwrite a d => exact CycleOp.wellFormed h
  | bcr a => exact CycleOp.wellFormed h
  | bcw a d => exact CycleOp.wellFormed h
  | waitint sel timeoutMs => exact h.elim
  | ackint => exact h.elim
  | _ => cases hi

/-! ## The replay of a command's events (R12, R42, R140) -/

/-- The first of `k + 1` steps, where it answers a next state. -/
theorem run_succ_of_step {M : Host.Core} {s t : M.State} (h : M.step s = .next t) (k : Nat) :
    M.run (k + 1) s = M.run k t := by
  rw [Host.Core.run, h]

/-- A micro-operation whose event stands at the micro-step is the next step. -/
theorem MicroStep.step_eq {i : Instr} {s t : State} (h : MicroStep i s t) (hu : s.unmarked)
    (hw : i.wellFormed s.cfg.nGnd = true) (ws : List EventWord) :
    step (s.withMicro (eventOf i :: ws)) = .next (t.withMicro ws) :=
  (step_micro (s := s.withMicro (eventOf i :: ws)) hu rfl (decodeEvent_eventOf h.isCommand_eq_false hw)).trans
    (h.recast id fun _ => ws).exec_eq

/-- Micro-operations run one after another are their events run one step each. -/
theorem MicroRun.replay {is : List Instr} {s u : State} (h : MicroRun is s u) (hu : s.unmarked)
    (hw : ∀ i ∈ is, i.wellFormed s.cfg.nGnd = true) :
    Host.Core.run core is.length (s.withMicro (is.map eventOf)) = .next (u.withMicro []) := by
  induction h with
  | nil s => rfl
  | @cons i is s t u h _ ih =>
    have hends := h.sameEnds
    have hut : t.unmarked := ⟨hends.faultMark.trans hu.1, hends.refusalMark.trans hu.2⟩
    rw [List.map_cons, List.length_cons, run_succ_of_step (M := core) (h.step_eq hu (hw i (by simp)) _)]
    exact ih hut fun j hj => by rw [hends.cfg]; exact hw j (by simp [hj])

/-- What an end writes, taken back: the state the micro-operations came to. -/
theorem Closed.undo {s u t : State} (h : Closed u t) (he : SameEnds s u) (hu : s.unmarked) (hm : s.micro = []) :
    { t with status := s.status, result := s.result, posted := s.posted, faultMark := none, refusalMark := none } =
      u.withMicro [] := by
  obtain ⟨hf, hr⟩ := hu
  rw [← he.status, ← he.result, ← he.posted, ← hf, ← hr, ← he.faultMark, ← he.refusalMark, ← hm, ← he.micro]
  cases h <;> rfl

/-- Settles O59: a command's run of micro-operations is replayed by its events, and its end is all that is left out. -/
theorem commandIsItsEventsReplayed : Obligations.CommandIsItsEventsReplayed := by
  unfold Obligations.CommandIsItsEventsReplayed
  intro i s t hi _ hc hu hm hexec
  obtain ⟨u, hgoes, hclosed⟩ := exec_next hexec
  have hends := hgoes.sameEnds
  obtain ⟨is, hrun, hallowed⟩ := hgoes
  have hemitted : emitted s t = is.map eventOf := by
    rw [emitted, hclosed.samePins.trace, hrun.trace, List.drop_left]
  rw [hemitted, List.length_map, hclosed.undo hends hu hm]
  exact hrun.replay hu fun j hj => (hallowed j hj).wellFormed hi hc

/-! ## P_PINMAP and P_BUS_ORDER (R8, R36) -/

/-! ### Sequences from a rewritten state -/

section mapState
variable {α β : Type} (g : State → State)

@[simp] theorem Flow.mapState_done (a : α) (s : State) : (Flow.done a s).mapState g = .done a (g s) := rfl
@[simp] theorem Flow.mapState_faulted (f : Fault) (s : State) :
    (Flow.faulted f s : Flow α).mapState g = .faulted f (g s) := rfl

variable {g}

/-- Two parts that each run alike from a rewritten state run alike in sequence. -/
theorem Flow.andThen_mapState {x y : Flow α} {k : α → State → Flow β} (hx : y = x.mapState g)
    (hk : ∀ a s, k a (g s) = (k a s).mapState g) : y.andThen k = (x.andThen k).mapState g := by
  subst hx
  cases x with
  | done a s => exact hk a s
  | failed o s => rfl
  | faulted f s => rfl

theorem eachOf_mapState {f : α → State → Flow Unit} (hf : ∀ x s, f x (g s) = (f x s).mapState g) (xs : List α)
    (s : State) : eachOf f xs (g s) = (eachOf f xs s).mapState g := by
  induction xs generalizing s with
  | nil => rfl
  | cons x xs ih => exact Flow.andThen_mapState (hf x s) fun _ t => ih t

end mapState

/-! ### Bus cycles read nothing of the configuration -/

section busCycle
variable (φ : Config → Config) (μ : List EventWord → List EventWord) (a : BitVec 32) (d : BitVec 16) (s : State)

@[simp] theorem onlyIf_recast {f : State → State} (hf : ∀ t, f (t.recast φ μ) = (f t).recast φ μ) (c : Bool) :
    onlyIf c f (s.recast φ μ) = (onlyIf c f s).recast φ μ := by
  cases c
  · rfl
  · exact hf s

/-- `onlyIf_recast` for a pin write, whose premise simp does not close once a pin's name has become a number. -/
@[simp] theorem onlyIf_wrLvl_recast (c : Bool) (p : Pin) (l : Level) :
    onlyIf c (wrLvl p l) (s.recast φ μ) = (onlyIf c (wrLvl p l) s).recast φ μ :=
  onlyIf_recast φ μ s (fun t => wrLvl_recast φ μ t p l) c

@[simp] theorem addressed_recast : addressed a (s.recast φ μ) = (addressed a s).recast φ μ := by simp [addressed]
@[simp] theorem assertStrobes_recast : assertStrobes a (s.recast φ μ) = (assertStrobes a s).recast φ μ := by
  simp [assertStrobes]
@[simp] theorem pulseClock_recast : pulseClock (s.recast φ μ) = (pulseClock s).recast φ μ := by simp [pulseClock]
@[simp] theorem rowPhase_recast : rowPhase (s.recast φ μ) = (rowPhase s).recast φ μ := by simp [rowPhase]
@[simp] theorem releaseBuses_recast : releaseBuses (s.recast φ μ) = (releaseBuses s).recast φ μ := by simp [releaseBuses]
@[simp] theorem dataDriven_recast : dataDriven a d (s.recast φ μ) = (dataDriven a d s).recast φ μ := by simp [dataDriven]
@[simp] theorem columnPhase_recast : columnPhase (s.recast φ μ) = (columnPhase s).recast φ μ := by simp [columnPhase]
@[simp] theorem dataSampled_recast : dataSampled a (s.recast φ μ) = (dataSampled a s).recast φ μ := by simp [dataSampled]
@[simp] theorem sampledResult_recast : sampledResult a (s.recast φ μ) = sampledResult a s := by
  simp [sampledResult, laneByte]
@[simp] theorem deassert_recast : deassert (s.recast φ μ) = (deassert s).recast φ μ := by simp [deassert]
@[simp] theorem releaseLanes_recast : releaseLanes a (s.recast φ μ) = (releaseLanes a s).recast φ μ := by
  simp [releaseLanes]
@[simp] theorem readReady_recast : readReady a (s.recast φ μ) = (readReady a s).recast φ μ := by
  rw [readReady, addressed_recast, enterRegion_recast, rowPhase_recast, releaseBuses_recast, columnPhase_recast, readReady]
@[simp] theorem readDone_recast : readDone a (s.recast φ μ) = (readDone a s).recast φ μ := by simp [readDone]
@[simp] theorem writeDone_recast : writeDone a d (s.recast φ μ) = (writeDone a d s).recast φ μ := by simp [writeDone]

/-- A bus cycle runs alike whatever the configuration. -/
theorem busCycle_recast (r : Bool) : busCycle a d r (s.recast φ μ) = (busCycle a d r s).mapState (State.recast φ μ) := by
  cases hc : s.crit with
  | true => rw [busCycle_nested _ _ _ s hc, busCycle_nested _ _ _ (s.recast φ μ) hc]; simp
  | false =>
    cases r with
    | true => rw [busCycle_read _ _ s hc, busCycle_read _ _ (s.recast φ μ) hc]; simp
    | false => rw [busCycle_write _ _ s hc, busCycle_write _ _ (s.recast φ μ) hc]; simp

end busCycle

/-! ### The configuration with another pin map and member order -/

/-- `c` with another pin map and member order. -/
def relabelConfig (m : Vector Nat 48) (o : MemberOrder) (c : Config) : Config := { c with pinMap := m, memberOrder := o }

/-- `s` with another pin map and member order. -/
abbrev State.relabel (m : Vector Nat 48) (o : MemberOrder) : State → State := State.recast (relabelConfig m o) id

section relabel
variable (m : Vector Nat 48) (o : MemberOrder) (s : State)

theorem rdLvl_relabel (p : Pin) : rdLvl p (s.relabel m o) = (rdLvl p s).mapState (State.relabel m o) := by
  by_cases h : s.dir[p] = .output
  · rw [rdLvl_fault h, rdLvl_fault (s := s.relabel m o) h, Flow.mapState_faulted]
  · rw [rdLvl_done h, rdLvl_done (s := s.relabel m o) h, Flow.mapState_done, sample_recast, samplePin_recast]

theorem busRd_relabel (b : Bus) : busRd b (s.relabel m o) = (busRd b s).mapState (State.relabel m o) := by
  by_cases h : ∃ i, s.dir[b.member i] = .output
  · rw [busRd_fault h, busRd_fault (s := s.relabel m o) h, Flow.mapState_faulted]
  · have hin : ∀ i, s.dir[b.member i] ≠ .output := not_exists.mp h
    rw [busRd_done hin, busRd_done (s := s.relabel m o) hin, Flow.mapState_done, busSample_recast, sampleBus_recast]

theorem busWr_relabel (b : Bus) (v : Byte) : busWr b v (s.relabel m o) = (busWr b v s).mapState (State.relabel m o) := by
  by_cases h : ∀ i, s.dir[b.member i] = .output
  · rw [busWr_done v h, busWr_done v (s := s.relabel m o) h, Flow.mapState_done, driveBus_recast]
  · have hin : ∃ i, s.dir[b.member i] ≠ .output := not_forall.mp h
    rw [busWr_fault v hin, busWr_fault v (s := s.relabel m o) hin, Flow.mapState_faulted]

theorem critEnter_relabel : critEnter (s.relabel m o) = (critEnter s).mapState (State.relabel m o) := by
  cases h : s.crit with
  | true => rw [critEnter_fault h, critEnter_fault (s := s.relabel m o) h, Flow.mapState_faulted]
  | false => rw [critEnter_done h, critEnter_done (s := s.relabel m o) h, Flow.mapState_done, enterRegion_recast]

theorem critLeave_relabel : critLeave (s.relabel m o) = (critLeave s).mapState (State.relabel m o) := by
  cases h : s.crit with
  | true => rw [critLeave_done h, critLeave_done (s := s.relabel m o) h, Flow.mapState_done, leaveRegion_recast]
  | false => rw [critLeave_fault h, critLeave_fault (s := s.relabel m o) h, Flow.mapState_faulted]

theorem expectLevel_relabel (p : Pin) (l : Level) :
    expectLevel p l (s.relabel m o) = (expectLevel p l s).mapState (State.relabel m o) :=
  Flow.andThen_mapState (rdLvl_relabel m o s p) fun got t => by split <;> rfl

theorem expectBus_relabel (b : Bus) (v : Byte) :
    expectBus b v (s.relabel m o) = (expectBus b v s).mapState (State.relabel m o) :=
  Flow.andThen_mapState (busRd_relabel m o s b) fun got t => by split <;> rfl

theorem sampleClock_relabel (n : Nat) (lo hi : Bool) :
    sampleClock n lo hi (s.relabel m o) = (sampleClock n lo hi s).mapState (State.relabel m o) := by
  induction n generalizing lo hi s with
  | zero => rfl
  | succ n ih =>
    exact Flow.andThen_mapState (rdLvl_relabel m o s _) fun l t => by
      cases l with
      | low => exact ih t true hi
      | high => exact ih t lo true

/-! ### The six steps of CHECK (R180) -/

theorem checkPower_relabel : checkPower (s.relabel m o) = (checkPower s).mapState (State.relabel m o) :=
  Flow.andThen_mapState (eachOf_mapState (fun g t => expectLevel_relabel m o t g .low) (groundPins s.cfg.nGnd) s)
    fun _ t => Flow.andThen_mapState (expectLevel_relabel m o t _ _) fun _ u => expectLevel_relabel m o u _ _

theorem checkClock_relabel : checkClock (s.relabel m o) = (checkClock s).mapState (State.relabel m o) :=
  Flow.andThen_mapState (sampleClock_relabel m o s s.cfg.clockSamples false false) fun saw t => by
    cases saw.1 <;> cases saw.2 <;> rfl

theorem checkAllOnes_relabel : checkAllOnes (s.relabel m o) = (checkAllOnes s).mapState (State.relabel m o) :=
  eachOf_mapState (fun b t => expectBus_relabel m o t b 0xFF) (busOrder s.cfg.busCheckOrder) s

theorem checkModeBytes_relabel : checkModeBytes (s.relabel m o) = (checkModeBytes s).mapState (State.relabel m o) :=
  eachOf_mapState (fun b t => expectBus_relabel m o t b (byteOf b s.cfg.modeWord)) (busOrder s.cfg.busCheckOrder) s

theorem checkMode_relabel : checkMode (s.relabel m o) = (checkMode s).mapState (State.relabel m o) :=
  Flow.andThen_mapState (checkModeBytes_relabel m o (wrLvl Pin.bclr .low s)) fun _ t =>
    checkAllOnes_relabel m o (wrLvl Pin.bclr .high t)

theorem checkLatch_relabel : checkLatch (s.relabel m o) = (checkLatch s).mapState (State.relabel m o) :=
  Flow.andThen_mapState
    (eachOf_mapState (fun p t => expectLevel_relabel m o t p .high) [Pin.aux0, Pin.aux1, Pin.aux2, Pin.aux3]
      (wrLvl s.cfg.latchEnablePin .high (wrLvl Pin.dls .high s)))
    fun _ _ => rfl

/-- CHECK reads neither parameter. -/
theorem selfCheck_relabel : selfCheck (s.relabel m o) = (selfCheck s).mapState (State.relabel m o) :=
  Flow.andThen_mapState (checkPower_relabel m o s) fun _ t1 =>
  Flow.andThen_mapState (expectLevel_relabel m o t1 _ _) fun _ t2 =>
  Flow.andThen_mapState (checkClock_relabel m o t2) fun _ t3 =>
  Flow.andThen_mapState (checkAllOnes_relabel m o t3) fun _ t4 =>
  Flow.andThen_mapState (checkMode_relabel m o t4) fun _ t5 => checkLatch_relabel m o t5

/-! ### IDLE and the placeholders -/

/-- IDLE reads neither parameter. -/
theorem idled_relabel : idled (s.relabel m o) = (idled s).relabel m o := by
  have drive : ∀ l p t, driveControl l p (State.relabel m o t) = (driveControl l p t).relabel m o := fun _ _ _ => rfl
  have controls : idleControls (s.relabel m o) = (idleControls s).relabel m o := by
    simp only [idleControls, List.foldl, drive]
  have inputs : ∀ t, idleInputs (State.relabel m o t) = (idleInputs t).relabel m o := fun t =>
    List.foldl_hom (State.relabel m o) fun _ _ => rfl
  simp only [idled, idleBuses, controls, inputs, busDir_recast]

theorem inReferenceProfile_relabel (t : State) :
    inReferenceProfile (s.relabel m o) (t.relabel m o) = (inReferenceProfile s t).relabel m o := by
  have hprofile : (s.relabel m o).cfg.intProfile = s.cfg.intProfile := rfl
  unfold inReferenceProfile
  rw [hprofile]
  cases s.cfg.intProfile <;> rfl

/-! ### Every instruction -/

theorem succeed_relabel (r : BitVec 16) : (s.relabel m o).succeed r = (s.succeed r).relabel m o := rfl

theorem close_relabel {α : Type} (x : Flow α) (r : α → BitVec 16) :
    (x.mapState (State.relabel m o)).close r = (x.close r).relabel m o := by
  cases x <;> rfl

theorem settle_relabel {α : Type} (x : Flow α) :
    (x.mapState (State.relabel m o)).settle = x.settle.relabel m o := by
  cases x <;> rfl

theorem busCycle_close_relabel (a : BitVec 32) (d : BitVec 16) (r : Bool) (f : BitVec 16 → BitVec 16) :
    (busCycle a d r (s.relabel m o)).close f = ((busCycle a d r s).close f).relabel m o := by
  rw [busCycle_recast, close_relabel]

/-- No instruction reads either parameter. -/
theorem exec_relabel (i : Instr) : ∃ t, exec i s = .next t ∧ exec i (s.relabel m o) = .next (t.relabel m o) := by
  cases i with
  | idle =>
    refine ⟨(idled s).succeed 0, rfl, congrArg Host.Outcome.next ?_⟩
    rw [← succeed_relabel, ← idled_relabel, idled]
  | check =>
    refine ⟨_, rfl, congrArg Host.Outcome.next ?_⟩
    rw [selfCheck_relabel, close_relabel]
  | mread a => exact ⟨_, rfl, congrArg Host.Outcome.next (busCycle_close_relabel m o s _ _ _ _)⟩
  | mwrite a d => exact ⟨_, rfl, congrArg Host.Outcome.next (busCycle_close_relabel m o s _ _ _ _)⟩
  | bcr a => exact ⟨_, rfl, congrArg Host.Outcome.next (busCycle_close_relabel m o s _ _ _ _)⟩
  | bcw a d => exact ⟨_, rfl, congrArg Host.Outcome.next (busCycle_close_relabel m o s _ _ _ _)⟩
  | waitint n k =>
    exact ⟨_, rfl, congrArg Host.Outcome.next (inReferenceProfile_relabel m o s (s.fail .notImplemented))⟩
  | ackint => exact ⟨_, rfl, congrArg Host.Outcome.next (inReferenceProfile_relabel m o s (s.succeed 0))⟩
  | setdir p d => exact ⟨_, rfl, congrArg Host.Outcome.next (setDir_recast _ _ s p d)⟩
  | wrlvl p l => exact ⟨_, rfl, congrArg Host.Outcome.next (wrLvl_recast _ _ s p l)⟩
  | rdlvl p l =>
    refine ⟨_, rfl, congrArg Host.Outcome.next ?_⟩
    rw [rdLvl_relabel, settle_relabel]
  | busdir b d => exact ⟨_, rfl, congrArg Host.Outcome.next (busDir_recast _ _ s b d)⟩
  | buswr b v =>
    refine ⟨_, rfl, congrArg Host.Outcome.next ?_⟩
    rw [busWr_relabel, settle_relabel]
  | busrd b v =>
    refine ⟨_, rfl, congrArg Host.Outcome.next ?_⟩
    rw [busRd_relabel, settle_relabel]
  | critenter =>
    refine ⟨_, rfl, congrArg Host.Outcome.next ?_⟩
    rw [critEnter_relabel, settle_relabel]
  | critleave =>
    refine ⟨_, rfl, congrArg Host.Outcome.next ?_⟩
    rw [critLeave_relabel, settle_relabel]

end relabel

/-- Settles O60. -/
theorem pinMapAndMemberOrderHaveNoEffect : Obligations.PinMapAndMemberOrderHaveNoEffect := by
  unfold Obligations.PinMapAndMemberOrderHaveNoEffect
  intro i s t m o h
  obtain ⟨t', ht', hrelabel⟩ := exec_relabel m o s i
  rw [h] at ht'
  cases ht'
  exact hrelabel

end Sys2Proof.Machine
end

section
/-! The family of spec/10_state.md: power-on reset, what every step keeps, and which command writes which state
(R38 to R48). -/

namespace Sys2Proof.Machine

/-! ## Power-on reset (R48) -/

/-- Settles O1. -/
theorem resetGivesEveryValue : Obligations.ResetGivesEveryValue := by
  unfold Obligations.ResetGivesEveryValue
  intro c
  have hpins : ∀ p : Pin, (State.resetWith c).dir[p] = .input ∧ (State.resetWith c).lat[p] = c.resetLatch := fun p => by
    simp [State.resetWith]
  exact ⟨hpins, rfl, rfl, show decodeCommand 0 = _ by decide, rfl, rfl, rfl, ⟨rfl, rfl⟩, rfl, rfl, rfl⟩

/-- Settles O57. -/
theorem resetMeetsTheInvariants : Obligations.ResetMeetsTheInvariants := by
  unfold Obligations.ResetMeetsTheInvariants
  intro c _
  have hinputs : (State.resetWith c).inputsReadable := fun p _ _ => by simp [State.resetWith]
  have hmem : (State.resetWith c).target.mem.wf := ⟨List.Pairwise.nil, fun _ h => absurd h List.not_mem_nil⟩
  have htrace : ∀ w ∈ (State.resetWith c).trace, ∃ i, decodeEvent c.nGnd w = .ok i := fun _ h =>
    absurd h List.not_mem_nil
  exact ⟨⟨rfl, rfl⟩, hinputs, ⟨rfl, rfl⟩, hmem, htrace, by decide, rfl⟩

/-! ## The configuration and the history (R42, R43) -/

/-- `t` has the configuration of `s`, and its trace and posted pairs go on from those of `s`. -/
structure Continues (s t : State) : Prop where
  cfg : t.cfg = s.cfg
  trace : s.trace <+: t.trace
  posted : s.posted <+: t.posted

theorem Continues.refl (s : State) : Continues s s := ⟨rfl, List.prefix_rfl, List.prefix_rfl⟩

theorem Continues.trans {s t u : State} (h : Continues s t) (k : Continues t u) : Continues s u :=
  ⟨k.cfg.trans h.cfg, h.trace.trans k.trace, h.posted.trans k.posted⟩

theorem MicroStep.continues {i : Instr} {s t : State} (h : MicroStep i s t) : Continues s t where
  cfg := h.sameEnds.cfg
  trace := ⟨_, h.trace.symm⟩
  posted := h.sameEnds.posted ▸ List.prefix_rfl

theorem Closed.continues {u t : State} (h : Closed u t) : Continues u t where
  cfg := h.samePins.cfg
  trace := h.samePins.trace ▸ List.prefix_rfl
  posted := by
    rcases h.posted_once with hp | hp
    · exact hp ▸ List.prefix_rfl
    · exact ⟨_, hp.symm⟩

/-- Settles O52: every micro-operation and every end of an instruction continues the state before it. -/
theorem stepKeepsConfigurationAndHistory : Obligations.StepKeepsConfigurationAndHistory := by
  unfold Obligations.StepKeepsConfigurationAndHistory
  intro s t h
  have hst : Continues s t := step_keeps (Continues s) h (.refl s)
    (hmicro := fun _ _ hs => ⟨hs.cfg, hs.trace, hs.posted⟩)
    (hcmd := fun _ _ _ hs => ⟨hs.cfg, hs.trace, hs.posted⟩)
    (hrefuse := fun _ _ hs => ⟨hs.cfg, hs.trace, hs.posted⟩)
    (hrun := fun _ _ _ hm hs => hs.trans hm.continues)
    (hend := fun _ _ hc hs => hs.trans hc.continues)
  exact ⟨hst.cfg, hst.trace, hst.posted⟩

/-! ## CRIT (R38, R212) -/

@[simp] theorem readDone_crit (a : BitVec 32) (s : State) : (readDone a s).crit = false := rfl

@[simp] theorem releaseLanes_crit (a : BitVec 32) (s : State) : (releaseLanes a s).crit = s.crit := by
  unfold releaseLanes
  rw [onlyIf_keeps State.crit _ _ _ (by simp), onlyIf_keeps State.crit _ _ _ (by simp),
    onlyIf_keeps State.crit _ _ _ (by simp), onlyIf_keeps State.crit _ _ _ (by simp)]

@[simp] theorem writeDone_crit (a : BitVec 32) (d : BitVec 16) (s : State) : (writeDone a d s).crit = false := by
  simp [writeDone]

/-- A bus cycle begun outside the critical region ends outside it. -/
theorem busCycle_crit (a : BitVec 32) (d : BitVec 16) (r : Bool) {s : State} (h : s.crit = false) :
    (busCycle a d r s).state.crit = false := by
  cases r with
  | true => rw [busCycle_read a d s h]; exact readDone_crit a s
  | false => rw [busCycle_write a d s h]; exact writeDone_crit a d s

/-- Only CRITENTER and CRITLEAVE write CRIT. -/
theorem MicroStep.crit_eq {j : Instr} {s t : State} (h : MicroStep j s t) (hj : j ≠ .critenter ∧ j ≠ .critleave) :
    t.crit = s.crit := by
  cases h with
  | critenter => exact absurd rfl hj.1
  | critleave => exact absurd rfl hj.2
  | _ => simp

/-- The four bus-cycle commands are bus cycles at the address of their operand, each with its end (R224 to R227). -/
theorem exec_transacting {i : Instr} (hp : phaseOf i = .transacting) (s : State) :
    ∃ a d r f, addressOf i = a.setWidth 16 ∧ exec i s = .next ((busCycle a d r s).close f) := by
  cases i with
  | mread a => exact ⟨a, _, true, _, rfl, rfl⟩
  | mwrite a d => exact ⟨a, _, false, _, rfl, rfl⟩
  | bcr a => exact ⟨a, _, true, _, rfl, rfl⟩
  | bcw a d => exact ⟨a, _, false, _, rfl, rfl⟩
  | _ => cases hp

/-- Of the commands only a bus cycle enters and leaves the critical region. -/
theorem Allowed.ne_crit {c : Config} {i j : Instr} (hi : i.isCommand = true) (hp : phaseOf i ≠ .transacting)
    (h : Allowed c i j) : j ≠ .critenter ∧ j ≠ .critleave := by
  cases i with
  | idle => constructor <;> rintro rfl <;> exact h
  | check => constructor <;> rintro rfl <;> exact h
  | waitint n k => exact h.elim
  | ackint => exact h.elim
  | mread a => exact absurd rfl hp
  | mwrite a d => exact absurd rfl hp
  | bcr a => exact absurd rfl hp
  | bcw a d => exact absurd rfl hp
  | _ => cases hi

/-- A command executed with CRIT = 0 leaves CRIT = 0. -/
theorem exec_command_crit {i : Instr} {s t : State} (hi : i.isCommand = true) (hs : s.crit = false)
    (h : exec i s = .next t) : t.crit = false := by
  by_cases hp : phaseOf i = .transacting
  · obtain ⟨a, d, r, f, _, he⟩ := exec_transacting hp s
    obtain rfl : (busCycle a d r s).close f = t := Host.Outcome.next.inj (he.symm.trans h)
    exact (closed_close (busCycle a d r s) f).samePins.crit.trans (busCycle_crit a d r hs)
  · obtain ⟨u, hg, hc⟩ := exec_next h
    have hu : u.crit = false :=
      hg.keeps (fun v => v.crit = false) (fun _ _ _ ha hm hv => (hm.crit_eq (ha.ne_crit hi hp)).trans hv) hs
    exact hc.samePins.crit.trans hu

/-- No instruction writes the micro-step. -/
theorem exec_micro {i : Instr} {s t : State} (h : exec i s = .next t) : t.micro = s.micro := by
  obtain ⟨u, hg, hc⟩ := exec_next h
  exact hc.samePins.micro.trans hg.sameEnds.micro

/-- Settles O53: between commands only a command word can run, and a command that starts with CRIT = 0 ends with it. -/
theorem stepKeepsTheSequencerBetweenCommands : Obligations.StepKeepsTheSequencerBetweenCommands := by
  unfold Obligations.StepKeepsTheSequencerBetweenCommands
  intro s t hs h
  obtain ⟨hmicro, hcrit⟩ := hs
  cases (step_next h).2 with
  | waited _ _ ht => exact ht ▸ ⟨hmicro, hcrit⟩
  | badEvent w rest _ hm => cases hmicro.symm.trans hm
  | ranMicro w rest _ hm => cases hmicro.symm.trans hm
  | badCommand w rest why _ _ _ ht => exact ht ▸ ⟨hmicro, hcrit⟩
  | ranCommand w rest i _ _ hd he =>
    have hcrit' : ((s.withInbox rest).withCmd w).crit = false := hcrit
    exact ⟨(exec_micro he).trans hmicro, exec_command_crit (decodeCommand_isCommand hd) hcrit' he⟩

/-! ## One post or one mark (R40, R41, R270, R295) -/

/-- How a command ends, after micro-operations that took `s` to some `u`: it posts, faults, or is refused. -/
inductive CommandEnd (s : State) : State → Prop where
  | posted {u : State} (st : BitVec 32) (r : BitVec 16) (h : SameEnds s u) : CommandEnd s (u.post st r)
  | raised {u : State} (f : Fault) (h : SameEnds s u) : CommandEnd s (u.raise f)
  | refused {u : State} (r : Refusal) (h : SameEnds s u) : CommandEnd s (u.refuse r)

theorem commandEnd_close {α : Type} {s : State} {x : Flow α} (r : α → BitVec 16) (h : SameEnds s x.state) :
    CommandEnd s (x.close r) := by
  cases x with
  | done a u => exact .posted _ _ h
  | failed o u => exact .posted _ _ h
  | faulted f u => exact .raised f h

theorem commandEnd_inReferenceProfile {s t : State} (h : CommandEnd s t) : CommandEnd s (inReferenceProfile s t) := by
  unfold inReferenceProfile
  split
  · exact h
  · exact .refused _ (.refl s)

/-- Every command comes to its end. -/
theorem exec_command_end {i : Instr} (hi : i.isCommand = true) (s : State) :
    ∃ t, exec i s = .next t ∧ CommandEnd s t := by
  have cycle : ∀ a d r f, CommandEnd s ((busCycle a d r s).close f) := fun a d r f =>
    commandEnd_close f (busCycle_goes a d r s).sameEnds
  cases i with
  | idle => exact ⟨_, rfl, .posted _ _ (idle_goes s).sameEnds⟩
  | check => exact ⟨_, rfl, commandEnd_close _ (check_goes s).sameEnds⟩
  | mread a => exact ⟨_, rfl, cycle _ _ _ _⟩
  | mwrite a d => exact ⟨_, rfl, cycle _ _ _ _⟩
  | bcr a => exact ⟨_, rfl, cycle _ _ _ _⟩
  | bcw a d => exact ⟨_, rfl, cycle _ _ _ _⟩
  | waitint n k => exact ⟨_, rfl, commandEnd_inReferenceProfile (.posted _ _ (.refl s))⟩
  | ackint => exact ⟨_, rfl, commandEnd_inReferenceProfile (.posted _ _ (.refl s))⟩
  | _ => cases hi

/-- Settles O50: the end that posts leaves no mark, and the other two keep what micro-operations cannot write. -/
theorem commandPostsOnceOrMarks : Obligations.CommandPostsOnceOrMarks := by
  unfold Obligations.CommandPostsOnceOrMarks
  intro i s hi hs
  obtain ⟨hfault, hrefusal⟩ := hs
  obtain ⟨t, he, hend⟩ := exec_command_end hi s
  refine ⟨t, he, ?_⟩
  cases hend with
  | posted st r h =>
    exact .inl ⟨⟨h.faultMark.trans hfault, h.refusalMark.trans hrefusal⟩, congrArg (· ++ [(st, r)]) h.posted⟩
  | @raised u f h =>
    have hmark : (u.raise f).faultMark = some f := by rw [State.raise_faultMark, h.faultMark, hfault]; rfl
    exact .inr ⟨fun ht => Option.some_ne_none f (hmark.symm.trans ht.1), h.posted, h.status, h.result⟩
  | @refused u r h =>
    have hmark : (u.refuse r).refusalMark = some r := by rw [State.refuse_refusalMark, h.refusalMark, hrefusal]; rfl
    exact .inr ⟨fun ht => Option.some_ne_none r (hmark.symm.trans ht.2), h.posted, h.status, h.result⟩

/-! ## The frame of one micro-operation on the pins (R140) -/

/-- A direction changes only under SETDIR of its pin, or BUSDIR where the pin is a bus member. -/
theorem MicroStep.dir_eq {j : Instr} {s t : State} (h : MicroStep j s t) (q : Pin) (hq : ∀ d, j ≠ .setdir q d)
    (hb : 16 ≤ q.val ∨ ∀ b d, j ≠ .busdir b d) : t.dir[q] = s.dir[q] := by
  cases h with
  | setdir p d =>
    rw [setDir_dir, getElem_setPin, if_neg]
    rintro rfl
    exact hq d rfl
  | busdir b d =>
    rw [busDir_dir]
    exact getElem_setMembers_control _ _ _ _ (hb.resolve_right fun h => h b d rfl)
  | _ => simp

/-- A latch changes only under WRLVL of its pin, or BUSWR where the pin is a bus member. -/
theorem MicroStep.lat_eq {j : Instr} {s t : State} (h : MicroStep j s t) (q : Pin) (hq : ∀ l, j ≠ .wrlvl q l)
    (hb : 16 ≤ q.val ∨ ∀ b v, j ≠ .buswr b v) : t.lat[q] = s.lat[q] := by
  cases h with
  | wrlvl p l =>
    rw [wrLvl_lat, getElem_setPin, if_neg]
    rintro rfl
    exact hq l rfl
  | buswr b v =>
    rw [driveBus_lat]
    exact getElem_setMembers_control _ _ _ _ (hb.resolve_right fun h => h b v rfl)
  | _ => simp

/-- A run keeps a direction that each of its micro-operations keeps. -/
theorem Goes.dir_eq {A : Instr → Prop} {s t : State} (h : Goes A s t) (q : Pin)
    (hA : ∀ j, A j → (∀ d, j ≠ .setdir q d) ∧ (16 ≤ q.val ∨ ∀ b d, j ≠ .busdir b d)) : t.dir[q] = s.dir[q] :=
  h.keeps (fun u => u.dir[q] = s.dir[q]) (fun j _ _ ha hm hu => (hm.dir_eq q (hA j ha).1 (hA j ha).2).trans hu) rfl

/-- A run keeps a latch that each of its micro-operations keeps. -/
theorem Goes.lat_eq {A : Instr → Prop} {s t : State} (h : Goes A s t) (q : Pin)
    (hA : ∀ j, A j → (∀ l, j ≠ .wrlvl q l) ∧ (16 ≤ q.val ∨ ∀ b v, j ≠ .buswr b v)) : t.lat[q] = s.lat[q] :=
  h.keeps (fun u => u.lat[q] = s.lat[q]) (fun j _ _ ha hm hu => (hm.lat_eq q (hA j ha).1 (hA j ha).2).trans hu) rfl

/-- A bus-cycle command performs the micro-operations of a bus cycle. -/
theorem exec_transacting_next {i : Instr} {s t : State} (hp : phaseOf i = .transacting) (h : exec i s = .next t) :
    ∃ u, Goes CycleOp s u ∧ SamePins u t := by
  obtain ⟨u, hg, hc⟩ := exec_next h
  refine ⟨u, hg.mono fun j hj => ?_, hc.samePins⟩
  cases i with
  | mread a => exact hj
  | mwrite a d => exact hj
  | bcr a => exact hj
  | bcw a d => exact hj
  | _ => cases hp

/-- A bus-cycle command writes no direction but the bus members'. -/
theorem exec_transacting_dir {i : Instr} {s t : State} (hp : phaseOf i = .transacting) (h : exec i s = .next t)
    {q : Pin} (hq : 16 ≤ q.val) : t.dir[q] = s.dir[q] := by
  obtain ⟨u, hg, hc⟩ := exec_transacting_next hp h
  rw [hc.dir]
  exact hg.dir_eq q fun _ hj => ⟨fun _ he => (he ▸ hj : CycleOp (.setdir q _)).elim, .inl hq⟩

/-- A bus-cycle command writes no latch but the bus members' and those of its own pins. -/
theorem exec_transacting_lat {i : Instr} {s t : State} (hp : phaseOf i = .transacting) (h : exec i s = .next t)
    {q : Pin} (hq : 16 ≤ q.val) (hn : q ∉ cyclePins) : t.lat[q] = s.lat[q] := by
  obtain ⟨u, hg, hc⟩ := exec_transacting_next hp h
  rw [hc.lat]
  exact hg.lat_eq q fun _ hj => ⟨fun _ he => hn (he ▸ hj : CycleOp (.wrlvl q _)), .inl hq⟩

/-! ## The echo target's memory over a bus cycle (R85) -/

/-- A byte of memory is the target's alone. -/
theorem echoByte_congr {s t : State} (h : t.target.mem = s.target.mem) (x : Nat) : t.echoByte x = s.echoByte x :=
  congrArg (Memory.read · x) h

/-- A stored lane changes no byte but its own. -/
theorem echoStore_read (s : State) (strobe : Pin) (b : Bus) {m : Memory} (hm : m.wf) {x : Nat}
    (hx : x ≠ (laneAddress s.target.la b).toNat) : (echoStore s strobe b m).read x = m.read x := by
  unfold echoStore
  split
  · rw [Memory.writeBytes_one, Memory.read_write _ _ _ _ hm, if_neg hx.symm]
  · rfl

/-- A clock edge changes no byte but the two lanes of the latched address. -/
theorem echoClock_read {s : State} (hm : s.target.mem.wf) {x : Nat}
    (hx : ∀ b, x ≠ (laneAddress s.target.la b).toNat) : (echoClock s).mem.read x = s.target.mem.read x := by
  unfold echoClock
  split
  · split
    · rfl
    · split
      · exact (echoStore_read s _ _ (echoStore_wf _ _ _ _ hm) (hx .high)).trans (echoStore_read s _ _ hm (hx .low))
      · rfl
  · rfl

/-- A clock edge keeps the latched address, or latches what the buses carry. -/
theorem echoClock_la (s : State) :
    (echoClock s).la = s.target.la ∨ (echoClock s).la = s.busValue .high ++ s.busValue .low := by
  unfold echoClock
  split
  · split
    · exact .inr rfl
    · split <;> exact .inl rfl
  · exact .inl rfl

/-- A pin write changes no byte but the two lanes of the latched address. -/
theorem wrLvl_echoByte (p : Pin) (l : Level) {s : State} (hm : s.target.mem.wf) {x : Nat}
    (hx : ∀ b, x ≠ (laneAddress s.target.la b).toNat) : (wrLvl p l s).echoByte x = s.echoByte x := by
  rw [State.echoByte, wrLvl_target, State.react]
  split
  · exact echoClock_read (s := (s.withLat (s.lat.set p l)).emit _) hm hx
  · rfl

/-- Writing a pin that is no bus member keeps the buses' driven values. -/
theorem wrLvl_drivenValue {p : Pin} (l : Level) (s : State) (b : Bus) (hp : 16 ≤ p.val) :
    (wrLvl p l s).drivenValue b = s.drivenValue b :=
  byteOfBits_congr fun i => by
    have := member_lt b i
    rw [wrLvl_lat, getElem_setPin, if_neg]
    rintro rfl
    omega

/-- Driving one bus keeps the other's driven value. -/
theorem driveBus_drivenValue_other {b c : Bus} (hbc : b ≠ c) (v : Byte) (s : State) :
    (driveBus b v s).drivenValue c = s.drivenValue c :=
  byteOfBits_congr fun i => by rw [driveBus_lat, getElem_setMembers_other _ hbc]

/-- Writing a pin that is no bus member, both buses OUT, keeps the latched address or latches the buses' driven
values. -/
theorem wrLvl_la {p : Pin} (l : Level) {s : State} (hp : 16 ≤ p.val)
    (hout : ∀ (b : Bus) i, s.dir[b.member i] = .output) :
    (wrLvl p l s).target.la = s.target.la ∨
      (wrLvl p l s).target.la = s.drivenValue .high ++ s.drivenValue .low := by
  let written := (s.withLat (s.lat.set p l)).emit (eventWord 2 (levelCode l) (pinId p) 0)
  have hv : ∀ b, written.busValue b = s.drivenValue b := fun b => by
    rw [busValue_of_allOut written b ((busAllOut_iff written b).mpr (hout b))]
    exact (drivenValue_congr (s := written) (t := wrLvl p l s) rfl b).trans (wrLvl_drivenValue l s b hp)
  rw [wrLvl_target, State.react]
  split
  · rw [← hv, ← hv]
    exact echoClock_la written
  · exact .inl rfl

@[simp] theorem addressed_target (a : BitVec 32) (s : State) : (addressed a s).target = s.target := by simp [addressed]

theorem assertStrobes_target (a : BitVec 32) (s : State) : (assertStrobes a s).target = s.target := by
  unfold assertStrobes
  rw [onlyIf_keeps State.target _ _ _ (by simp), onlyIf_keeps State.target _ _ _ (by simp)]

/-- The address is what both buses carry after step 1 (R214). -/
theorem addressed_drivenValue (a : BitVec 32) (s : State) :
    (addressed a s).drivenValue .high ++ (addressed a s).drivenValue .low = a.setWidth 16 := by
  rw [addressed, driveBus_drivenValue, driveBus_drivenValue_other (by decide), driveBus_drivenValue]
  exact (BitVec.extractLsb'_append_extractLsb'_eq_extractLsb' rfl).trans
    (BitVec.setWidth_eq_extractLsb' (by decide)).symm

theorem assertStrobes_drivenValue (a : BitVec 32) (s : State) (b : Bus) :
    (assertStrobes a s).drivenValue b = s.drivenValue b := by
  unfold assertStrobes
  rw [onlyIf_keeps (State.drivenValue · b) _ _ _ (wrLvl_drivenValue _ _ _ (by decide)),
    onlyIf_keeps (State.drivenValue · b) _ _ _ (wrLvl_drivenValue _ _ _ (by decide))]

/-- What step 3 of a bus cycle at `A` from `s` leaves for the clock: the target of `s`, and both buses OUT and carrying
`A`. -/
structure Presented (A : BitVec 16) (s e : State) : Prop where
  target : e.target = s.target
  out : ∀ (b : Bus) i, e.dir[b.member i] = .output
  value : e.drivenValue .high ++ e.drivenValue .low = A

theorem presented_addressed (a : BitVec 32) (s : State) : Presented (a.setWidth 16) s (addressed a s) :=
  ⟨addressed_target a s, addressed_dir a s, addressed_drivenValue a s⟩

theorem presented_strobed (a : BitVec 32) (s : State) :
    Presented (a.setWidth 16) s (assertStrobes a (addressed a s)) where
  target := (assertStrobes_target a _).trans (addressed_target a s)
  out b i := by rw [assertStrobes_dir]; exact addressed_dir a s b i
  value := by rw [assertStrobes_drivenValue, assertStrobes_drivenValue]; exact addressed_drivenValue a s

theorem Presented.enterRegion {A : BitVec 16} {s e : State} (h : Presented A s e) : Presented A s (enterRegion e) :=
  ⟨h.target, h.out, h.value⟩

/-- The two clock pulses of a cycle at `A` change no byte but the lanes of `A` and of the address latched before: the
first pulse stores at the latched address or latches `A`, the second stores at the address latched then (R85). -/
theorem Presented.clocked_echoByte {A : BitVec 16} {s e d : State} (h : Presented A s e)
    (hd : d.target = (rowPhase e).target) (hm : s.target.mem.wf) {x : Nat}
    (hA : ∀ b, x ≠ (laneAddress A b).toNat) (hla : ∀ b, x ≠ (laneAddress s.target.la b).toNat) :
    (columnPhase d).echoByte x = s.echoByte x := by
  let strobed := wrLvl Pin.ras .low e
  have hs : strobed.target = s.target := (wrLvl_target_low _ _).trans h.target
  let pulsed := wrLvl Pin.cout .high strobed
  have hp : (wrLvl Pin.dls .high (wrLvl Pin.cas .low d)).target = pulsed.target := by
    rw [wrLvl_target_of_ne _ _ _ (by decide), wrLvl_target_low, hd, rowPhase, pulseClock, wrLvl_target_low]
  have hpla : ∀ b, x ≠ (laneAddress pulsed.target.la b).toNat := by
    have hout : ∀ (b : Bus) i, strobed.dir[b.member i] = .output := fun b i => by
      rw [wrLvl_dir]; exact h.out b i
    have hcarried : strobed.drivenValue .high ++ strobed.drivenValue .low = A := by
      rw [wrLvl_drivenValue _ _ _ (by decide), wrLvl_drivenValue _ _ _ (by decide), h.value]
    rcases wrLvl_la (p := Pin.cout) .high (by decide) hout with hl | hl
    · rw [hl, hs]; exact hla
    · rw [hl, hcarried]; exact hA
  have hpm : pulsed.target.mem.wf := (MicroStep.wrlvl Pin.cout .high strobed).mem_wf (hs ▸ hm)
  calc (columnPhase d).echoByte x
      = (wrLvl Pin.cout .high (wrLvl Pin.dls .high (wrLvl Pin.cas .low d))).echoByte x :=
        echoByte_congr (congrArg Target.mem (wrLvl_target_low _ _)) x
    _ = (wrLvl Pin.dls .high (wrLvl Pin.cas .low d)).echoByte x := wrLvl_echoByte _ _ (hp ▸ hpm) (hp ▸ hpla)
    _ = pulsed.echoByte x := echoByte_congr (congrArg Target.mem hp) x
    _ = strobed.echoByte x := wrLvl_echoByte _ _ (hs ▸ hm) (hs ▸ hla)
    _ = s.echoByte x := echoByte_congr (congrArg Target.mem hs) x

theorem deassert_target (s : State) : (deassert s).target = s.target := by
  rw [deassert, wrLvl_target_of_ne _ _ _ (by decide), wrLvl_target_low, wrLvl_target_of_ne _ _ _ (by decide)]

theorem releaseBuses_target (s : State) : (releaseBuses s).target = s.target := by simp [releaseBuses]

theorem dataSampled_mem (a : BitVec 32) (s : State) : (dataSampled a s).target.mem = s.target.mem := by
  unfold dataSampled
  rw [onlyIf_keeps (·.target.mem) _ _ _ (by simp), onlyIf_keeps (·.target.mem) _ _ _ (by simp)]

theorem dataDriven_target (a : BitVec 32) (d : BitVec 16) (s : State) : (dataDriven a d s).target = s.target := by
  unfold dataDriven
  rw [onlyIf_keeps State.target _ _ _ (by simp), onlyIf_keeps State.target _ _ _ (by simp)]

theorem releaseLanes_target (a : BitVec 32) (s : State) : (releaseLanes a s).target = s.target := by
  unfold releaseLanes
  rw [onlyIf_keeps State.target _ _ _ (wrLvl_target_of_ne _ _ _ (by decide)),
    onlyIf_keeps State.target _ _ _ (wrLvl_target_of_ne _ _ _ (by decide)),
    onlyIf_keeps State.target _ _ _ (by simp), onlyIf_keeps State.target _ _ _ (by simp)]

/-- A bus cycle changes no byte but those of the word it addresses and of the word latched before. -/
theorem busCycle_echoByte (a : BitVec 32) (d : BitVec 16) (r : Bool) {s : State} (hm : s.target.mem.wf) {x : Nat}
    (ha : ∀ b, x ≠ (laneAddress (a.setWidth 16) b).toNat) (hla : ∀ b, x ≠ (laneAddress s.target.la b).toNat) :
    (busCycle a d r s).state.echoByte x = s.echoByte x := by
  cases hc : s.crit with
  | true =>
    rw [busCycle_nested a d r s hc, Flow.state_faulted]
    refine echoByte_congr (congrArg Target.mem ?_) x
    rw [onlyIf_keeps State.target _ _ _ (assertStrobes_target _ _), addressed_target]
  | false =>
    cases r with
    | true =>
      rw [busCycle_read a d s hc, Flow.state_done]
      have hend : (readDone a s).target.mem = (readReady a s).target.mem := by
        rw [readDone, leaveRegion_target, deassert_target, dataSampled_mem]
      exact (echoByte_congr hend x).trans
        ((presented_addressed a s).enterRegion.clocked_echoByte (releaseBuses_target _) hm ha hla)
    | false =>
      rw [busCycle_write a d s hc, Flow.state_done, writeDone]
      refine (echoByte_congr (congrArg Target.mem ?_) x).trans
        ((presented_strobed a s).enterRegion.clocked_echoByte (dataDriven_target a d _) hm ha hla)
      rw [releaseLanes_target, leaveRegion_target, deassert_target]

/-- No command's end is a refusal but a placeholder's. -/
theorem Flow.close_refusalMark {α : Type} (x : Flow α) (r : α → BitVec 16) :
    (x.close r).refusalMark = x.state.refusalMark := by
  cases x <;> rfl

/-- Settles O38: pins and queues by what a bus cycle's micro-operations write, memory by its two clock pulses. -/
theorem busCycleFrame : Obligations.BusCycleFrame := by
  unfold Obligations.BusCycleFrame
  intro i s t hp h
  obtain ⟨a, d, r, f, haddr, he⟩ := exec_transacting hp s
  obtain rfl : (busCycle a d r s).close f = t := Host.Outcome.next.inj (he.symm.trans h)
  have hends := (busCycle_goes a d r s).sameEnds
  have hc := (closed_close (busCycle a d r s) f).samePins
  refine ⟨fun q => exec_transacting_dir hp h, fun q => exec_transacting_lat hp h, hc.cmd.trans hends.cmd,
    hc.cfg.trans hends.cfg, hc.micro.trans hends.micro, hc.inbox.trans hends.inbox,
    (Flow.close_refusalMark _ f).trans hends.refusalMark, fun hm x hx => ?_⟩
  exact (echoByte_congr (congrArg Target.mem hc.target) x).trans
    (busCycle_echoByte a d r hm (fun b => haddr ▸ (hx b).1) fun b => (hx b).2)

/-! ## The events of a bus cycle (R213) -/

@[simp] theorem onLane_true (es : List EventWord) : onLane true es = es := rfl
@[simp] theorem onLane_false (es : List EventWord) : onLane false es = [] := rfl

theorem readReady_trace (a : BitVec 32) (s : State) :
    (readReady a s).trace = s.trace ++ [0x414000, 0x414100, (0x5040 : BitVec 16) ++ a.extractLsb' 0 8,
      (0x5041 : BitVec 16) ++ a.extractLsb' 8 8, 0x700000, 0x201000, 0x211600, 0x201600, 0x404000, 0x404100, 0x201100,
      0x211400, 0x211600, 0x201600] := by
  simp only [readReady, columnPhase, pulseClock, releaseBuses, rowPhase, addressed, wrLvl_trace, busDir_trace,
    driveBus_trace, enterRegion_trace, List.append_assoc]
  rfl

/-- A lane that is enabled emits its sample. -/
theorem onlyIf_sampleBus_trace (c : Bool) (b : Bus) (s : State) :
    (onlyIf c (sampleBus b) s).trace = s.trace ++ onLane c [eventWord 6 0 (busId b) (s.busSample b)] := by
  cases c with
  | true => simp
  | false => simp

theorem dataSampled_trace (a : BitVec 32) (s : State) :
    (dataSampled a s).trace = s.trace ++ (onLane (a.getLsbD 16) [(0x6040 : BitVec 16) ++ s.busSample .low] ++
      onLane (a.getLsbD 17) [(0x6041 : BitVec 16) ++ (onlyIf (laneLo a) (sampleBus .low) s).busSample .high]) := by
  rw [dataSampled, onlyIf_sampleBus_trace, onlyIf_sampleBus_trace, List.append_assoc]
  rfl

/-- The events of a read cycle, its samples as taken. -/
theorem readDone_trace (a : BitVec 32) (s : State) :
    (readDone a s).trace = s.trace ++ readTrace a ((readReady a s).busSample .low)
      ((onlyIf (laneLo a) (sampleBus .low) (readReady a s)).busSample .high) := by
  rw [readDone, leaveRegion_trace, deassert, wrLvl_trace, wrLvl_trace, wrLvl_trace, dataSampled_trace, readReady_trace]
  simp only [readTrace, List.append_assoc]
  rfl

/-- The events of a write cycle. -/
theorem writeDone_trace (a : BitVec 32) (d : BitVec 16) (s : State) :
    (writeDone a d s).trace = s.trace ++ writeTrace a (dataLow d) (highLaneData (laneLo a) d) := by
  unfold writeDone releaseLanes dataDriven assertStrobes writeTrace laneLo laneHi
  cases a.getLsbD 16 <;> cases a.getLsbD 17 <;>
  · simp only [onlyIf_true, onlyIf_false, columnPhase, pulseClock, deassert, rowPhase, addressed, wrLvl_trace,
      busDir_trace, driveBus_trace, enterRegion_trace, leaveRegion_trace, List.append_assoc, onLane_true, onLane_false]
    rfl

/-- What an execution added, where the trace says so. -/
theorem emitted_eq {s t : State} {es : List EventWord} (h : t.trace = s.trace ++ es) : emitted s t = es := by
  rw [emitted, h, List.drop_left]

/-- No other micro-operation is recorded as CRITENTER or CRITLEAVE are (R109). -/
theorem eventOf_ne_crit {j : Instr} (hj : j ≠ .critenter ∧ j ≠ .critleave) :
    eventOf j ≠ 0x700000 ∧ eventOf j ≠ 0x800000 := by
  have hkind : evtKind (eventOf j) ≠ 7 ∧ evtKind (eventOf j) ≠ 8 := by
    cases j with
    | critenter => exact absurd rfl hj.1
    | critleave => exact absurd rfl hj.2
    | setdir p d => simp [eventOf, encode]
    | wrlvl p l => simp [eventOf, encode]
    | rdlvl p l => simp [eventOf, encode]
    | busdir b d => simp [eventOf, encode]
    | buswr b v => simp [eventOf, encode]
    | busrd b v => simp [eventOf, encode]
    | _ => exact (by decide : evtKind 0 ≠ 7 ∧ evtKind 0 ≠ 8)
  exact ⟨fun h => hkind.1 (h ▸ by decide), fun h => hkind.2 (h ▸ by decide)⟩

/-- A command that is no bus cycle emits no event of the critical region. -/
theorem exec_crit_not_mem_emitted {i : Instr} {s t : State} (hi : i.isCommand = true) (hp : phaseOf i ≠ .transacting)
    (h : exec i s = .next t) : 0x700000 ∉ emitted s t ∧ 0x800000 ∉ emitted s t := by
  obtain ⟨u, ⟨is, hrun, hallowed⟩, hc⟩ := exec_next h
  have hne := fun j hj => eventOf_ne_crit ((hallowed j hj).ne_crit hi hp)
  rw [emitted_eq (hc.samePins.trace.trans hrun.trace), List.mem_map, List.mem_map]
  exact ⟨fun ⟨j, hj, he⟩ => (hne j hj).1 he, fun ⟨j, hj, he⟩ => (hne j hj).2 he⟩

/-! ## Which command writes which state (R47) -/

/-- What CHECK may report (R180). -/
def CheckVerdict (o : CmdOutcome) : Prop :=
  o = .success ∨ (∃ p e g, o = .pinStateMismatch p e g) ∨ ∃ b e g, o = .busValueMismatch b e g

/-- How each command ends that starts with CRIT = 0 and leaves no mark. -/
inductive Completed (s : State) : Instr → State → Prop where
  | idle : Completed s .idle ((idled s).succeed 0)
  | check {o : CmdOutcome} {u : State} (ho : CheckVerdict o) (hg : Goes (CheckOp s.cfg) s u) :
    Completed s .check (u.fail o)
  | mread (a : BitVec 32) (r : BitVec 16) : Completed s (.mread a) ((readDone a s).succeed r)
  | mwrite (a : BitVec 32) (v : Byte) : Completed s (.mwrite a v) ((writeDone a (zext16 v) s).succeed 0)
  | bcr (a : BitVec 32) (r : BitVec 16) : Completed s (.bcr a) ((readDone a s).succeed r)
  | bcw (a : BitVec 32) (d : BitVec 16) : Completed s (.bcw a d) ((writeDone a d s).succeed 0)
  | waitint (n : Byte) (k : BitVec 32) : Completed s (.waitint n k) (s.fail .notImplemented)
  | ackint : Completed s .ackint (s.succeed 0)

theorem CheckFailure.verdict {s t : State} {o : CmdOutcome} (h : CheckFailure s o t) : CheckVerdict o := by
  have pin : ∀ {ps L}, PinFailure s ps L o t → CheckVerdict o := fun ⟨⟨p, _, e, g, ho⟩, _⟩ => .inr (.inl ⟨p, e, g, ho⟩)
  have bus : ∀ {L}, BusFailure s L o t → CheckVerdict o := fun ⟨ho, _⟩ => .inr (.inr ho)
  rcases h with h | h | h | h | h
  · exact pin h
  · exact pin h
  · exact bus h
  · exact bus h
  · exact bus h

/-- A fault leaves a mark. -/
theorem not_unmarked_raise (s : State) (f : Fault) : ¬ (s.raise f).unmarked := fun h => by
  have hf : s.faultMark.or (some f) = none := h.1
  simp at hf

/-- A refusal leaves a mark. -/
theorem not_unmarked_refuse (s : State) (r : Refusal) : ¬ (s.refuse r).unmarked := fun h => by
  have hr : s.refusalMark.or (some r) = none := h.2
  simp at hr

/-- CHECK without a fault comes to a verdict. -/
theorem selfCheck_completed {s : State} (h : ((selfCheck s).close fun _ => 0).unmarked) :
    Completed s .check ((selfCheck s).close fun _ => 0) := by
  have hg := check_goes s
  have hpins := selfCheck_pins s
  cases hx : selfCheck s with
  | done _ u => exact .check (.inl rfl) (by simpa [hx] using hg)
  | failed o u =>
    rw [hx] at hg hpins
    exact .check (CheckFailure.verdict hpins) hg
  | faulted f u =>
    rw [hx] at h
    exact absurd h (not_unmarked_raise u f)

/-- A placeholder that leaves no mark runs in the reference profile. -/
theorem inReferenceProfile_eq {s t : State} (h : (inReferenceProfile s t).unmarked) : inReferenceProfile s t = t := by
  unfold inReferenceProfile at h ⊢
  split
  · rfl
  · next hp =>
    rw [hp] at h
    exact absurd h (not_unmarked_refuse s _)

theorem exec_completed {i : Instr} {s t : State} (hi : i.isCommand = true) (hs : s.crit = false)
    (h : exec i s = .next t) (ht : t.unmarked) : Completed s i t := by
  cases i with
  | idle => cases h; exact .idle
  | check => cases h; exact selfCheck_completed ht
  | mread a =>
    rw [exec, execMread, busCycle_read a _ s hs] at h
    cases h; exact .mread a _
  | mwrite a v =>
    rw [exec, execMwrite, busCycle_write a _ s hs] at h
    cases h; exact .mwrite a v
  | bcr a =>
    rw [exec, execBcr, busCycle_read a _ s hs] at h
    cases h; exact .bcr a _
  | bcw a d =>
    rw [exec, execBcw, busCycle_write a _ s hs] at h
    cases h; exact .bcw a d
  | waitint n k =>
    cases h
    rw [inReferenceProfile_eq ht]
    exact .waitint n k
  | ackint =>
    cases h
    rw [inReferenceProfile_eq ht]
    exact .ackint
  | _ => cases hi

/-- CHECK writes no direction. -/
theorem Goes.check_dir {c : Config} {s t : State} (h : Goes (CheckOp c) s t) : t.dir = s.dir := by
  have hpin : ∀ q : Pin, t.dir[q] = s.dir[q] := fun q => h.dir_eq q fun _ hj =>
    ⟨fun _ he => (he ▸ hj : CheckOp c (.setdir q _)).elim, .inr fun _ _ he => (he ▸ hj : CheckOp c (.busdir _ _)).elim⟩
  exact Vector.ext fun k hk => hpin ⟨k, hk⟩

/-- CHECK writes the latches of BCLR, DLS and the latch-enable pin alone. -/
theorem Goes.check_lat {c : Config} {s t : State} (h : Goes (CheckOp c) s t) {q : Pin}
    (hq : q ∉ [Pin.bclr, Pin.dls, c.latchEnablePin]) : t.lat[q] = s.lat[q] :=
  h.lat_eq q fun _ hj =>
    ⟨fun _ he => hq (by simpa [CheckOp] using (he ▸ hj : CheckOp c (.wrlvl q _))),
      .inr fun _ _ he => (he ▸ hj : CheckOp c (.buswr _ _)).elim⟩

/-- Writing another pin keeps a pin's latch. -/
theorem wrLvl_lat_of_ne {p q : Pin} (l : Level) (s : State) (h : q ≠ p) : (wrLvl p l s).lat[q] = s.lat[q] := by
  rw [wrLvl_lat, getElem_setPin, if_neg h.symm]

/-- Driving a bus keeps the latch of a pin that is no bus member. -/
theorem driveBus_lat_control (b : Bus) (v : Byte) (s : State) {q : Pin} (hq : 16 ≤ q.val) :
    (driveBus b v s).lat[q] = s.lat[q] := by
  rw [driveBus_lat, getElem_setMembers_control _ _ _ _ hq]

/-- A read cycle writes no latch of a write strobe. -/
theorem readDone_lat (a : BitVec 32) (s : State) {q : Pin} (hq : 16 ≤ q.val)
    (hn : q ∉ [Pin.ras, Pin.cas, Pin.dls, Pin.cout]) : (readDone a s).lat[q] = s.lat[q] := by
  simp only [List.mem_cons, List.not_mem_nil, or_false, not_or] at hn
  obtain ⟨hras, hcas, hdls, hcout⟩ := hn
  have hsampled : ∀ u, (dataSampled a u).lat = u.lat := fun u => by
    unfold dataSampled
    rw [onlyIf_keeps State.lat _ _ _ (by simp), onlyIf_keeps State.lat _ _ _ (by simp)]
  simp only [readDone, deassert, readReady, columnPhase, releaseBuses, rowPhase, pulseClock, addressed, leaveRegion_lat,
    enterRegion_lat, busDir_lat, hsampled, wrLvl_lat_of_ne _ _ hras, wrLvl_lat_of_ne _ _ hcas, wrLvl_lat_of_ne _ _ hdls,
    wrLvl_lat_of_ne _ _ hcout, driveBus_lat_control _ _ _ hq]

namespace Completed
variable {i : Instr} {s t : State}

theorem dir_eq (h : Completed s i t) (hp : phaseOf i = .checking ∨ phaseOf i = .none) : t.dir = s.dir := by
  cases h with
  | check _ hg => exact hg.check_dir
  | waitint n k => rfl
  | ackint => rfl
  | _ => rcases hp with hp | hp <;> cases hp

theorem idle_pins (h : Completed s i t) (hp : phaseOf i = .idle) : t.dir = (idled s).dir ∧ t.lat = (idled s).lat := by
  cases h with
  | idle => exact ⟨State.succeed_dir _ _, State.succeed_lat _ _⟩
  | _ => cases hp

theorem lat_eq (h : Completed s i t) (hp : phaseOf i = .none) : t.lat = s.lat := by
  cases h with
  | waitint n k => rfl
  | ackint => rfl
  | _ => cases hp

theorem check_lat (h : Completed s i t) (hp : phaseOf i = .checking) {q : Pin}
    (hq : q ∉ [Pin.bclr, Pin.dls, s.cfg.latchEnablePin]) : t.lat[q] = s.lat[q] := by
  cases h with
  | check _ hg => exact hg.check_lat hq
  | _ => cases hp

theorem read_lat (h : Completed s i t) {a : BitVec 32} (hi : i = .bcr a ∨ i = .mread a) {q : Pin} (hq : 16 ≤ q.val)
    (hn : q ∉ [Pin.ras, Pin.cas, Pin.dls, Pin.cout]) : t.lat[q] = s.lat[q] := by
  cases h with
  | mread b r => exact readDone_lat b s hq hn
  | bcr b r => exact readDone_lat b s hq hn
  | _ => rcases hi with hi | hi <;> cases hi

/-- A bus cycle that completes enters and leaves the critical region (R222). -/
theorem crit_mem_emitted (h : Completed s i t) (hp : phaseOf i = .transacting) :
    0x700000 ∈ emitted s t ∧ 0x800000 ∈ emitted s t := by
  have read : ∀ a r, 0x700000 ∈ emitted s ((readDone a s).succeed r) ∧
      0x800000 ∈ emitted s ((readDone a s).succeed r) :=
    fun a r => by rw [emitted_eq (t := (readDone a s).succeed r) (readDone_trace a s)]; simp [readTrace]
  have write : ∀ a d, 0x700000 ∈ emitted s ((writeDone a d s).succeed 0) ∧
      0x800000 ∈ emitted s ((writeDone a d s).succeed 0) :=
    fun a d => by rw [emitted_eq (t := (writeDone a d s).succeed 0) (writeDone_trace a d s)]; simp [writeTrace]
  cases h with
  | mread a r => exact read a r
  | bcr a r => exact read a r
  | mwrite a v => exact write a _
  | bcw a d => exact write a d
  | _ => cases hp

theorem result_eq_zero (h : Completed s i t) (hi : ∀ a, i ≠ .bcr a ∧ i ≠ .mread a) : t.result = 0 := by
  cases h with
  | mread a r => exact absurd rfl (hi a).2
  | bcr a r => exact absurd rfl (hi a).1
  | _ => rfl

theorem status_eq_zero (h : Completed s i t) (hp : phaseOf i = .idle ∨ phaseOf i = .transacting ∨ i = .ackint) :
    t.status = 0 := by
  cases h with
  | check => rcases hp with hp | hp | hp <;> cases hp
  | waitint n k => rcases hp with hp | hp | hp <;> cases hp
  | _ => rfl

theorem check_status (h : Completed s i t) (hi : i = .check) :
    t.status = 0 ∨ statusCode t.status = 0x01 ∨ statusCode t.status = 0x02 := by
  subst hi
  cases h with
  | check ho _ =>
    rcases ho with rfl | ⟨p, e, g, rfl⟩ | ⟨b, e, g, rfl⟩
    · exact .inl rfl
    · exact .inr (.inl (statusCode_statusWord _ _ _ _))
    · exact .inr (.inr (statusCode_statusWord _ _ _ _))

theorem waitint_status (h : Completed s i t) (hi : ∃ n k, i = .waitint n k) : t.status = 3 := by
  obtain ⟨n, k, rfl⟩ := hi
  cases h
  rfl

end Completed

/-- Settles O49, column by column of the table of R47. -/
theorem commandsWriteOnlyTheirState : Obligations.CommandsWriteOnlyTheirState := by
  unfold Obligations.CommandsWriteOnlyTheirState
  intro i s t hi hs _ h ht
  have hdone : Completed s i t := exec_completed hi hs h ht
  have idleDir : phaseOf i = .idle → ∀ q : Pin, pinExists s.cfg.nGnd q = false → t.dir[q] = s.dir[q] :=
      fun hp q hq => by
    have hge : 0x20 + s.cfg.nGnd ≤ q.val := by simpa [pinExists] using hq
    rw [(hdone.idle_pins hp).1, idled_dir, if_neg (by omega), if_neg (by omega), if_neg (by simp [hq])]
  have idleLat : phaseOf i = .idle → ∀ q : Pin, pinClass q ≠ .out → t.lat[q] = s.lat[q] := fun hp q hq => by
    have hout : ∀ p : Pin, pinClass p ≠ .out → p ∉ [Pin.dls, Pin.pi, Pin.cout] ∧
      p ∉ [Pin.ras, Pin.cas, Pin.wlb, Pin.whb, Pin.bclr] := by decide
    rw [(hdone.idle_pins hp).2, idled_lat, if_neg (hout q hq).1, if_neg (hout q hq).2]
  have writeLat : ∀ a, ((∃ d, i = .bcw a d) ∨ ∃ v, i = .mwrite a v) → ∀ q : Pin, 16 ≤ q.val →
      q ∉ [Pin.wlb, Pin.whb, Pin.ras, Pin.cas, Pin.dls, Pin.cout] → t.lat[q] = s.lat[q] := fun a ha q hq hn => by
    have hp : phaseOf i = .transacting := by rcases ha with ⟨d, rfl⟩ | ⟨v, rfl⟩ <;> rfl
    have hsub : ∀ p ∈ cyclePins, p ∈ [Pin.wlb, Pin.whb, Pin.ras, Pin.cas, Pin.dls, Pin.cout] := by decide
    exact exec_transacting_lat hp h hq fun hc => hn (hsub q hc)
  exact ⟨hdone.dir_eq, fun hp q => exec_transacting_dir hp h, idleDir, hdone.lat_eq, fun hp q => hdone.check_lat hp,
    idleLat, fun a ha q => hdone.read_lat ha, writeLat, exec_command_crit hi hs h,
    fun hp => exec_crit_not_mem_emitted hi hp h, hdone.crit_mem_emitted, hdone.result_eq_zero, hdone.status_eq_zero,
    hdone.check_status, hdone.waitint_status⟩

end Sys2Proof.Machine
end

section
/-! The family of spec/20_memory.md: the echo target's memory, on a clock edge, over a bus cycle and over a step
(R70, R85). -/

namespace Sys2Proof.Machine

/-! ## Every step keeps the memory canonical (R70, R85) -/

/-- Settles O55: no micro-operation leaves the canonical form, and nothing else of a step touches the memory. -/
theorem stepKeepsMemoryCanonical : Obligations.StepKeepsMemoryCanonical := by
  unfold Obligations.StepKeepsMemoryCanonical
  intro s t hs h
  exact step_keeps (·.target.mem.wf) h hs
    (hmicro := fun _ _ hm => hm)
    (hcmd := fun _ _ _ hm => hm)
    (hrefuse := fun _ _ hm => hm)
    (hrun := fun _ _ _ hstep hm => hstep.mem_wf hm)
    (hend := fun _ _ hc hm => hc.samePins.target ▸ hm)

/-! ## The lines the target sees driven (R34, R85) -/

theorem drives_iff {s : State} {p : Pin} {l : Level} :
    s.drives p l = true ↔ s.dir[p] = .output ∧ s.lat[p] = l := by
  simp [State.drives, State.drivenLevel]

/-- A line is driven LOW or HIGH where the target sees it so. -/
theorem drives_iff_seen {s : State} {p : Pin} {l : Level} : s.drives p l = true ↔ s.seen p = .driven l := by
  rw [drives_iff]
  unfold State.seen
  cases s.dir[p] <;> simp

/-- A line is driven to one level at a time. -/
theorem not_drives_low_of_high {s : State} {p : Pin} (h : s.drives p .high = true) : s.drives p .low = false := by
  rw [drives_iff] at h
  rw [Bool.eq_false_iff, Ne, drives_iff, h.2]
  simp

theorem drives_pin_congr {s t : State} {q : Pin} (hd : t.dir[q] = s.dir[q]) (hl : t.lat[q] = s.lat[q]) (m : Level) :
    t.drives q m = s.drives q m := by
  rw [Bool.eq_iff_iff, drives_iff, drives_iff, hd, hl]

theorem wrLvl_drives_self {p : Pin} (l : Level) {s : State} (h : s.dir[p] = .output) :
    (wrLvl p l s).drives p l = true := by
  rw [drives_iff, wrLvl_dir, wrLvl_lat, getElem_setPin, if_pos rfl]
  exact ⟨h, rfl⟩

theorem wrLvl_drives_of_ne {p q : Pin} (l m : Level) (s : State) (h : q ≠ p) :
    (wrLvl p l s).drives q m = s.drives q m :=
  drives_pin_congr (by rw [wrLvl_dir]) (wrLvl_lat_of_ne l s h) m

theorem driveBus_drives (b : Bus) (v : Byte) (m : Level) (s : State) {q : Pin} (hq : 16 ≤ q.val) :
    (driveBus b v s).drives q m = s.drives q m :=
  drives_pin_congr (by rw [driveBus_dir]) (driveBus_lat_control b v s hq) m

theorem busDir_drives (b : Bus) (d : Dir) (m : Level) (s : State) {q : Pin} (hq : 16 ≤ q.val) :
    (busDir b d s).drives q m = s.drives q m :=
  drives_pin_congr (by rw [busDir_dir, getElem_setMembers_control _ _ _ _ hq]) (by rw [busDir_lat]) m

/-! ## The echo target on a clock edge (R85 points 1 and 2) -/

/-- The state E reacts to on WRLVL COUT HIGH: its latch and its event are there already. -/
def State.atEdge (s : State) : State :=
  (s.withLat (s.lat.set Pin.cout .high)).emit (eventWord 2 (levelCode .high) (pinId Pin.cout) 0)

theorem wrLvl_cout_high_target {s : State} (hk : s.target.kind = .echo) :
    (wrLvl Pin.cout .high s).target = echoClock s.atEdge := by
  rw [wrLvl_target, State.react, if_pos ⟨hk, rfl, rfl⟩]
  rfl

@[simp] theorem atEdge_target (s : State) : s.atEdge.target = s.target := rfl

theorem atEdge_drives (s : State) {q : Pin} (m : Level) (hq : q ≠ Pin.cout) : s.atEdge.drives q m = s.drives q m :=
  wrLvl_drives_of_ne .high m s hq

/-- Of a bus that is OUT, E takes its driven value on the edge. -/
theorem atEdge_busValue {s : State} {b : Bus} (h : ∀ i, s.dir[b.member i] = .output) :
    s.atEdge.busValue b = s.drivenValue b :=
  (busValue_of_allOut s.atEdge b ((busAllOut_iff s.atEdge b).mpr h)).trans
    (wrLvl_drivenValue (p := Pin.cout) .high s b (by decide))

/-- RAS LOW and CAS HIGH: the buses' bytes are latched, and nothing else of the target changes. -/
theorem echoClock_latch {s : State} (hras : s.drives Pin.ras .low = true) (hcas : s.drives Pin.cas .high = true) :
    echoClock s = { s.target with la := s.busValue .high ++ s.busValue .low } := by
  rw [echoClock, if_pos hras, if_pos hcas]

/-- RAS and CAS LOW: the strobed lanes are stored, and nothing else of the target changes. -/
theorem echoClock_data {s : State} (hras : s.drives Pin.ras .low = true) (hcas : s.drives Pin.cas .low = true) :
    echoClock s =
      { s.target with mem := echoStore s Pin.whb .high (echoStore s Pin.wlb .low s.target.mem) } := by
  have hhigh : ¬ s.drives Pin.cas .high = true := fun h => by
    rw [not_drives_low_of_high h] at hcas
    cases hcas
  rw [echoClock, if_pos hras, if_neg hhigh, if_pos hcas]

/-- With RAS and CAS not both LOW, E stores nothing. -/
theorem echoClock_mem_of_not_data {s : State}
    (h : ¬ (s.drives Pin.ras .low = true ∧ s.drives Pin.cas .low = true)) : (echoClock s).mem = s.target.mem := by
  unfold echoClock
  split
  · next hras =>
    split
    · rfl
    · rw [if_neg fun hcas => h ⟨hras, hcas⟩]
  · rfl

/-- A lane whose strobe is not driven LOW is not stored. -/
theorem echoStore_released {s : State} {strobe : Pin} (h : s.drives strobe .low = false) (b : Bus) (m : Memory) :
    echoStore s strobe b m = m := by
  rw [echoStore, h, if_neg Bool.false_ne_true]

/-- Every byte of memory after a lane's store. -/
theorem echoStore_read_eq (s : State) (strobe : Pin) (b : Bus) {m : Memory} (hm : m.wf) (x : Nat) :
    (echoStore s strobe b m).read x =
      if x = (laneAddress s.target.la b).toNat ∧ s.drives strobe .low = true then s.busValue b else m.read x := by
  unfold echoStore
  split
  · next h => simp only [Memory.writeBytes_one, Memory.read_write _ _ _ _ hm, h, and_true, eq_comm]
  · next h => rw [if_neg fun hc => h hc.2]

/-- The two lanes of a word are two bytes (R71). -/
theorem laneAddress_ne (la : BitVec 16) : (laneAddress la .low).toNat ≠ (laneAddress la .high).toNat := fun h => by
  have hbit : (laneAddress la .low).getLsbD 0 = (laneAddress la .high).getLsbD 0 :=
    congrArg (·.getLsbD 0) (BitVec.eq_of_toNat_eq h)
  rw [laneAddress, laneAddress, BitVec.getLsbD_append, BitVec.getLsbD_append] at hbit
  cases hbit

/-- Every byte of memory after an edge in the data phase. -/
theorem echoClock_read_data {s : State} (hm : s.target.mem.wf) (hras : s.drives Pin.ras .low = true)
    (hcas : s.drives Pin.cas .low = true) (x : Nat) :
    (echoClock s).mem.read x =
      if x = (laneAddress s.target.la .low).toNat ∧ s.drives Pin.wlb .low = true then s.busValue .low
      else if x = (laneAddress s.target.la .high).toNat ∧ s.drives Pin.whb .low = true then s.busValue .high
      else s.target.mem.read x := by
  rw [echoClock_data hras hcas, echoStore_read_eq _ _ _ (echoStore_wf _ _ _ _ hm), echoStore_read_eq _ _ _ hm]
  by_cases hlow : x = (laneAddress s.target.la .low).toNat
  · have hhigh : x ≠ (laneAddress s.target.la .high).toNat := fun h => laneAddress_ne _ (hlow.symm.trans h)
    simp only [hhigh, false_and, if_false]
  · simp only [hlow, false_and, if_false]

/-- Settles O22: outside the data phase E stores nothing, and in it a lane whose strobe is not LOW is not stored. -/
theorem clockEdgeStoresOnlyStrobedLanes : Obligations.ClockEdgeStoresOnlyStrobedLanes := by
  unfold Obligations.ClockEdgeStoresOnlyStrobedLanes
  intro s t hE h x hkept
  obtain ⟨hkind, hwf⟩ := hE
  obtain rfl : wrLvl Pin.cout .high s = t := Host.Outcome.next.inj h
  rw [State.echoByte, wrLvl_cout_high_target hkind]
  by_cases hphase : s.atEdge.drives Pin.ras .low = true ∧ s.atEdge.drives Pin.cas .low = true
  · obtain ⟨hras, hcas⟩ := hphase
    rw [echoClock_read_data (s := s.atEdge) hwf hras hcas]
    rw [atEdge_drives _ _ (by decide), drives_iff_seen] at hras hcas
    rw [if_neg, if_neg, atEdge_target, State.echoByte]
    · rintro ⟨hx, hstrobe⟩
      rw [atEdge_drives _ _ (by decide), drives_iff_seen] at hstrobe
      exact (hkept .high hx).elim (· hstrobe) (·.elim (· hras) (· hcas))
    · rintro ⟨hx, hstrobe⟩
      rw [atEdge_drives _ _ (by decide), drives_iff_seen] at hstrobe
      exact (hkept .low hx).elim (· hstrobe) (·.elim (· hras) (· hcas))
  · rw [echoClock_mem_of_not_data hphase, atEdge_target, State.echoByte]

/-! ## The strobes of a bus cycle (R213 to R219) -/

theorem addressed_drives (a : BitVec 32) (m : Level) (s : State) {q : Pin} (hq : 16 ≤ q.val) :
    (addressed a s).drives q m = s.drives q m := by
  rw [addressed, driveBus_drives _ _ _ _ hq, driveBus_drives _ _ _ _ hq, busDir_drives _ _ _ _ hq,
    busDir_drives _ _ _ _ hq]

theorem dataDriven_drives (a : BitVec 32) (d : BitVec 16) (m : Level) (s : State) {q : Pin} (hq : 16 ≤ q.val) :
    (dataDriven a d s).drives q m = s.drives q m := by
  unfold dataDriven
  rw [onlyIf_keeps (·.drives q m) _ _ _ (driveBus_drives _ _ _ _ hq),
    onlyIf_keeps (·.drives q m) _ _ _ (driveBus_drives _ _ _ _ hq)]

theorem enterRegion_drives (s : State) (q : Pin) (m : Level) : (enterRegion s).drives q m = s.drives q m :=
  drives_congr (enterRegion_dir s) (enterRegion_lat s) q m

/-- A released strobe is driven HIGH. -/
theorem State.strobesReleased.drives {s : State} (h : s.strobesReleased) {q : Pin}
    (hq : q ∈ [Pin.ras, Pin.cas, Pin.wlb, Pin.whb]) : s.drives q .high = true := drives_iff_seen.mpr (h q hq)

/-- Of an idle strobe asserted for enabled lanes only, the lane's flag says whether it is LOW. -/
theorem onlyIf_assert_drives {p : Pin} (c : Bool) {s : State} (h : s.drives p .high = true) :
    (onlyIf c (wrLvl p .low) s).drives p .low = c := by
  cases c with
  | true => exact wrLvl_drives_self .low (drives_iff.mp h).1
  | false => exact not_drives_low_of_high h

theorem assertStrobes_drives (a : BitVec 32) (m : Level) (s : State) {q : Pin} (hl : q ≠ Pin.wlb) (hh : q ≠ Pin.whb) :
    (assertStrobes a s).drives q m = s.drives q m := by
  unfold assertStrobes
  rw [onlyIf_keeps (·.drives q m) _ _ _ (wrLvl_drives_of_ne _ _ _ hh),
    onlyIf_keeps (·.drives q m) _ _ _ (wrLvl_drives_of_ne _ _ _ hl)]

theorem assertStrobes_drives_wlb (a : BitVec 32) {s : State} (h : s.drives Pin.wlb .high = true) :
    (assertStrobes a s).drives Pin.wlb .low = laneLo a := by
  unfold assertStrobes
  rw [onlyIf_keeps (·.drives Pin.wlb .low) _ _ _ (wrLvl_drives_of_ne _ _ _ (by decide)), onlyIf_assert_drives _ h]

theorem assertStrobes_drives_whb (a : BitVec 32) {s : State} (h : s.drives Pin.whb .high = true) :
    (assertStrobes a s).drives Pin.whb .low = laneHi a := by
  unfold assertStrobes
  refine onlyIf_assert_drives _ ?_
  rw [onlyIf_keeps (·.drives Pin.whb .high) _ _ _ (wrLvl_drives_of_ne _ _ _ (by decide)), h]

theorem rowPhase_drives (m : Level) (s : State) {q : Pin} (hr : q ≠ Pin.ras) (hc : q ≠ Pin.cout) :
    (rowPhase s).drives q m = s.drives q m := by
  rw [rowPhase, pulseClock, wrLvl_drives_of_ne _ _ _ hc, wrLvl_drives_of_ne _ _ _ hc, wrLvl_drives_of_ne _ _ _ hr]

theorem rowPhase_drives_ras {s : State} (h : s.dir[Pin.ras] = .output) : (rowPhase s).drives Pin.ras .low = true := by
  rw [rowPhase, pulseClock, wrLvl_drives_of_ne _ _ _ (by decide), wrLvl_drives_of_ne _ _ _ (by decide),
    wrLvl_drives_self _ h]

/-! ## The two clock pulses of a bus cycle on the echo target (R85, R216, R219) -/

/-- E in front of a cycle's row phase: RAS and CAS driven HIGH. -/
structure Resting (e : State) : Prop where
  kind : e.target.kind = .echo
  ras : e.drives Pin.ras .high = true
  cas : e.drives Pin.cas .high = true

/-- A cycle from released strobes that has not touched RAS and CAS rests in front of its row phase. -/
theorem Presented.resting {A : BitVec 16} {s e : State} (h : Presented A s e) (hrel : s.strobesReleased)
    (hE : s.onEcho) (hd : ∀ q ∈ [Pin.ras, Pin.cas], e.drives q .high = s.drives q .high) : Resting e where
  kind := by rw [h.target, hE.1]
  ras := (hd _ (by decide)).trans (hrel.drives (by decide))
  cas := (hd _ (by decide)).trans (hrel.drives (by decide))

/-- The first pulse latches the address the buses carry. -/
theorem Presented.rowPhase_target {A : BitVec 16} {s e : State} (h : Presented A s e) (hr : Resting e) :
    (rowPhase e).target = { s.target with la := A } := by
  let strobed := wrLvl Pin.ras .low e
  have hkind : strobed.target.kind = .echo := (wrLvl_target_kind _ _ _).trans hr.kind
  have hout : ∀ (b : Bus) i, strobed.dir[b.member i] = .output := fun b i => by rw [wrLvl_dir]; exact h.out b i
  have hras : strobed.atEdge.drives Pin.ras .low = true := by
    rw [atEdge_drives _ _ (by decide), wrLvl_drives_self _ (drives_iff.mp hr.ras).1]
  have hcas : strobed.atEdge.drives Pin.cas .high = true := by
    rw [atEdge_drives _ _ (by decide), wrLvl_drives_of_ne _ _ _ (by decide), hr.cas]
  rw [rowPhase, pulseClock, wrLvl_target_low, wrLvl_cout_high_target hkind, echoClock_latch hras hcas,
    atEdge_busValue (hout .high), atEdge_busValue (hout .low), wrLvl_drivenValue _ _ _ (by decide),
    wrLvl_drivenValue _ _ _ (by decide), h.value, atEdge_target, wrLvl_target_low, h.target]

/-- The state E reacts to in the column phase. -/
def columnEdge (s : State) : State := (wrLvl Pin.dls .high (wrLvl Pin.cas .low s)).atEdge

@[simp] theorem columnEdge_target (s : State) : (columnEdge s).target = s.target := by
  rw [columnEdge, atEdge_target, wrLvl_target_of_ne _ _ _ (by decide), wrLvl_target_low]

theorem columnEdge_drives (m : Level) (s : State) {q : Pin} (hq : q ∉ [Pin.cas, Pin.dls, Pin.cout]) :
    (columnEdge s).drives q m = s.drives q m := by
  simp only [List.mem_cons, List.not_mem_nil, or_false, not_or] at hq
  obtain ⟨hcas, hdls, hcout⟩ := hq
  rw [columnEdge, atEdge_drives _ _ hcout, wrLvl_drives_of_ne _ _ _ hdls, wrLvl_drives_of_ne _ _ _ hcas]

theorem columnEdge_drives_cas {s : State} (h : s.dir[Pin.cas] = .output) : (columnEdge s).drives Pin.cas .low = true := by
  rw [columnEdge, atEdge_drives _ _ (by decide), wrLvl_drives_of_ne _ _ _ (by decide), wrLvl_drives_self _ h]

theorem columnEdge_busValue {s : State} {b : Bus} (h : ∀ i, s.dir[b.member i] = .output) :
    (columnEdge s).busValue b = s.drivenValue b := by
  rw [columnEdge, atEdge_busValue (fun i => by rw [wrLvl_dir, wrLvl_dir]; exact h i),
    wrLvl_drivenValue _ _ _ (by decide), wrLvl_drivenValue _ _ _ (by decide)]

theorem columnPhase_drives (m : Level) (s : State) {q : Pin} (hq : q ≠ Pin.cout) :
    (columnPhase s).drives q m = (columnEdge s).drives q m := by
  rw [columnPhase, pulseClock, wrLvl_drives_of_ne _ _ _ hq, wrLvl_drives_of_ne _ _ _ hq, columnEdge, atEdge_drives _ _ hq]

theorem columnPhase_target {s : State} (hk : s.target.kind = .echo) :
    (columnPhase s).target = echoClock (columnEdge s) := by
  have hkind : (wrLvl Pin.dls .high (wrLvl Pin.cas .low s)).target.kind = .echo := by
    rw [wrLvl_target_kind, wrLvl_target_kind, hk]
  rw [columnPhase, pulseClock, wrLvl_target_low, wrLvl_cout_high_target hkind, columnEdge]

/-- `c` is the state E reacts to in the column phase of a cycle at `A` from `s`, whose write strobes stand as in `e`. -/
structure DataEdge (A : BitVec 16) (s e c : State) : Prop where
  target : c.target = { s.target with la := A }
  ras : c.drives Pin.ras .low = true
  cas : c.drives Pin.cas .low = true
  strobe : ∀ q ∈ [Pin.wlb, Pin.whb], ∀ m, c.drives q m = e.drives q m

/-- A data phase that writes no control line and nothing of the target comes to the data edge. -/
theorem Presented.dataEdge {A : BitVec 16} {s e d : State} (h : Presented A s e) (hr : Resting e)
    (ht : d.target = (rowPhase e).target) (hd : ∀ (q : Pin) m, 16 ≤ q.val → d.drives q m = (rowPhase e).drives q m) :
    DataEdge A s e (columnEdge d) where
  target := by rw [columnEdge_target, ht, h.rowPhase_target hr]
  ras := by
    rw [columnEdge_drives _ _ (by decide), hd _ _ (by decide), rowPhase_drives_ras (drives_iff.mp hr.ras).1]
  cas := by
    have hcas : d.drives Pin.cas .high = true := by
      rw [hd _ _ (by decide), rowPhase_drives _ _ (by decide) (by decide), hr.cas]
    exact columnEdge_drives_cas (drives_iff.mp hcas).1
  strobe q hq m := by
    have hline : ∀ p ∈ [Pin.wlb, Pin.whb],
        p ∉ [Pin.cas, Pin.dls, Pin.cout] ∧ 16 ≤ p.val ∧ p ≠ Pin.ras ∧ p ≠ Pin.cout := by decide
    obtain ⟨hout, h16, hras, hcout⟩ := hline q hq
    rw [columnEdge_drives _ _ hout, hd _ _ h16, rowPhase_drives _ _ hras hcout]

/-! ## Every instruction leaves the target E, its memory canonical -/

theorem MicroStep.onEcho {j : Instr} {s t : State} (h : MicroStep j s t) (hs : s.onEcho) : t.onEcho := by
  obtain ⟨hkind, hwf⟩ := hs
  refine ⟨Eq.trans ?_ hkind, h.mem_wf hwf⟩
  cases h <;> simp

theorem exec_onEcho {i : Instr} {s t : State} (h : exec i s = .next t) (hs : s.onEcho) : t.onEcho := by
  obtain ⟨u, hg, hc⟩ := exec_next h
  have hu : u.onEcho := hg.keeps State.onEcho (fun _ _ _ _ hm hv => hm.onEcho hv) hs
  unfold State.onEcho
  rw [hc.samePins.target]
  exact hu

/-! ## A write cycle on the echo target (R85, R218) -/

/-- Step 6 of a write puts its byte on an enabled low lane. -/
theorem dataDriven_drivenValue_low {a : BitVec 32} (d : BitVec 16) (s : State) (h : laneLo a = true) :
    (dataDriven a d s).drivenValue .low = dataLow d := by
  unfold dataDriven
  rw [onlyIf_keeps (State.drivenValue · .low) _ _ _ (driveBus_drivenValue_other (by decide) _ _), h, onlyIf_true,
    driveBus_drivenValue]

/-- Step 6 of a write puts its byte on an enabled high lane. -/
theorem dataDriven_drivenValue_high {a : BitVec 32} (d : BitVec 16) (s : State) (h : laneHi a = true) :
    (dataDriven a d s).drivenValue .high = highLaneData (laneLo a) d := by
  unfold dataDriven
  rw [h, onlyIf_true, driveBus_drivenValue]

@[simp] theorem dataDriven_dir (a : BitVec 32) (d : BitVec 16) (s : State) : (dataDriven a d s).dir = s.dir := by
  unfold dataDriven
  rw [onlyIf_keeps State.dir _ _ _ (by simp), onlyIf_keeps State.dir _ _ _ (by simp)]

/-- The state of a write cycle before its row phase: steps 1 to 3. -/
def writeStrobed (a : BitVec 32) (s : State) : State := enterRegion (assertStrobes a (addressed a s))

/-- The state of a write cycle before its column phase: steps 1 to 6. -/
def writeReady (a : BitVec 32) (d : BitVec 16) (s : State) : State := dataDriven a d (rowPhase (writeStrobed a s))

theorem writeReady_dir (a : BitVec 32) (d : BitVec 16) (s : State) (b : Bus) (i : Fin 8) :
    (writeReady a d s).dir[b.member i] = .output := by
  rw [writeReady, dataDriven_dir, rowPhase_dir, writeStrobed, enterRegion_dir, assertStrobes_dir]
  exact addressed_dir a s b i

theorem writeDone_target (a : BitVec 32) (d : BitVec 16) (s : State) :
    (writeDone a d s).target = (columnPhase (writeReady a d s)).target := by
  rw [writeDone, releaseLanes_target, leaveRegion_target, deassert_target, writeReady, writeStrobed]

/-- A line that is no write strobe is at step 4 of a write as before the cycle. -/
theorem writeStrobed_drives (a : BitVec 32) (m : Level) (s : State) {q : Pin} (hq : 16 ≤ q.val) (hl : q ≠ Pin.wlb)
    (hh : q ≠ Pin.whb) : (writeStrobed a s).drives q m = s.drives q m := by
  rw [writeStrobed, enterRegion_drives, assertStrobes_drives a m _ hl hh, addressed_drives a m s hq]

section write
variable {s : State} (a : BitVec 32) (d : BitVec 16) (hrel : s.strobesReleased) (hE : s.onEcho)
include hrel

theorem writeStrobed_drives_wlb : (writeStrobed a s).drives Pin.wlb .low = laneLo a := by
  rw [writeStrobed, enterRegion_drives]
  exact assertStrobes_drives_wlb a ((addressed_drives a _ s (by decide)).trans (hrel.drives (by decide)))

theorem writeStrobed_drives_whb : (writeStrobed a s).drives Pin.whb .low = laneHi a := by
  rw [writeStrobed, enterRegion_drives]
  exact assertStrobes_drives_whb a ((addressed_drives a _ s (by decide)).trans (hrel.drives (by decide)))

include hE

theorem writeReady_dataEdge :
    DataEdge (a.setWidth 16) s (writeStrobed a s) (columnEdge (writeReady a d s)) := by
  have hline : ∀ q ∈ [Pin.ras, Pin.cas], 16 ≤ q.val ∧ q ≠ Pin.wlb ∧ q ≠ Pin.whb := by decide
  have hpresented : Presented (a.setWidth 16) s (writeStrobed a s) := (presented_strobed a s).enterRegion
  have hresting := hpresented.resting hrel hE fun q hq =>
    writeStrobed_drives a .high s (hline q hq).1 (hline q hq).2.1 (hline q hq).2.2
  exact hpresented.dataEdge hresting (dataDriven_target a d _) fun _ m hq => dataDriven_drives a d m _ hq

/-- Every byte of memory after a write cycle. -/
theorem writeDone_echoByte (x : Nat) :
    (writeDone a d s).echoByte x =
      if x = (laneAddress (a.setWidth 16) .low).toNat ∧ laneLo a = true then dataLow d
      else if x = (laneAddress (a.setWidth 16) .high).toNat ∧ laneHi a = true then highLaneData (laneLo a) d
      else s.echoByte x := by
  have he := writeReady_dataEdge a d hrel hE
  have hkind : (writeReady a d s).target.kind = .echo := by
    rw [← columnEdge_target, he.target]; exact hE.1
  have hwf : (columnEdge (writeReady a d s)).target.mem.wf := by rw [he.target]; exact hE.2
  have hbus : ∀ b, (columnEdge (writeReady a d s)).busValue b = (writeReady a d s).drivenValue b := fun b =>
    columnEdge_busValue (writeReady_dir a d s b)
  rw [State.echoByte, writeDone_target, columnPhase_target hkind, echoClock_read_data hwf he.ras he.cas, he.target,
    he.strobe _ (by decide), he.strobe _ (by decide), writeStrobed_drives_wlb a hrel, writeStrobed_drives_whb a hrel,
    hbus, hbus]
  exact ite_congr rfl (fun h => dataDriven_drivenValue_low d _ h.2) fun _ =>
    ite_congr rfl (fun h => dataDriven_drivenValue_high d _ h.2) fun _ => rfl

end write

/-! ### The bytes of a transfer as truncations (R218, R226, R227) -/

theorem dataLow_eq (d : BitVec 16) : dataLow d = d.setWidth 8 := (BitVec.setWidth_eq_extractLsb' (by decide)).symm

theorem dataHigh_eq (d : BitVec 16) : dataHigh d = (d >>> 8).setWidth 8 := by
  apply BitVec.eq_of_getLsbD_eq
  intro i hi
  simp [dataHigh, hi]

theorem zext16_eq (v : Byte) : zext16 v = v.setWidth 16 := by
  apply BitVec.eq_of_getLsbD_eq
  intro i hi
  rw [zext16, BitVec.getLsbD_append, BitVec.getLsbD_setWidth, decide_eq_true hi, Bool.true_and]
  split
  · rfl
  · next h => rw [BitVec.getLsbD_of_ge v i (by omega)]; exact BitVec.getLsbD_zero

theorem zext16_lowByte (r : BitVec 16) : zext16 (lowByte r) = (r.setWidth 8).setWidth 16 :=
  (zext16_eq _).trans (congrArg (BitVec.setWidth 16) (dataLow_eq r))

/-! ### The write commands -/

/-- Both write commands are write cycles of their data, the byte of MWRITE zero-extended (R225, R227). -/
theorem exec_write {a : BitVec 32} {d : BitVec 16} {i : Instr} {s : State}
    (hi : i = .bcw a d ∨ ∃ v : Byte, i = .mwrite a v ∧ d = v.setWidth 16) (hs : s.crit = false) :
    exec i s = .next ((writeDone a d s).succeed 0) := by
  rcases hi with rfl | ⟨v, rfl, rfl⟩
  · rw [exec, execBcw, busCycle_write _ _ _ hs, Flow.close_done]
  · rw [exec, execMwrite, busCycle_write _ _ _ hs, Flow.close_done, zext16_eq]

/-- Settles O43: a write command is a write cycle, and E stores the enabled lanes on its second clock pulse. -/
theorem echoWriteStoresTheEnabledLanes : Obligations.EchoWriteStoresTheEnabledLanes := by
  unfold Obligations.EchoWriteStoresTheEnabledLanes
  intro a d i s hi hrel hE hcrit
  have hexec := exec_write hi hcrit
  refine ⟨_, hexec, exec_onEcho hexec hE, fun x => ?_⟩
  have hstored := writeDone_echoByte a d hrel hE x
  rw [dataLow_eq, highLaneData, dataHigh_eq, dataLow_eq] at hstored
  exact hstored

/-! ## A read cycle on the echo target (R85 point 3, R220) -/

theorem readPhase_iff {s : State} :
    s.readPhase = true ↔ s.drives Pin.ras .low = true ∧ s.drives Pin.cas .low = true ∧
      s.drives Pin.wlb .high = true ∧ s.drives Pin.whb .high = true := by
  simp only [State.readPhase, Bool.and_eq_true, and_assoc]

/-- An edge in a read data phase changes nothing of the target. -/
theorem echoClock_of_readPhase {s : State} (h : s.readPhase = true) : echoClock s = s.target := by
  obtain ⟨hras, hcas, hwlb, hwhb⟩ := readPhase_iff.mp h
  rw [echoClock_data hras hcas, echoStore_released (not_drives_low_of_high hwhb),
    echoStore_released (not_drives_low_of_high hwlb)]

/-- In a read data phase E answers for a bus member the bit it carries of its lane's byte, and stays as it is. -/
theorem sample_member_echo {s : State} (hk : s.target.kind = .echo) (hp : s.readPhase = true) (b : Bus) (i : Fin 8) :
    s.sample (b.member i) =
      (bitLevel ((s.echoByte (laneAddress s.target.la b).toNat).getLsbD i), s.target) := by
  have hlevel : echoDataLevel s.target (b.member i) =
      bitLevel ((s.echoByte (laneAddress s.target.la b).toNat).getLsbD i) := by
    unfold echoDataLevel
    rw [Memory.readBytes_one, Memory.readBytes_one]
    cases b with
    | low => rw [if_pos (by simp [Bus.member, Bus.base])]; simp [Bus.member, Bus.base, BitVec.getLsbD, State.echoByte]
    | high => rw [if_neg (by simp [Bus.member, Bus.base])]; simp [Bus.member, Bus.base, BitVec.getLsbD, State.echoByte]
  simp only [State.sample, hk]
  rw [if_pos ⟨member_lt b i, hp⟩, hlevel]

theorem sampleMembers_echo_target {s : State} (hk : s.target.kind = .echo) (hp : s.readPhase = true) (b : Bus) (n : Nat) :
    (s.sampleMembers b n).2 = s.target := by
  induction n with
  | zero => rfl
  | succ n ih =>
    simp only [State.sampleMembers, ih]
    exact congrArg Prod.snd (sample_member_echo (s := s.withTarget s.target) hk hp b _)

/-- In a read data phase a bus read answers its lane's byte of the latched word. -/
theorem busSample_echo {s : State} (hk : s.target.kind = .echo) (hp : s.readPhase = true) (b : Bus) :
    s.busSample b = s.echoByte (laneAddress s.target.la b).toNat := by
  have levelBit_bitLevel : ∀ x, levelBit (bitLevel x) = x := by decide
  apply BitVec.eq_of_getLsbD_eq
  intro i hi
  have hsample := sample_member_echo (s := s.withTarget s.target) hk hp b (Fin.ofNat 8 i)
  rw [State.busSample, sampleMembers_getLsbD _ _ _ _ hi, sampleMembers_echo_target hk hp, hsample, levelBit_bitLevel,
    decide_eq_true hi, Bool.true_and, Fin.val_ofNat, Nat.mod_eq_of_lt hi]
  rfl

theorem releaseBuses_drives (m : Level) (s : State) {q : Pin} (hq : 16 ≤ q.val) :
    (releaseBuses s).drives q m = s.drives q m := by
  rw [releaseBuses, busDir_drives _ _ _ _ hq, busDir_drives _ _ _ _ hq]

/-- The phase is one of the control lines. -/
theorem readPhase_congr {s t : State}
    (h : ∀ q ∈ [Pin.ras, Pin.cas, Pin.wlb, Pin.whb], ∀ m, t.drives q m = s.drives q m) : t.readPhase = s.readPhase := by
  simp only [State.readPhase]
  rw [h _ (by decide), h _ (by decide), h _ (by decide), h _ (by decide)]

/-- The state of a read cycle before its column phase: steps 1 to 6. -/
def readReleased (a : BitVec 32) (s : State) : State := releaseBuses (rowPhase (enterRegion (addressed a s)))

/-- The byte of memory an enabled lane supplies. -/
def echoLane (s : State) (A : BitVec 16) (enabled : Bool) (b : Bus) : Option Byte :=
  if enabled then some (s.echoByte (laneAddress A b).toNat) else none

/-- An enabled lane sampled in a read data phase supplies its byte. -/
theorem laneByte_echo {s : State} (hk : s.target.kind = .echo) (hp : s.readPhase = true) (e : Bool) (b : Bus) :
    laneByte e b s = echoLane s s.target.la e b := by
  rw [laneByte, echoLane, busSample_echo hk hp]

/-- Sampling a bus in a read data phase changes no line and nothing of the target. -/
theorem onlyIf_sampleBus_echo {s : State} (hk : s.target.kind = .echo) (hp : s.readPhase = true) (c : Bool) (b : Bus) :
    (onlyIf c (sampleBus b) s).target = s.target ∧ (onlyIf c (sampleBus b) s).readPhase = true := by
  have htarget : (sampleBus b s).target = s.target := by rw [sampleBus_target, sampleMembers_echo_target hk hp]
  have hphase : (sampleBus b s).readPhase = s.readPhase :=
    readPhase_congr fun q _ m => drives_congr (sampleBus_dir b s) (sampleBus_lat b s) q m
  exact ⟨onlyIf_keeps State.target _ _ _ htarget, (onlyIf_keeps State.readPhase _ _ _ hphase).trans hp⟩

/-- The result of a read that samples in a read data phase: its enabled lanes' bytes of the latched word. -/
theorem sampledResult_echo {s : State} (hk : s.target.kind = .echo) (hp : s.readPhase = true) (a : BitVec 32) :
    sampledResult a s =
      composeRead (echoLane s s.target.la (laneLo a) .low) (echoLane s s.target.la (laneHi a) .high) := by
  obtain ⟨htarget, hphase⟩ := onlyIf_sampleBus_echo hk hp (laneLo a) .low
  rw [sampledResult, laneByte_echo hk hp, laneByte_echo (by rw [htarget, hk]) hphase, htarget]
  simp only [echoLane, State.echoByte, htarget]

section read
variable {s : State} (a : BitVec 32) (hrel : s.strobesReleased) (hE : s.onEcho)
include hrel hE

theorem readReleased_dataEdge :
    DataEdge (a.setWidth 16) s (enterRegion (addressed a s)) (columnEdge (readReleased a s)) := by
  have hcontrol : ∀ q ∈ [Pin.ras, Pin.cas], 16 ≤ q.val := by decide
  have hpresented := (presented_addressed a s).enterRegion
  have hresting := hpresented.resting hrel hE fun q hq =>
    (enterRegion_drives _ q .high).trans (addressed_drives a .high s (hcontrol q hq))
  exact hpresented.dataEdge hresting (releaseBuses_target _) fun _ m hq => releaseBuses_drives m _ hq

theorem columnEdge_readReleased_readPhase : (columnEdge (readReleased a s)).readPhase = true := by
  have he := readReleased_dataEdge a hrel hE
  have hstrobe : ∀ q ∈ [Pin.wlb, Pin.whb], (columnEdge (readReleased a s)).drives q .high = true := fun q hq => by
    have hline : ∀ p ∈ [Pin.wlb, Pin.whb], 16 ≤ p.val ∧ p ∈ [Pin.ras, Pin.cas, Pin.wlb, Pin.whb] := by decide
    obtain ⟨hcontrol, hreleased⟩ := hline q hq
    rw [he.strobe q hq, enterRegion_drives, addressed_drives a _ s hcontrol, hrel.drives hreleased]
  exact readPhase_iff.mpr ⟨he.ras, he.cas, hstrobe _ (by decide), hstrobe _ (by decide)⟩

/-- The column phase of a read leaves the address latched and the memory as it was. -/
theorem readReady_target : (readReady a s).target = { s.target with la := a.setWidth 16 } := by
  have he := readReleased_dataEdge a hrel hE
  have hkind : (readReleased a s).target.kind = .echo := by
    rw [← columnEdge_target, he.target]; exact hE.1
  rw [← he.target, ← echoClock_of_readPhase (columnEdge_readReleased_readPhase a hrel hE)]
  exact columnPhase_target hkind

/-- A read samples in the read data phase. -/
theorem readReady_readPhase : (readReady a s).readPhase = true := by
  rw [← columnEdge_readReleased_readPhase a hrel hE]
  exact readPhase_congr fun q hq m => columnPhase_drives m _
    ((by decide : ∀ p ∈ [Pin.ras, Pin.cas, Pin.wlb, Pin.whb], p ≠ Pin.cout) q hq)

/-- The result of a read cycle: its enabled lanes' bytes of the word addressed. -/
theorem readReady_sampledResult :
    sampledResult a (readReady a s) =
      composeRead (echoLane s (a.setWidth 16) (laneLo a) .low) (echoLane s (a.setWidth 16) (laneHi a) .high) := by
  have htarget := readReady_target a hrel hE
  rw [sampledResult_echo (by rw [htarget]; exact hE.1) (readReady_readPhase a hrel hE)]
  simp only [echoLane, State.echoByte, htarget]

/-- A read cycle changes no byte of memory. -/
theorem readDone_echoByte (x : Nat) : (readDone a s).echoByte x = s.echoByte x := by
  refine echoByte_congr ?_ x
  rw [readDone, leaveRegion_target, deassert_target, dataSampled_mem, readReady_target a hrel hE]

end read

/-- The composed result, by the lanes enabled (R220). -/
theorem composeRead_echoLane (s : State) (A : BitVec 16) (lo hi : Bool) :
    composeRead (echoLane s A lo .low) (echoLane s A hi .high) =
      if lo then
        if hi then s.echoByte (laneAddress A .high).toNat ++ s.echoByte (laneAddress A .low).toNat
        else (0 : Byte) ++ s.echoByte (laneAddress A .low).toNat
      else if hi then (0 : Byte) ++ s.echoByte (laneAddress A .high).toNat else 0 := by
  cases lo <;> cases hi <;> rfl

/-- Settles O44: both read commands are read cycles, which sample the addressed word in the read data phase. -/
theorem echoReadReturnsTheWord : Obligations.EchoReadReturnsTheWord := by
  unfold Obligations.EchoReadReturnsTheWord
  intro a i s hi hrel hE hcrit
  have hresult := (readReady_sampledResult a hrel hE).trans (composeRead_echoLane s _ _ _)
  have hkept : ∀ r x, ((readDone a s).succeed r).echoByte x = s.echoByte x := fun r x =>
    (echoByte_congr (congrArg Target.mem (State.succeed_target _ r)) x).trans (readDone_echoByte a hrel hE x)
  rcases hi with rfl | rfl
  · have hexec : exec (.bcr a) s = .next ((readDone a s).succeed (sampledResult a (readReady a s))) := by
      rw [exec, execBcr, busCycle_read _ _ _ hcrit, Flow.close_done]
    refine ⟨_, hexec, exec_onEcho hexec hE, hkept _, ?_⟩
    exact hresult.trans (if_pos rfl).symm
  · have hexec : exec (.mread a) s =
        .next ((readDone a s).succeed (zext16 (lowByte (sampledResult a (readReady a s))))) := by
      rw [exec, execMread, busCycle_read _ _ _ hcrit, Flow.close_done]
    refine ⟨_, hexec, exec_onEcho hexec hE, hkept _, ?_⟩
    have hlow := (zext16_lowByte _).trans (congrArg (fun r => (r.setWidth 8).setWidth 16) hresult)
    exact hlow.trans (if_neg nofun).symm

end Sys2Proof.Machine
end

section
/-! The family of spec/30_encoding.md: the command and event words, what they decode to and back, the STATUS word, and the
expansion of the pseudo-instructions (R100 to R116). -/

namespace Sys2Proof.Machine

/-! ## Event words (R108 to R110) -/

section
variable {w : EventWord} {n : Nat} {i : Instr}

theorem eventWord_eq {kind arg : BitVec 4} {id val : Byte} (hkind : kind = evtKind w) (harg : arg = evtArg w)
    (hid : id = evtId w) (hval : val = evtVal w) : eventWord kind arg id val = w := by
  subst hkind harg hid hval
  exact eventWord_fields w

theorem decodeSetdir_ok (h : decodeSetdir n w = .ok i) :
    ∃ p d, i = .setdir p d ∧ pinExists n p = true ∧ eventWord (evtKind w) (dirCode d) (pinId p) 0 = w := by
  unfold decodeSetdir at h
  split at h
  · cases h
  · cases h
  · next d p hd hp =>
    obtain ⟨hid, hex⟩ := pinId_of hp
    split at h
    · next hval => cases h; exact ⟨p, d, rfl, hex, eventWord_eq rfl (dirCode_of hd) hid hval.symm⟩
    · cases h

theorem decodePinLevel_ok {build : Pin → Level → Instr} (h : decodePinLevel n w build = .ok i) :
    ∃ p l, i = build p l ∧ pinExists n p = true ∧ eventWord (evtKind w) (levelCode l) (pinId p) 0 = w := by
  unfold decodePinLevel at h
  split at h
  · cases h
  · cases h
  · next l p hl hp =>
    obtain ⟨hid, hex⟩ := pinId_of hp
    split at h
    · next hval => cases h; exact ⟨p, l, rfl, hex, eventWord_eq rfl (levelCode_of hl) hid hval.symm⟩
    · cases h

theorem decodeBusdir_ok (h : decodeBusdir w = .ok i) :
    ∃ b d, i = .busdir b d ∧ eventWord (evtKind w) (dirCode d) (busId b) 0 = w := by
  unfold decodeBusdir at h
  split at h
  · cases h
  · cases h
  · next d b hd hb =>
    split at h
    · next hval => cases h; exact ⟨b, d, rfl, eventWord_eq rfl (dirCode_of hd) (busId_of hb) hval.symm⟩
    · cases h

theorem decodeBusValue_ok {build : Bus → Byte → Instr} (h : decodeBusValue w build = .ok i) :
    ∃ b v, i = build b v ∧ eventWord (evtKind w) 0 (busId b) v = w := by
  unfold decodeBusValue at h
  split at h
  · cases h
  · next harg =>
    split at h
    · cases h
    · next b hb => cases h; exact ⟨b, _, rfl, eventWord_eq rfl (not_not.mp harg).symm (busId_of hb) rfl⟩

theorem decodeCrit_ok {j : Instr} (h : decodeCrit w j = .ok i) : i = j ∧ eventWord (evtKind w) 0 0 0 = w := by
  unfold decodeCrit at h
  split at h
  · cases h
  split at h
  · cases h
  split at h
  · cases h
  next harg hid hval =>
  cases h
  exact ⟨rfl, eventWord_eq rfl (not_not.mp harg).symm (not_not.mp hid).symm (not_not.mp hval).symm⟩

/-- What an event word decodes to: a micro-operation, of pins that exist, whose word it is. -/
theorem decodeEvent_ok (h : decodeEvent n w = .ok i) :
    i.isCommand = false ∧ i.wellFormed n = true ∧ encode i = .event w := by
  unfold decodeEvent at h
  split at h
  · next hk => obtain ⟨p, d, rfl, hex, hw⟩ := decodeSetdir_ok h; exact ⟨rfl, hex, congrArg _ (hk ▸ hw)⟩
  split at h
  · next hk => obtain ⟨p, l, rfl, hex, hw⟩ := decodePinLevel_ok h; exact ⟨rfl, hex, congrArg _ (hk ▸ hw)⟩
  split at h
  · next hk => obtain ⟨p, l, rfl, hex, hw⟩ := decodePinLevel_ok h; exact ⟨rfl, hex, congrArg _ (hk ▸ hw)⟩
  split at h
  · next hk => obtain ⟨b, d, rfl, hw⟩ := decodeBusdir_ok h; exact ⟨rfl, rfl, congrArg _ (hk ▸ hw)⟩
  split at h
  · next hk => obtain ⟨b, v, rfl, hw⟩ := decodeBusValue_ok h; exact ⟨rfl, rfl, congrArg _ (hk ▸ hw)⟩
  split at h
  · next hk => obtain ⟨b, v, rfl, hw⟩ := decodeBusValue_ok h; exact ⟨rfl, rfl, congrArg _ (hk ▸ hw)⟩
  split at h
  · next hk => obtain ⟨rfl, hw⟩ := decodeCrit_ok h; exact ⟨rfl, rfl, congrArg _ (hk ▸ hw)⟩
  split at h
  · next hk => obtain ⟨rfl, hw⟩ := decodeCrit_ok h; exact ⟨rfl, rfl, congrArg _ (hk ▸ hw)⟩
  · cases h

end

/-! ## Command words (R101 to R105) -/

section
variable {w : CommandWord} {i : Instr} {n : Nat} {opc : Byte} {data : BitVec 16} {addr : BitVec 32}

theorem commandWord_eq_iff :
    commandWord opc data addr = w ↔ cmdOpc w = opc ∧ cmdRsv w = 0 ∧ cmdData16 w = data ∧ cmdAddr32 w = addr := by
  constructor
  · rintro rfl
    exact ⟨cmdOpc_commandWord .., cmdRsv_commandWord .., cmdData16_commandWord .., cmdAddr32_commandWord ..⟩
  · rintro ⟨rfl, hrsv, rfl, rfl⟩
    exact commandWord_fields w hrsv

/-- A word is the command word of its fields and of an RSV that is zero. -/
theorem commandWord_eq (hopc : cmdOpc w = opc) (hrsv : cmdRsv w = 0) (hdata : cmdData16 w = data)
    (haddr : cmdAddr32 w = addr) : CodeWord.command (commandWord opc data addr) = .command w :=
  congrArg _ (commandWord_eq_iff.mpr ⟨hopc, hrsv, hdata, haddr⟩)

theorem cmdData8_eq (w : CommandWord) : cmdData8 w = (cmdData16 w).extractLsb' 0 8 := by
  apply BitVec.eq_of_getLsbD_eq
  intro k hk
  simp [cmdData8, cmdData16, hk, show k < 16 by omega]

/-- DATA16 of a row that admits only its low byte (R101, R103). -/
theorem cmdData16_eq_byte_iff {d : Byte} :
    cmdData16 w = (0x00 : Byte) ++ d ↔ cmdData16 w &&& 0xFF00 = 0 ∧ d = cmdData8 w := by
  rw [cmdData8_eq]
  constructor
  · intro h
    rw [h]
    exact ⟨Laws.Row.lowByte_and d, (extract_zero_append d).symm⟩
  · rintro ⟨h, rfl⟩
    exact (zero_append_extract h).symm

/-- DATA16 of a row that admits nothing in it. -/
theorem cmdData16_eq_zero_iff : cmdData16 w = 0 ↔ cmdData16 w &&& 0xFFFF = 0 :=
  iff_of_eq (congrArg (· = (0 : BitVec 16)) BitVec.and_allOnes.symm)

/-- A command word whose operand fields are as its row admits is accepted (R104). -/
theorem accepted_commandWord {m : BitVec 16} {u : LowUse} (hdata : data &&& ~~~m = 0)
    (hzero : u = .mustBeZero → addr = 0) (haddr : u = .address → addressInRange addr = true) :
    accepted (commandWord opc data addr) m u i = .ok i := by
  have hnone : fieldError (commandWord opc data addr) m u = none := by
    unfold fieldError
    rw [cmdRsv_commandWord, cmdData16_commandWord, cmdAddr32_commandWord, if_neg (not_not.mpr rfl),
      if_neg (not_not.mpr hdata)]
    cases u with
    | mustBeZero => exact if_neg (not_not.mpr (hzero rfl))
    | address => exact if_pos (haddr rfl)
    | any => rfl
  rw [accepted, hnone]

/-- The word of a well-formed command decodes to it (R101 to R105). -/
theorem decode_encode_command (hc : i.isCommand = true) (hi : i.wellFormed n = true) :
    decode n (encode i) = .ok i := by
  have hlow : ∀ d : Byte, ((0x00 : Byte) ++ d) &&& ~~~(0x00FF : BitVec 16) = 0 := Laws.Row.lowByte_and
  cases i with
  | idle => rfl
  | check => rfl
  | ackint => rfl
  | mread a =>
    have ha : addressInRange a = true := hi
    simp [encode, decode, decodeCommand, accepted_commandWord, ha]
  | bcr a =>
    have ha : addressInRange a = true := hi
    simp [encode, decode, decodeCommand, accepted_commandWord, ha]
  | mwrite a d =>
    simp only [encode, decode, decodeCommand, cmdOpc_commandWord, cmdAddr32_commandWord, cmdData8_commandWord,
      extract_zero_append]
    exact accepted_commandWord (hlow d) nofun fun _ => hi
  | bcw a d =>
    have ha : addressInRange a = true := hi
    simp [encode, decode, decodeCommand, accepted_commandWord, ha]
  | waitint sel t =>
    simp only [encode, decode, decodeCommand, cmdOpc_commandWord, cmdAddr32_commandWord, cmdData8_commandWord,
      extract_zero_append]
    exact accepted_commandWord (hlow sel) nofun nofun
  | _ => cases hc

/-- What a command word decodes to: a well-formed instruction whose word it is, read off row by row. -/
theorem decodeCommand_ok (n : Nat) (h : decodeCommand w = .ok i) : encode i = .command w ∧ i.wellFormed n = true := by
  have hlow : cmdData16 w &&& 0xFF00 = 0 → cmdData16 w = (0x00 : Byte) ++ cmdData8 w := fun h =>
    cmdData16_eq_byte_iff.mpr ⟨h, rfl⟩
  have hzero := (cmdData16_eq_zero_iff (w := w)).mpr
  unfold decodeCommand at h
  split at h
  · next ho => obtain ⟨rfl, hr, hd, hz, -⟩ := accepted_ok h; exact ⟨commandWord_eq ho hr (hzero hd) (hz rfl), rfl⟩
  split at h
  · next ho => obtain ⟨rfl, hr, hd, hz, -⟩ := accepted_ok h; exact ⟨commandWord_eq ho hr (hzero hd) (hz rfl), rfl⟩
  split at h
  · next ho => obtain ⟨rfl, hr, hd, -, ha⟩ := accepted_ok h; exact ⟨commandWord_eq ho hr (hzero hd) rfl, ha rfl⟩
  split at h
  · next ho => obtain ⟨rfl, hr, hd, -, ha⟩ := accepted_ok h; exact ⟨commandWord_eq ho hr (hlow hd) rfl, ha rfl⟩
  split at h
  · next ho => obtain ⟨rfl, hr, hd, -, ha⟩ := accepted_ok h; exact ⟨commandWord_eq ho hr (hzero hd) rfl, ha rfl⟩
  split at h
  · next ho => obtain ⟨rfl, hr, hd, -, ha⟩ := accepted_ok h; exact ⟨commandWord_eq ho hr rfl rfl, ha rfl⟩
  split at h
  · next ho => obtain ⟨rfl, hr, hd, -, -⟩ := accepted_ok h; exact ⟨commandWord_eq ho hr (hlow hd) rfl, rfl⟩
  split at h
  · next ho => obtain ⟨rfl, hr, hd, hz, -⟩ := accepted_ok h; exact ⟨commandWord_eq ho hr (hzero hd) (hz rfl), rfl⟩
  · cases h

/-- A word decodes to a command exactly when it is the word of that command, which is well-formed. -/
theorem decodeCommand_eq_ok_iff (n : Nat) (hc : i.isCommand = true) :
    decodeCommand w = .ok i ↔ encode i = .command w ∧ i.wellFormed n = true := by
  refine ⟨decodeCommand_ok n, fun ⟨hw, hi⟩ => ?_⟩
  have h := decode_encode_command hc hi
  rwa [hw] at h

end

/-! ## There and back (R103, R104, R109) -/

/-- A micro-operation is encoded as its event. -/
theorem encode_eq_eventOf {i : Instr} (hi : i.isCommand = false) : encode i = .event (eventOf i) := by
  cases i with
  | idle | check | mread | mwrite | bcr | bcw | waitint | ackint => cases hi
  | _ => rfl

/-- Settles O8, for the commands and for the micro-operations. -/
theorem decodeOfEncodeIsIdentity : Obligations.DecodeOfEncodeIsIdentity := by
  unfold Obligations.DecodeOfEncodeIsIdentity
  intro n i hi
  cases hc : i.isCommand with
  | true => exact decode_encode_command hc hi
  | false =>
    rw [encode_eq_eventOf hc]
    exact decodeEvent_eventOf hc hi

/-- Settles O9, for the command words and for the event words. -/
theorem encodeOfDecodeIsIdentity : Obligations.EncodeOfDecodeIsIdentity := by
  unfold Obligations.EncodeOfDecodeIsIdentity
  intro n w i h
  cases w with
  | command w => exact decodeCommand_ok n h
  | event w =>
    obtain ⟨-, hwf, hencode⟩ := decodeEvent_ok h
    exact ⟨hencode, hwf⟩

/-! ## The words of the trace (R109, R112) -/

/-- Every word of the trace is the word of a micro-operation, of pins that exist where `n` ground pins do. -/
def TraceDecodes (n : Nat) (s : State) : Prop := ∀ w ∈ s.trace, ∃ i, decodeEvent n w = .ok i

theorem TraceDecodes.congr {n : Nat} {s t : State} (h : t.trace = s.trace) (hs : TraceDecodes n s) : TraceDecodes n t :=
  fun w hw => hs w (h ▸ hw)

theorem MicroStep.traceDecodes {n : Nat} {i : Instr} {s t : State} (h : MicroStep i s t) (hi : i.wellFormed n = true)
    (hs : TraceDecodes n s) : TraceDecodes n t := by
  intro w hw
  rw [h.trace, List.mem_append, List.mem_singleton] at hw
  rcases hw with hw | rfl
  · exact hs w hw
  · exact ⟨i, decodeEvent_eventOf h.isCommand_eq_false hi⟩

/-- An execution keeps the trace decoding where every micro-operation it may perform names a pin that exists. -/
theorem exec_traceDecodes {n : Nat} {i : Instr} {s t : State} (hi : ∀ j, Allowed s.cfg i j → j.wellFormed n = true)
    (h : exec i s = .next t) (hs : TraceDecodes n s) : TraceDecodes n t := by
  obtain ⟨u, hgoes, hclosed⟩ := exec_next h
  have hu : TraceDecodes n u := hgoes.keeps (TraceDecodes n) (fun j _ _ hj hm => hm.traceDecodes (hi j hj)) hs
  exact hu.congr hclosed.samePins.trace

/-- A micro-operation performs micro-operations of its own pin only. -/
theorem Allowed.wellFormed_of_micro {c : Config} {n : Nat} {i j : Instr} (hi : i.isCommand = false)
    (hw : i.wellFormed n = true) (h : Allowed c i j) : j.wellFormed n = true := by
  rcases allowed_micro hi h with rfl | ⟨p, l, l', rfl, rfl⟩ | ⟨b, v, v', rfl, rfl⟩
  · exact hw
  · exact hw
  · exact hw

/-- Settles O54: the word at the micro-step names existing pins because it decodes, and a command's micro-operations do
because the configuration is well-formed. -/
theorem stepKeepsEveryTraceWordValid : Obligations.StepKeepsEveryTraceWordValid := by
  unfold Obligations.StepKeepsEveryTraceWordValid
  intro s t hcfg (hs : TraceDecodes s.cfg.nGnd s) hstep
  rw [(stepKeepsConfigurationAndHistory s t hstep).1]
  change TraceDecodes s.cfg.nGnd t
  cases (step_next hstep).2 with
  | waited _ _ ht => exact ht ▸ hs
  | badEvent w rest why _ _ ht => exact ht ▸ hs
  | badCommand w rest why _ _ _ ht => exact ht ▸ hs
  | ranMicro w rest i _ hd he =>
    obtain ⟨hmicro, hwf, -⟩ := decodeEvent_ok hd
    exact exec_traceDecodes (fun _ => Allowed.wellFormed_of_micro hmicro hwf) he (hs.congr rfl)
  | ranCommand w rest i _ _ hd he =>
    refine exec_traceDecodes (fun j hj => ?_) he (hs.congr rfl)
    exact hj.wellFormed (decodeCommand_isCommand hd) hcfg

/-! ## Rejected event words (R109, R110, R112) -/

theorem evtKind_toNat (w : EventWord) : (evtKind w).toNat = (w >>> 20).toNat := by
  have hlt : (w >>> 20).toNat < 2 ^ 4 := by
    rw [BitVec.toNat_ushiftRight, Nat.shiftRight_eq_div_pow]
    omega
  exact (BitVec.toNat_setWidth ..).trans (Nat.mod_eq_of_lt hlt)

/-- KIND 0 and 9 to 15 are reserved (R109). -/
theorem decodeEvent_reservedKind (n : Nat) {w : EventWord} (h : evtKind w = 0 ∨ 9 ≤ (evtKind w).toNat) :
    decodeEvent n w = .error .reservedKind := by
  have hne : ∀ k : BitVec 4, k = 0 ∨ 9 ≤ k.toNat → k ∉ [1, 2, 3, 4, 5, 6, 7, 8] := by decide
  have hk := hne _ h
  simp only [List.mem_cons, List.not_mem_nil, or_false, not_or] at hk
  obtain ⟨h1, h2, h3, h4, h5, h6, h7, h8⟩ := hk
  rw [decodeEvent, if_neg h1, if_neg h2, if_neg h3, if_neg h4, if_neg h5, if_neg h6, if_neg h7, if_neg h8]

/-- Direction codes 3 to 15 are reserved (R110). -/
theorem dirOfCode_eq_none : ∀ {c : BitVec 4}, 3 ≤ c.toNat → dirOfCode c = none := by decide

theorem dirOfCode_eq_some {c : BitVec 4} (h : c.toNat < 3) : ∃ d, dirOfCode c = some d :=
  Option.isSome_iff_exists.mp ((by decide : ∀ c : BitVec 4, c.toNat < 3 → (dirOfCode c).isSome = true) c h)

theorem decodeEvent_setdir (n : Nat) {w : EventWord} (h : evtKind w = 1) : decodeEvent n w = decodeSetdir n w := if_pos h

theorem pinOfId_eq_none {n : Nat} {id : Byte} (h : 0x20 + n ≤ id.toNat) : pinOfId n id = none := by
  unfold pinOfId
  split
  · exact if_neg (by simpa [pinExists] using h)
  · rfl

theorem decodeSetdir_badArg (n : Nat) {w : EventWord} (h : dirOfCode (evtArg w) = none) :
    decodeSetdir n w = .error .badArg := by
  rw [decodeSetdir, h]

theorem decodeSetdir_badId {n : Nat} {w : EventWord} {d : Dir} (hd : dirOfCode (evtArg w) = some d)
    (hp : pinOfId n (evtId w) = none) : decodeSetdir n w = .error .badId := by
  rw [decodeSetdir, hd, hp]

/-- Settles O7: a reserved KIND selects no row, and a SETDIR word's direction code is looked at before its id. -/
theorem eventWordsAreChecked : Obligations.EventWordsAreChecked := by
  unfold Obligations.EventWordsAreChecked
  intro n w
  have hsetdir (hkind : (w >>> 20).toNat = 1) : decodeEvent n w = decodeSetdir n w :=
    decodeEvent_setdir n (BitVec.eq_of_toNat_eq ((evtKind_toNat w).trans hkind))
  refine ⟨fun h => ?_, fun i h => ?_, fun hkind harg => ?_, fun hkind harg hid => ?_⟩
  · rw [← evtKind_toNat] at h
    exact decodeEvent_reservedKind n h
  · exact decodeEvent_ok h
  · rw [hsetdir hkind]
    exact decodeSetdir_badArg n (dirOfCode_eq_none harg)
  · obtain ⟨d, hd⟩ := dirOfCode_eq_some harg
    rw [hsetdir hkind]
    exact decodeSetdir_badId hd (pinOfId_eq_none hid)

/-! ## The rows of R103 -/

section
variable {w : CommandWord} {i : Instr} {opc : Byte} {data : BitVec 16} {addr : BitVec 32}

/-- Bits 31:18 are zero exactly when the mask of an address row of R103 finds none (R106). -/
theorem addressInRange_iff (a : BitVec 32) : addressInRange a = true ↔ a &&& 0xFFFC0000 = 0 := by
  refine ⟨Laws.Row.address_and, fun h => decide_eq_true ?_⟩
  have hx := congrArg (BitVec.extractLsb' 18 14) h
  rw [BitVec.extractLsb'_and] at hx
  exact BitVec.and_allOnes.symm.trans hx

/-- What the match and mask of a row of R103 ask of a word's fields. -/
theorem and_mask_eq_iff {mask : CommandWord} (hopc : cmdOpc mask = 0xFF) (hrsv : cmdRsv mask = 0xFF) :
    w &&& mask = commandWord opc 0 0 ↔
      cmdOpc w = opc ∧ cmdRsv w = 0 ∧ cmdData16 w &&& cmdData16 mask = 0 ∧ cmdAddr32 w &&& cmdAddr32 mask = 0 := by
  have hfields : cmdOpc (w &&& mask) = cmdOpc w ∧ cmdRsv (w &&& mask) = cmdRsv w ∧
      cmdData16 (w &&& mask) = cmdData16 w &&& cmdData16 mask ∧
      cmdAddr32 (w &&& mask) = cmdAddr32 w &&& cmdAddr32 mask := by
    refine ⟨?_, ?_, BitVec.extractLsb'_and, BitVec.extractLsb'_and⟩
    · exact BitVec.extractLsb'_and.trans ((congrArg (cmdOpc w &&& ·) hopc).trans BitVec.and_allOnes)
    · exact BitVec.extractLsb'_and.trans ((congrArg (cmdRsv w &&& ·) hrsv).trans BitVec.and_allOnes)
  obtain ⟨ho, hr, hd, ha⟩ := hfields
  rw [eq_comm, commandWord_eq_iff, ho, hr, hd, ha]

/-- A row of R103 whose mask leaves operands free: `D` is what it says of the operand in DATA16. -/
theorem decodeCommand_row (i : Instr) (mask : CommandWord) {D : Prop} (hc : i.isCommand = true)
    (hi : encode i = .command (commandWord opc data addr))
    (hopc : cmdOpc mask = 0xFF) (hrsv : cmdRsv mask = 0xFF)
    (hdata : cmdData16 w = data ↔ cmdData16 w &&& cmdData16 mask = 0 ∧ D)
    (haddr : i.wellFormed 0 = true ↔ addr &&& cmdAddr32 mask = 0) :
    decodeCommand w = .ok i ↔ w &&& mask = commandWord opc 0 0 ∧ addr = w.setWidth 32 ∧ D := by
  rw [decodeCommand_eq_ok_iff 0 hc, hi, CodeWord.command.injEq, commandWord_eq_iff, and_mask_eq_iff hopc hrsv, hdata,
    haddr]
  constructor
  · rintro ⟨⟨ho, hr, ⟨hd, hD⟩, rfl⟩, ha⟩
    exact ⟨⟨ho, hr, hd, ha⟩, rfl, hD⟩
  · rintro ⟨⟨ho, hr, hd, ha⟩, rfl, hD⟩
    exact ⟨⟨ho, hr, ⟨hd, hD⟩, rfl⟩, ha⟩

/-- A row of R103 whose mask leaves nothing free. -/
theorem decodeCommand_fixedRow {v : CommandWord} (hc : i.isCommand = true) (hi : encode i = .command v)
    (hwf : i.wellFormed 0 = true) : decodeCommand w = .ok i ↔ w &&& 0xFFFFFFFFFFFFFFFF = v := by
  rw [decodeCommand_eq_ok_iff 0 hc, hi, CodeWord.command.injEq, and_iff_left hwf, eq_comm]
  exact (iff_of_eq (congrArg (· = v) BitVec.and_allOnes)).symm

end

/-- Settles O6, row by row. -/
theorem commandRowsSelectTheirWords : Obligations.CommandRowsSelectTheirWords := by
  unfold Obligations.CommandRowsSelectTheirWords
  intro w
  have hnone : cmdData16 w = 0 ↔ cmdData16 w &&& 0xFFFF = 0 ∧ True :=
    cmdData16_eq_zero_iff.trans (iff_of_eq (and_true _)).symm
  have hall : ∀ d, cmdData16 w = d ↔ cmdData16 w &&& 0 = 0 ∧ d = cmdData16 w := fun d => by
    rw [and_iff_right (Laws.Row.and_none _), eq_comm]
  refine ⟨decodeCommand_fixedRow rfl rfl rfl, decodeCommand_fixedRow rfl rfl rfl, fun a => ?_, fun a d => ?_,
    fun a => ?_, fun a d => ?_, fun n t => ?_, decodeCommand_fixedRow rfl rfl rfl⟩
  · rw [← and_true (a = _)]
    exact decodeCommand_row (.mread a) 0xFFFFFFFFFFFC0000 rfl rfl rfl rfl hnone (addressInRange_iff a)
  · exact decodeCommand_row (.mwrite a d) 0xFFFFFF00FFFC0000 rfl rfl rfl rfl cmdData16_eq_byte_iff (addressInRange_iff a)
  · rw [← and_true (a = _)]
    exact decodeCommand_row (.bcr a) 0xFFFFFFFFFFFC0000 rfl rfl rfl rfl hnone (addressInRange_iff a)
  · exact decodeCommand_row (.bcw a d) 0xFFFF0000FFFC0000 rfl rfl rfl rfl (hall d) (addressInRange_iff a)
  · rw [and_comm (a := n = _)]
    exact decodeCommand_row (.waitint n t) 0xFFFFFF0000000000 rfl rfl rfl rfl cmdData16_eq_byte_iff
      (iff_of_true rfl BitVec.and_zero)

/-! ## The STATUS word (R111) -/

/-- The level of a STATUS byte. -/
def levelOfByte (v : Byte) : Level := if v = 0 then .low else .high

/-- The Outcome that a STATUS word of R111 holds; it shows that `encodeOutcome` loses nothing. -/
def outcomeOf (w : BitVec 32) : Option CmdOutcome :=
  if statusCode w = 0 then some .success
  else if statusCode w = 1 then
    (pinOfId 16 (statusSubject w)).map fun p =>
      .pinStateMismatch p (levelOfByte (statusExpected w)) (levelOfByte (statusObserved w))
  else if statusCode w = 2 then
    (busOfId (statusSubject w)).map fun b => .busValueMismatch b (statusExpected w) (statusObserved w)
  else if statusCode w = 3 then some .notImplemented
  else some .timeout

@[simp] theorem levelOfByte_levelByte (l : Level) : levelOfByte (levelByte l) = l := by cases l <;> rfl

theorem levelByte_eq (l : Level) : levelByte l = if l = .high then 1 else 0 := by cases l <;> rfl
theorem busId_eq (b : Bus) : busId b = if b = .low then 0x40 else 0x41 := by cases b <;> rfl

theorem outcomeOf_encodeOutcome (o : CmdOutcome) : outcomeOf (encodeOutcome o) = some o := by
  cases o with
  | success => rfl
  | pinStateMismatch p e o =>
    have hp : pinExists 16 p = true := decide_eq_true p.isLt
    simp [encodeOutcome, outcomeOf, pinOfId_pinId hp]
  | busValueMismatch b e o => simp [encodeOutcome, outcomeOf]
  | notImplemented => rfl
  | timeout => rfl

/-- Settles O11: no two Outcomes share a word because each is read back from its own. -/
theorem statusWordEncodesTheOutcome : Obligations.StatusWordEncodesTheOutcome := by
  unfold Obligations.StatusWordEncodesTheOutcome
  refine ⟨⟨rfl, rfl, rfl⟩, fun p e o => ?_, fun b e o => ?_, fun x y h => ?_⟩
  · simp only [encodeOutcome, statusCode_statusWord, statusSubject_statusWord, statusExpected_statusWord,
      statusObserved_statusWord, pinId_toNat, levelByte_eq, and_self]
  · simp only [encodeOutcome, statusCode_statusWord, statusSubject_statusWord, statusExpected_statusWord,
      statusObserved_statusWord, busId_eq, and_self]
  · apply Option.some.inj
    rw [← outcomeOf_encodeOutcome x, h, outcomeOf_encodeOutcome]

/-! ## The pseudo-instructions (R115) -/

theorem getLsbD_ofNat_eq (x : Nat) {k : Nat} (hk : k < 32) :
    (BitVec.ofNat 32 x).getLsbD k = decide (x / 2 ^ k % 2 = 1) := by
  rw [BitVec.getLsbD_ofNat, decide_eq_true hk, Bool.true_and, Nat.testBit_eq_decide_div_mod_eq]

/-- What an address value holds (R106): `lane` in the two lane bits, `addr` in bits 15:0. -/
structure HoldsAddress (a : BitVec 32) (lane addr : Nat) : Prop where
  low : a.getLsbD 16 = decide (lane % 2 = 1)
  high : a.getLsbD 17 = decide (2 ≤ lane)
  addr : (a.setWidth 16).toNat = addr
  inRange : a.toNat < 2 ^ 18

theorem holdsAddress_ofNat {lane addr : Nat} (hl : lane < 4) (ha : addr < 65536) :
    HoldsAddress (BitVec.ofNat 32 (lane * 0x10000 + addr)) lane addr where
  low := by
    rw [getLsbD_ofNat_eq _ (by decide), decide_eq_decide]
    omega
  high := by
    rw [getLsbD_ofNat_eq _ (by decide), decide_eq_decide]
    omega
  addr := by
    rw [BitVec.toNat_setWidth, BitVec.toNat_ofNat]
    omega
  inRange := by
    rw [BitVec.toNat_ofNat]
    omega

/-- `lanes(b) | (b & 0xFFFE)` enables the lane of the parity of `b` (R115). -/
theorem byteAddressValue_eq (b : Nat) : byteAddressValue b = (1 + b % 2) * 0x10000 + (b - b % 2) := by
  unfold byteAddressValue lanes
  split <;> omega

theorem wordAddressValue_eq (w : Nat) : wordAddressValue w = 3 * 0x10000 + 2 * w := by
  unfold wordAddressValue
  omega

theorem assemble_rdb {b : Nat} (hb : b < 65536) :
    assemble (.rdb b) = .ok (.mread (BitVec.ofNat 32 (byteAddressValue b))) :=
  if_pos (decide_eq_true hb)

theorem assemble_wrb {b d : Nat} (hb : b < 65536) (hd : d < 256) :
    assemble (.wrb b d) = .ok (.mwrite (BitVec.ofNat 32 (byteAddressValue b)) (BitVec.ofNat 8 d)) :=
  if_pos (Bool.and_eq_true_iff.mpr ⟨decide_eq_true hb, decide_eq_true hd⟩)

theorem assemble_rdw {w : Nat} (hw : w < 0x8000) :
    assemble (.rdw w) = .ok (.bcr (BitVec.ofNat 32 (wordAddressValue w))) :=
  if_pos (decide_eq_true hw)

theorem assemble_wrw {w d : Nat} (hw : w < 0x8000) (hd : d < 65536) :
    assemble (.wrw w d) = .ok (.bcw (BitVec.ofNat 32 (wordAddressValue w)) (BitVec.ofNat 16 d)) :=
  if_pos (Bool.and_eq_true_iff.mpr ⟨decide_eq_true hw, decide_eq_true hd⟩)

/-- Settles O12: an address value is read off as its two lane bits above its sixteen address bits. -/
theorem pseudoInstructionsExpand : Obligations.PseudoInstructionsExpand := by
  unfold Obligations.PseudoInstructionsExpand
  refine ⟨fun b hb => ?_, fun b d hb hd => ?_, fun w hw => ?_, fun w d hw hd => ?_, fun w d hw => ?_⟩
  · have h := holdsAddress_ofNat (lane := 1 + b % 2) (addr := b - b % 2) (by omega) (by omega)
    rw [← byteAddressValue_eq] at h
    refine ⟨_, assemble_rdb hb, h.low.trans ?_, h.high.trans ?_, h.addr, h.inRange⟩
    · rw [decide_eq_decide]; omega
    · rw [decide_eq_decide]; omega
  · exact ⟨_, assemble_wrb hb hd, assemble_rdb hb⟩
  · have h := holdsAddress_ofNat (lane := 3) (addr := 2 * w) (by decide) (by omega)
    rw [← wordAddressValue_eq] at h
    exact ⟨_, assemble_rdw hw, h.low, h.high, h.addr, h.inRange⟩
  · exact ⟨_, assemble_wrw hw hd, assemble_rdw hw⟩
  · exact ⟨by simp [assemble, ifFits, hw], by simp [assemble, ifFits, hw]⟩

/-! ## The command in CMD (R100), and words of the tables (R116) -/

/-- An unmarked state with no sequence in progress runs the command its harness's next word spells. -/
theorem step_command {s : State} {w : CommandWord} {rest : List CommandWord} {i : Instr} (hu : s.unmarked)
    (hm : s.micro = []) (hi : s.inbox = w :: rest) (hd : decodeCommand w = .ok i) :
    step s = exec i ((s.withInbox rest).withCmd w) := by
  unfold step
  rw [stopped_eq_none.mpr hu]
  simp only [State.fetch, hm, hi, Fetched.word, decode, hd]

/-- Settles O2. -/
theorem stepRunsTheNextCommand : Obligations.StepRunsTheNextCommand := by
  unfold Obligations.StepRunsTheNextCommand
  intro s w rest i hu hm hi hd
  have hfetched : (s.withInbox rest).withCmd w = { s with inbox := rest, cmd := w } := rfl
  rw [← hfetched]
  exact step_command hu hm hi hd

/-- Settles O10: closed words. -/
theorem wordsOfTheSpecDecode : Obligations.WordsOfTheSpecDecode := by
  unfold Obligations.WordsOfTheSpecDecode
  decide

end Sys2Proof.Machine
end

section
/-! The family of spec/40_gpio_primitives.md: what each micro-operation does to the pins and what the target sees of them,
when it faults, and the bus cycle begun inside the critical region (R140 to R150). -/

namespace Sys2Proof.Machine

/-! ## What the target sees of a pin (R34, R35) -/

/-- What the target sees of a pin with direction `d` and latch `l` (R34). -/
def driveOf (d : Dir) (l : Level) : Drive :=
  match d with
  | .output => .driven l
  | .input => .floating
  | .inputPullup => .pulledUp

theorem seen_eq (s : State) (q : Pin) : s.seen q = driveOf s.dir[q] s.lat[q] := rfl

theorem seen_congr {s t : State} {q : Pin} (hd : t.dir[q] = s.dir[q]) (hl : t.lat[q] = s.lat[q]) :
    t.seen q = s.seen q := by
  rw [seen_eq, seen_eq, hd, hl]

/-- The latch of an input is not seen. -/
theorem seen_congr_of_input {s t : State} {q : Pin} (hd : t.dir[q] = s.dir[q]) (hin : s.dir[q] ≠ .output) :
    t.seen q = s.seen q := by
  rw [seen_eq, seen_eq, hd]
  cases h : s.dir[q] with
  | output => exact absurd h hin
  | input => rfl
  | inputPullup => rfl

/-- A pin that is no member of the bus. -/
theorem getElem_setMembers_of_ne {α : Type} (xs : Vector α 48) {b : Bus} (f : Fin 8 → α) {q : Pin}
    (hq : ∀ i, q ≠ b.member i) : (setMembers xs b f)[q] = xs[q] := by
  rw [getElem_setMembers, dif_neg]
  intro h
  refine hq ⟨q.val - b.base, by omega⟩ (Fin.ext ?_)
  simp only [Bus.member]
  omega

theorem not_mem_ofFn_member {b : Bus} {q : Pin} : q ∉ List.ofFn b.member ↔ ∀ i, q ≠ b.member i := by
  simp only [List.mem_ofFn, not_exists, ne_comm, ne_eq]

theorem setDir_seen (p : Pin) (d : Dir) (s : State) (q : Pin) :
    (setDir p d s).seen q = if q = p then driveOf d s.lat[p] else s.seen q := by
  split
  · next h =>
    subst h
    rw [seen_eq, setDir_dir, getElem_setPin, if_pos rfl, setDir_lat]
  · next h => exact seen_congr (by rw [setDir_dir, getElem_setPin, if_neg (Ne.symm h)]) (by rw [setDir_lat])

theorem wrLvl_seen_output {p : Pin} (l : Level) {s : State} (h : s.dir[p] = .output) :
    (wrLvl p l s).seen p = .driven l :=
  drives_iff_seen.mp (wrLvl_drives_self l h)

theorem wrLvl_seen_input {p : Pin} (l : Level) {s : State} (h : s.dir[p] ≠ .output) :
    (wrLvl p l s).seen p = s.seen p :=
  seen_congr_of_input (by rw [wrLvl_dir]) h

theorem wrLvl_seen_of_ne {p q : Pin} (l : Level) (s : State) (h : q ≠ p) : (wrLvl p l s).seen q = s.seen q :=
  seen_congr (by rw [wrLvl_dir]) (wrLvl_lat_of_ne l s h)

theorem busDir_seen_member (b : Bus) (d : Dir) (s : State) (i : Fin 8) :
    (busDir b d s).seen (b.member i) = driveOf d s.lat[b.member i] := by
  rw [seen_eq, busDir_dir, getElem_setMembers_member, busDir_lat]

theorem busDir_seen_of_ne {b : Bus} (d : Dir) (s : State) {q : Pin} (hq : ∀ i, q ≠ b.member i) :
    (busDir b d s).seen q = s.seen q :=
  seen_congr (by rw [busDir_dir, getElem_setMembers_of_ne _ _ hq]) (by rw [busDir_lat])

theorem bitLevel_eq (x : Bool) : bitLevel x = if x then .high else .low := by cases x <;> rfl

theorem driveBus_seen_member {b : Bus} (v : Byte) {s : State} {i : Fin 8} (h : s.dir[b.member i] = .output) :
    (driveBus b v s).seen (b.member i) = .driven (if v.getLsbD i then .high else .low) := by
  rw [seen_eq, driveBus_dir, h, driveBus_lat, getElem_setMembers_member, bitLevel_eq]
  rfl

theorem driveBus_lat_of_ne {b : Bus} (v : Byte) (s : State) {q : Pin} (hq : ∀ i, q ≠ b.member i) :
    (driveBus b v s).lat[q] = s.lat[q] := by
  rw [driveBus_lat, getElem_setMembers_of_ne _ _ hq]

/-! ## A micro-operation as an instruction: it runs to its end, or raises its fault -/

/-- The first fault of a run is the one recorded (R285). -/
theorem raise_of_unfaulted {s : State} (f : Fault) (h : s.faultMark = none) :
    s.raise f = { s with faultMark := some f } := by
  rw [State.raise, h]
  rfl

theorem exec_rdlvl_fault {p : Pin} (l : Level) {s : State} (h : s.dir[p] = .output) :
    exec (.rdlvl p l) s = .next (s.raise (.readOfOutputPin p)) := by
  simp only [exec, execRdlvl, rdLvl_fault h, Flow.settle_faulted]

theorem exec_buswr_fault {b : Bus} (v : Byte) {s : State} (h : ∃ i, s.dir[b.member i] ≠ .output) :
    exec (.buswr b v) s = .next (s.raise (.busWriteNotOutput b)) := by
  simp only [exec, execBuswr, busWr_fault v h, Flow.settle_faulted]

theorem exec_busrd_fault {b : Bus} (v : Byte) {s : State} (h : ∃ i, s.dir[b.member i] = .output) :
    exec (.busrd b v) s = .next (s.raise (.busReadNotInput b)) := by
  simp only [exec, execBusrd, busRd_fault h, Flow.settle_faulted]

theorem exec_critenter_fault {s : State} (h : s.crit = true) : exec .critenter s = .next (s.raise .critNested) := by
  simp only [exec, execCritenter, critEnter_fault h, Flow.settle_faulted]

theorem exec_critleave_fault {s : State} (h : s.crit = false) :
    exec .critleave s = .next (s.raise .critUnbalanced) := by
  simp only [exec, execCritleave, critLeave_fault h, Flow.settle_faulted]

/-- What a micro-operation can do: run to its end, or record a fault and change nothing else. -/
inductive MicroEnd (i : Instr) (s : State) : State → Prop where
  | ran {j : Instr} {t : State} (ha : Allowed s.cfg i j) (h : MicroStep j s t) : MicroEnd i s t
  | raised (f : Fault) : MicroEnd i s (s.raise f)

theorem exec_microEnd {i : Instr} (hi : i.isCommand = false) (s : State) :
    ∃ t, exec i s = .next t ∧ MicroEnd i s t := by
  cases i with
  | setdir p d => exact ⟨_, rfl, .ran rfl (.setdir p d s)⟩
  | wrlvl p l => exact ⟨_, rfl, .ran rfl (.wrlvl p l s)⟩
  | busdir b d => exact ⟨_, rfl, .ran rfl (.busdir b d s)⟩
  | rdlvl p l =>
    by_cases h : s.dir[p] = .output
    · exact ⟨_, exec_rdlvl_fault l h, .raised _⟩
    · exact ⟨_, (MicroStep.rdlvl p s h).exec_eq, .ran ⟨_, rfl⟩ (.rdlvl p s h)⟩
  | buswr b v =>
    by_cases h : ∃ i, s.dir[b.member i] ≠ .output
    · exact ⟨_, exec_buswr_fault v h, .raised _⟩
    · have hout : ∀ i, s.dir[b.member i] = .output := fun i => not_not.mp fun hi => h ⟨i, hi⟩
      exact ⟨_, (MicroStep.buswr b v s hout).exec_eq, .ran rfl (.buswr b v s hout)⟩
  | busrd b v =>
    by_cases h : ∃ i, s.dir[b.member i] = .output
    · exact ⟨_, exec_busrd_fault v h, .raised _⟩
    · have hin : ∀ i, s.dir[b.member i] ≠ .output := not_exists.mp h
      exact ⟨_, (MicroStep.busrd b s hin).exec_eq, .ran ⟨_, rfl⟩ (.busrd b s hin)⟩
  | critenter =>
    cases h : s.crit with
    | true => exact ⟨_, exec_critenter_fault h, .raised _⟩
    | false => exact ⟨_, (MicroStep.critenter s h).exec_eq, .ran rfl (.critenter s h)⟩
  | critleave =>
    cases h : s.crit with
    | true => exact ⟨_, (MicroStep.critleave s h).exec_eq, .ran rfl (.critleave s h)⟩
    | false => exact ⟨_, exec_critleave_fault h, .raised _⟩
  | _ => cases hi

/-! ## The eight micro-operations (R141 to R148) -/

/-- Settles O13. -/
theorem setdirSetsTheDirection : Obligations.SetdirSetsTheDirection := by
  unfold Obligations.SetdirSetsTheDirection
  intro p d s
  have hseen : (setDir p d s).seen p = driveOf d s.lat[p] := by rw [setDir_seen, if_pos rfl]
  refine ⟨setDir p d s, rfl, fun q => ?_, setDir_lat p d s, setDir_trace p d s, ?_, ?_, ?_, setDir_faultMark p d s⟩
  · simp only [setDir_dir, getElem_setPin, eq_comm]
  all_goals
    rintro rfl
    exact hseen

/-- Settles O14. -/
theorem wrlvlWritesTheLatch : Obligations.WrlvlWritesTheLatch := by
  unfold Obligations.WrlvlWritesTheLatch
  intro p l s
  refine ⟨wrLvl p l s, rfl, fun q => ?_, wrLvl_dir p l s, wrLvl_trace p l s, wrLvl_seen_output l, wrLvl_seen_input l,
    wrLvl_faultMark p l s⟩
  simp only [wrLvl_lat, getElem_setPin, eq_comm]

/-- A state whose target answers the next two samples LOW, then HIGH. -/
def answersLowHigh : State := State.reset.withTarget { Target.reset with answers := [.low, .high] }

/-- Settles O15; two reads that differ are those of a target that answers LOW, then HIGH. -/
theorem rdlvlSamplesAnInput : Obligations.RdlvlSamplesAnInput := by
  unfold Obligations.RdlvlSamplesAnInput
  refine ⟨fun p l s h => ?_, fun p l s h hf => ?_, ?_⟩
  · exact ⟨samplePin p s, (MicroStep.rdlvl p s h).exec_eq, samplePin_trace p s, samplePin_dir p s, samplePin_lat p s,
      samplePin_crit p s, samplePin_faultMark p s, samplePin_target p s⟩
  · rw [exec_rdlvl_fault l h, raise_of_unfaulted _ hf]
  · exact ⟨Pin.ready, answersLowHigh, _, _, rfl, rfl, by decide⟩

/-- The direction of a bus whose members were set together (R37). -/
theorem busDir_busDirection (b : Bus) (d : Dir) (s : State) :
    (busDir b d s).busDirection b = if d = .output then .out else .inp := by
  have hdir : ∀ i, (busDir b d s).dir[b.member i] = d := fun i => by rw [busDir_dir, getElem_setMembers_member]
  have hout : (busDir b d s).busAllOut b = decide (d = .output) := by
    rw [Bool.eq_iff_iff, busAllOut_iff, decide_eq_true_iff]
    simp only [hdir, forall_const]
  have hin : (busDir b d s).busAllIn b = decide (d ≠ .output) := by
    rw [Bool.eq_iff_iff, busAllIn_iff, decide_eq_true_iff]
    simp only [hdir, forall_const]
  rw [State.busDirection, hout, hin]
  cases d <;> rfl

/-- Settles O16. -/
theorem busdirSetsEightMembers : Obligations.BusdirSetsEightMembers := by
  unfold Obligations.BusdirSetsEightMembers
  intro b d s
  refine ⟨busDir b d s, rfl, fun i => ?_, fun q hq => ?_, busDir_lat b d s, busDir_trace b d s, ?_,
    drivenValue_congr (busDir_lat b d s) b, busDir_busDirection b d s, busDir_faultMark b d s⟩
  · rw [busDir_dir, getElem_setMembers_member]
  · rw [busDir_dir, getElem_setMembers_of_ne _ _ hq]
  · rintro rfl i
    exact busDir_seen_member b .output s i

/-- Settles O17. -/
theorem buswrDrivesEachBit : Obligations.BuswrDrivesEachBit := by
  unfold Obligations.BuswrDrivesEachBit
  refine ⟨fun b v s h => ?_, fun b v s i h hf => ?_⟩
  · exact ⟨driveBus b v s, (MicroStep.buswr b v s h).exec_eq, fun i => driveBus_seen_member v (h i),
      driveBus_drivenValue b v s, fun q hq => driveBus_lat_of_ne v s hq, driveBus_dir b v s, driveBus_trace b v s,
      driveBus_faultMark b v s⟩
  · rw [exec_buswr_fault v ⟨i, h⟩, raise_of_unfaulted _ hf]

/-- Bit `i` of a bus read is the level member `i` answers after the members below it (R145). -/
theorem busSample_getLsbD (b : Bus) (s : State) (i : Fin 8) :
    (s.busSample b).getLsbD i = levelBit ((s.withTarget (s.sampleMembers b i).2).sample (b.member i)).1 := by
  rw [State.busSample, sampleMembers_getLsbD s b 8 i i.isLt, decide_eq_true i.isLt, Bool.true_and,
    Fin.ofNat_val_eq_self]

/-- A bus read takes the next eight foretold answers, the `i`-th into bit `i`. -/
theorem sampleBus_foretold {b : Bus} {s : State} {ans rest : List Level} (hlen : ans.length = 8)
    (h : s.foretold (ans ++ rest)) : (sampleBus b s).foretold rest ∧
      ∀ i : Fin 8, (s.busSample b).getLsbD i = decide (ans.getD i .low = .high) := by
  obtain ⟨hkind, hans⟩ := h
  obtain ⟨hrest, hbits⟩ := sampleMembers_foretold s b hkind ans rest 8 hlen.ge hans
  refine ⟨⟨?_, ?_⟩, fun i => ?_⟩
  · rw [sampleBus_target, sampleMembers_kind, hkind]
  · rw [sampleBus_target, hrest, ← hlen, List.drop_length, List.nil_append]
  · rw [State.busSample, hbits i i.isLt, decide_eq_true i.isLt, Bool.true_and]

/-- Settles O18. -/
theorem busrdComposesEightSamples : Obligations.BusrdComposesEightSamples := by
  unfold Obligations.BusrdComposesEightSamples
  refine ⟨fun b v s h => ?_, fun b v s i h hf => ?_⟩
  · exact ⟨sampleBus b s, s.busSample b, (MicroStep.busrd b s h).exec_eq, sampleBus_trace b s, sampleBus_dir b s,
      sampleBus_lat b s, sampleBus_crit b s, sampleBus_faultMark b s, busSample_getLsbD b s,
      fun ans rest hlen hans => sampleBus_foretold hlen hans⟩
  · rw [exec_busrd_fault v ⟨i, h⟩, raise_of_unfaulted _ hf]

/-- Settles O19. -/
theorem critenterSetsCrit : Obligations.CritenterSetsCrit := by
  unfold Obligations.CritenterSetsCrit
  refine fun s => ⟨fun h => (MicroStep.critenter s h).exec_eq, fun h hf => ?_⟩
  rw [exec_critenter_fault h, raise_of_unfaulted _ hf]

/-- Settles O20. -/
theorem critleaveClearsCrit : Obligations.CritleaveClearsCrit := by
  unfold Obligations.CritleaveClearsCrit
  refine fun s => ⟨fun h => ⟨leaveRegion s, (MicroStep.critleave s h).exec_eq, rfl, rfl⟩, fun h hf => ?_⟩
  rw [exec_critleave_fault h, raise_of_unfaulted _ hf]

/-! ## The frame (R140) -/

/-- But for the value a read records, a micro-operation performs only itself. -/
theorem Allowed.ne_of_micro {c : Config} {i j k : Instr} (hi : i.isCommand = false) (ha : Allowed c i j) (hne : i ≠ k)
    (hrd : ∀ p l, k ≠ .rdlvl p l) (hbus : ∀ b v, k ≠ .busrd b v) : j ≠ k := by
  rintro rfl
  rcases allowed_micro hi ha with rfl | ⟨p, _, l, _, rfl⟩ | ⟨b, _, v, _, rfl⟩
  · exact hne rfl
  · exact hrd p l rfl
  · exact hbus b v rfl

/-- Settles O21: a fault changes only its mark, and each micro-operation writes only its own field. -/
theorem microOperationFrame : Obligations.MicroOperationFrame := by
  unfold Obligations.MicroOperationFrame
  intro i s t hi h
  obtain ⟨t', he, hend⟩ := exec_microEnd hi s
  obtain rfl : t' = t := Host.Outcome.next.inj (he.symm.trans h)
  cases hend with
  | raised f =>
    exact ⟨⟨rfl, rfl, rfl, rfl, rfl, rfl, rfl, rfl⟩, fun _ _ => rfl, fun _ _ => rfl, fun _ _ => rfl, fun _ _ => rfl⟩
  | @ran j _ ha hm =>
    have hj : ∀ k, i ≠ k → (∀ p l, k ≠ .rdlvl p l) → (∀ b v, k ≠ .busrd b v) → j ≠ k := fun _ => ha.ne_of_micro hi
    have hs := hm.sameEnds
    refine ⟨⟨hs.cfg, hs.cmd, hs.result, hs.status, hs.posted, hs.refusalMark, hs.micro, hs.inbox⟩, fun hset hbus => ?_,
      fun hwr hbus => ?_, fun hin hout => hm.crit_eq ⟨hj _ hin nofun nofun, hj _ hout nofun nofun⟩,
      fun hne => echoByte_congr (hm.mem (hj _ hne nofun nofun))⟩
    · exact Vector.ext fun k hk => hm.dir_eq ⟨k, hk⟩ (fun d => hj _ (hset _ d) nofun nofun)
        (.inr fun b d => hj _ (hbus b d) nofun nofun)
    · exact Vector.ext fun k hk => hm.lat_eq ⟨k, hk⟩ (fun l => hj _ (hwr _ l) nofun nofun)
        (.inr fun b v => hj _ (hbus b v) nofun nofun)

/-! ## What the target sees after each micro-operation (R150) -/

/-- A micro-operation that writes no direction and no latch shows the target nothing new. -/
theorem exec_seen_eq {i : Instr} {s t : State} (hi : i.isCommand = false) (h : exec i s = .next t)
    (hset : ∀ p d, i ≠ .setdir p d) (hbusdir : ∀ b d, i ≠ .busdir b d) (hwr : ∀ p l, i ≠ .wrlvl p l)
    (hbuswr : ∀ b v, i ≠ .buswr b v) (q : Pin) : t.seen q = s.seen q := by
  obtain ⟨_, hdir, hlat, _⟩ := microOperationFrame i s t hi h
  exact seen_congr (by rw [hdir hset hbusdir]) (by rw [hlat hwr hbuswr])

/-- Settles O23. -/
theorem targetSeesEachEvent : Obligations.TargetSeesEachEvent := by
  unfold Obligations.TargetSeesEachEvent
  intro s t q
  refine ⟨fun p d h => ?setdir, fun p l h => ?wrlvl, fun p l h => exec_seen_eq rfl h nofun nofun nofun nofun q,
    fun b d h => ?busdir, fun b v h hout => ?buswr, fun b v h => exec_seen_eq rfl h nofun nofun nofun nofun q,
    fun h => exec_seen_eq rfl h nofun nofun nofun nofun q, fun h => exec_seen_eq rfl h nofun nofun nofun nofun q⟩
  case setdir =>
    obtain rfl : setDir p d s = t := Host.Outcome.next.inj h
    exact setDir_seen p d s q
  case wrlvl =>
    obtain rfl : wrLvl p l s = t := Host.Outcome.next.inj h
    split
    · next hq =>
      obtain ⟨rfl, hdir⟩ := hq
      exact wrLvl_seen_output l hdir
    · next hq =>
      by_cases hp : q = p
      · subst hp
        exact wrLvl_seen_input l fun hdir => hq ⟨rfl, hdir⟩
      · exact wrLvl_seen_of_ne l s hp
  case busdir =>
    obtain rfl : busDir b d s = t := Host.Outcome.next.inj h
    split
    · next hq =>
      obtain ⟨i, rfl⟩ := List.mem_ofFn.mp hq
      exact busDir_seen_member b d s i
    · next hq => exact busDir_seen_of_ne d s (not_mem_ofFn_member.mp hq)
  case buswr =>
    rw [busAllOut_iff] at hout
    obtain rfl : driveBus b v s = t := Host.Outcome.next.inj ((MicroStep.buswr b v s hout).exec_eq.symm.trans h)
    refine ⟨?_, fun hq => ?_⟩
    · rintro i rfl
      exact driveBus_seen_member v (hout i)
    · exact seen_congr (by rw [driveBus_dir]) (driveBus_lat_of_ne v s (not_mem_ofFn_member.mp hq))

/-! ## A bus cycle begun inside the critical region (R147, R285) -/

/-- The micro-operations other than CRITENTER and CRITLEAVE. -/
def NotCrit (j : Instr) : Prop := j ≠ .critenter ∧ j ≠ .critleave

/-- Steps 1 and 2 of a bus cycle lie before the region. -/
theorem goes_beforeRegion (a : BitVec 32) (c : Bool) (s : State) :
    Goes NotCrit s (onlyIf c (assertStrobes a) (addressed a s)) := by
  have hdir : ∀ b d u, Goes NotCrit u (busDir b d u) := fun b d u => goes_busDir ⟨nofun, nofun⟩
  have hdrive : ∀ b v u, Goes NotCrit u (busWr b v u).state := fun b v u => goes_busWr ⟨nofun, nofun⟩
  have hwr : ∀ p u, Goes NotCrit u (wrLvl p .low u) := fun p u => goes_wrLvl ⟨nofun, nofun⟩
  have haddress : Goes NotCrit s (addressPhase a s).state :=
    goes_andThen (((hdir .low .output s).trans (hdir .high .output _)).trans (hdrive _ _ _)) fun _ u => hdrive _ _ u
  rw [addressPhase_done] at haddress
  exact haddress.trans (goes_onlyIf ((goes_onlyIf (hwr Pin.wlb _)).trans (goes_onlyIf (hwr Pin.whb _))))

/-- A run that neither enters nor leaves the region keeps CRIT. -/
theorem Goes.crit_eq {s t : State} (h : Goes NotCrit s t) : t.crit = s.crit :=
  h.keeps (fun u => u.crit = s.crit) (fun _ _ _ hj hm hu => (hm.crit_eq hj).trans hu) rfl

/-- A run that does not enter the region emits no CRITENTER. -/
theorem Goes.critenter_not_mem_emitted {s t : State} (h : Goes NotCrit s t) : 0x700000 ∉ emitted s t := by
  obtain ⟨is, hrun, hall⟩ := h
  rw [emitted_eq hrun.trace, List.mem_map]
  rintro ⟨j, hj, he⟩
  exact (eventOf_ne_crit (hall j hj)).1 he

/-- Settles O41: steps 1 and 2 run, and step 3 raises the fault. -/
theorem nestedBusCycleFaults : Obligations.NestedBusCycleFaults := by
  unfold Obligations.NestedBusCycleFaults
  intro i s hp hcrit hfault
  obtain ⟨a, d, r, f, _, he⟩ := exec_transacting hp s
  rw [busCycle_nested a d r s hcrit, Flow.close_faulted] at he
  have hgoes := goes_beforeRegion a (!r) s
  have hends := hgoes.sameEnds
  refine ⟨_, he, ?_, hgoes.crit_eq.trans hcrit, hends.status, hends.result, hends.posted,
    hgoes.critenter_not_mem_emitted⟩
  rw [State.raise_faultMark, hends.faultMark, hfault]
  rfl

end Sys2Proof.Machine
end

section
/-! The family of spec/41_idle.md: the pin state IDLE reaches, the events it emits, and what it leaves
alone (R170, R171). -/

namespace Sys2Proof.Machine

/-! ## IDLE answers the idled state, posted with Success (R170) -/

/-- IDLE ends with Success and RESULT 0 in the state it has reached, whatever it started from. -/
theorem exec_idle (s : State) : exec .idle s = .next ((idled s).succeed 0x0000) := rfl

/-- IDLE writes no register, no mark and no configuration before it posts. -/
theorem idled_sameEnds (s : State) : SameEnds s (idled s) := (idle_goes s).sameEnds

@[simp] theorem idled_cfg (s : State) : (idled s).cfg = s.cfg := (idled_sameEnds s).cfg

/-- IDLE neither enters nor leaves the critical region. -/
theorem idled_crit (s : State) : (idled s).crit = s.crit :=
  ((idle_goes s).mono fun _ hj => Allowed.ne_crit (c := s.cfg) (i := .idle) rfl nofun hj).crit_eq

/-! ## The pins (R170, R171) -/

/-- IDLE drives every control output. -/
theorem idled_dir_control (s : State) {q : Pin} (hlo : 0x10 ≤ q.val) (hhi : q.val < 0x18) :
    (idled s).dir[q] = .output := by
  rw [idled_dir, if_neg (by omega), if_pos hhi]

/-- The latch of a pin that is no control output stays. -/
theorem idled_lat_of_ne_control (s : State) {q : Pin} (hq : q ∉ controlPins) : (idled s).lat[q] = s.lat[q] := by
  have hout : q ∉ [Pin.dls, Pin.pi, Pin.cout] ∧ q ∉ [Pin.ras, Pin.cas, Pin.wlb, Pin.whb, Pin.bclr] := by
    revert q; decide
  rw [idled_lat, if_neg hout.1, if_neg hout.2]

/-- IDLE reaches no pin that does not exist (R32): neither its direction nor its latch changes. -/
theorem idled_of_not_exists (s : State) {q : Pin} (hq : pinExists s.cfg.nGnd q = false) :
    (idled s).dir[q] = s.dir[q] ∧ (idled s).lat[q] = s.lat[q] := by
  have hge : 0x20 + s.cfg.nGnd ≤ q.val := by simpa [pinExists] using hq
  have hcontrol : ∀ p ∈ controlPins, p.val < 0x18 := by decide
  refine ⟨?_, idled_lat_of_ne_control s fun hmem => ?_⟩
  · rw [idled_dir, if_neg (by omega), if_neg (by omega), if_neg (by simp [hq])]
  · have hlt := hcontrol q hmem
    omega

/-- The safe pin state of R171, from every state. -/
theorem idled_idlePins (s : State) : (idled s).idlePins := by
  refine ⟨fun q hq => ?activeLow, fun q hq => ?activeHigh, fun q hin hex => ?input, fun b i => ?member⟩
  case activeLow =>
    obtain ⟨hlo, hhi, hne⟩ : 0x10 ≤ q.val ∧ q.val < 0x18 ∧ q ∉ [Pin.dls, Pin.pi, Pin.cout] := by
      revert q; decide
    rw [seen_eq, idled_dir_control s hlo hhi, idled_lat, if_neg hne, if_pos hq]
    rfl
  case activeHigh =>
    obtain ⟨hlo, hhi⟩ : 0x10 ≤ q.val ∧ q.val < 0x18 := by revert q; decide
    rw [seen_eq, idled_dir_control s hlo hhi, idled_lat, if_pos hq]
    rfl
  case input =>
    have hge : 0x18 ≤ q.val := by simpa [isInputPin] using hin
    rw [idled_cfg] at hex
    rw [seen_eq, idled_dir, if_neg (by omega), if_neg (by omega), if_pos hex]
    rfl
  case member =>
    rw [seen_eq, idled_dir, if_pos (member_lt b i)]
    rfl

/-- Posting touches no pin. -/
@[simp] theorem succeed_idlePins (s : State) (r : BitVec 16) : (s.succeed r).idlePins ↔ s.idlePins := Iff.rfl

@[simp] theorem succeed_echoByte (s : State) (r : BitVec 16) (a : Nat) : (s.succeed r).echoByte a = s.echoByte a := rfl

/-- A second IDLE finds every direction as it would write it. -/
theorem idled_succeed_idled_dir (s : State) (r : BitVec 16) : (idled ((idled s).succeed r)).dir = (idled s).dir := by
  have hpin : ∀ q : Pin, (idled ((idled s).succeed r)).dir[q] = (idled s).dir[q] := fun q => by
    simp only [idled_dir, State.succeed_dir, State.succeed_cfg, idled_cfg]
    split_ifs <;> rfl
  exact Vector.ext fun k hk => hpin ⟨k, hk⟩

/-- A second IDLE finds every latch as it would write it. -/
theorem idled_succeed_idled_lat (s : State) (r : BitVec 16) : (idled ((idled s).succeed r)).lat = (idled s).lat := by
  have hpin : ∀ q : Pin, (idled ((idled s).succeed r)).lat[q] = (idled s).lat[q] := fun q => by
    simp only [idled_lat, State.succeed_lat]
    split_ifs <;> rfl
  exact Vector.ext fun k hk => hpin ⟨k, hk⟩

/-! ## The events (R170) -/

theorem setdir_groundPin_event (k : Fin 16) : eventWord 1 (dirCode .input) (pinId ⟨0x20 + k.val, by omega⟩) 0 =
    BitVec.ofNat 24 (0x102000 + 0x100 * k.val) := by
  revert k; decide

/-- The events that set the ground pins to plain input, as the rule numbers them. -/
theorem groundPins_map_setdir {n : Nat} (hn : n ≤ 16) :
    (groundPins n).map (fun p => eventWord 1 (dirCode .input) (pinId p) 0) =
      (List.range n).map fun k => BitVec.ofNat 24 (0x102000 + 0x100 * k) := by
  refine List.ext_getElem (by simpa [groundPins] using hn) fun k hk _ => ?_
  have hk16 : k < 16 := by simp [groundPins] at hk; omega
  simpa [groundPins] using setdir_groundPin_event ⟨k, hk16⟩

/-- The events of IDLE in their order. -/
theorem idled_trace (s : State) (hn : s.cfg.nGnd ≤ 16) : (idled s).trace = s.trace ++ idleTrace s.cfg.nGnd := by
  have hcfg : (idleControls s).cfg = s.cfg := by
    rw [idleControls, foldl_driveControl_cfg, foldl_driveControl_cfg]
  rw [idled, idleBuses, busDir_trace, busDir_trace, idleInputs, foldl_setDir_trace, hcfg, inputOnlyPins,
    List.map_append, groundPins_map_setdir hn, idleControls, foldl_driveControl_trace, foldl_driveControl_trace]
  simp only [List.append_assoc]
  rfl

theorem idleTrace_length (n : Nat) : (idleTrace n).length = 26 + n := by
  simp +arith [idleTrace]

/-! ## The three statements -/

/-- Settles O24: the pin state is that of the idled state, which posting Success leaves alone. -/
theorem idleReachesTheSafePinState : Obligations.IdleReachesTheSafePinState := by
  unfold Obligations.IdleReachesTheSafePinState
  intro s
  refine ⟨_, exec_idle s, (succeed_idlePins _ _).mpr (idled_idlePins s), fun p hp => ?_, rfl, rfl, fun hcrit => ?_⟩
  · rw [State.succeed_lat]
    exact idled_lat_of_ne_control s hp
  · rw [State.succeed_crit, idled_crit, hcrit]

/-- Settles O25: the idled state field by field; a second IDLE writes the directions and latches already there. -/
theorem idleEmitsItsFixedSequence : Obligations.IdleEmitsItsFixedSequence := by
  unfold Obligations.IdleEmitsItsFixedSequence
  intro s hn
  have hends := idled_sameEnds s
  refine ⟨_, exec_idle s, (succeed_idlePins _ _).mpr (idled_idlePins s), ?trace, idleTrace_length _, ?posted, rfl,
    rfl, ?faultMark, ?refusalMark, ?crit, fun u hu => ?again⟩
  case trace => rw [State.succeed_trace, idled_trace s hn]
  case posted => rw [State.succeed_posted, hends.posted]; rfl
  case faultMark => rw [State.succeed_faultMark, hends.faultMark]
  case refusalMark => rw [State.succeed_refusalMark, hends.refusalMark]
  case crit => rw [State.succeed_crit, idled_crit]
  case again =>
    rw [exec_idle] at hu
    obtain rfl := Host.Outcome.next.inj hu
    simp only [State.succeed_dir, State.succeed_lat, idled_succeed_idled_dir, idled_succeed_idled_lat, and_self]

/-- Settles O26: IDLE is micro-operations on pins that exist, none of which the target reacts to. -/
theorem idleFrame : Obligations.IdleFrame := by
  unfold Obligations.IdleFrame
  intro s t h
  rw [exec_idle] at h
  obtain rfl := Host.Outcome.next.inj h
  obtain ⟨hcfg, hcmd, -, -, -, hfault, hrefusal, hmicro, hinbox⟩ := idled_sameEnds s
  simp only [State.succeed_cfg, State.succeed_crit, State.succeed_cmd, State.succeed_micro, State.succeed_inbox,
    State.succeed_faultMark, State.succeed_refusalMark, State.succeed_target, State.succeed_dir, State.succeed_lat]
  refine ⟨hcfg, idled_crit s, hcmd, hmicro, hinbox, hfault, hrefusal,
    idled_target s, fun p hp => idled_of_not_exists s hp, fun a => ?_⟩
  rw [succeed_echoByte, State.echoByte, State.echoByte, idled_target]

end Sys2Proof.Machine
end

section
/-! The family of spec/42_check.md: the frame of CHECK, what it posts, what a failure leaves of the pins, and the run that
passes on the healthy target (R180 to R190). -/

namespace Sys2Proof.Machine

/-! ## How CHECK ends (R180, R190) -/

/-- CHECK answers the end of its six steps. -/
theorem exec_check (s : State) : exec .check s = .next ((selfCheck s).close fun _ => 0x0000) := rfl

/-- How CHECK ends: every comparison passed, one failed, or a read faulted. -/
inductive CheckEnd (s : State) : State → Prop where
  | passed {u : State} (h : SameEnds s u) : CheckEnd s (u.succeed 0x0000)
  | failed {u : State} (o : CmdOutcome) (h : SameEnds s u) (hf : CheckFailure s o u) : CheckEnd s (u.fail o)
  | faulted {u : State} (f : Fault) (h : SameEnds s u) (hf : CheckFault s f u) : CheckEnd s (u.raise f)

theorem selfCheck_checkEnd (s : State) : CheckEnd s ((selfCheck s).close fun _ => 0x0000) := by
  have hends := (check_goes s).sameEnds
  have hpins := selfCheck_pins s
  cases hx : selfCheck s with
  | done _ u =>
    rw [hx] at hends
    exact .passed hends
  | failed o u =>
    rw [hx] at hends hpins
    exact .failed o hends hpins
  | faulted f u =>
    rw [hx] at hends hpins
    exact .faulted f hends hpins

/-- While the latch-enable pin is not COUT, CHECK keeps the echo target's memory. -/
theorem Goes.check_mem {c : Config} {s t : State} (h : Goes (CheckOp c) s t) (hc : c.latchEnablePin ≠ Pin.cout) :
    t.target.mem = s.target.mem := by
  have hne : ∀ j, CheckOp c j → j ≠ .wrlvl Pin.cout .high := by
    rintro j hj rfl
    rcases hj with hp | hp | hp
    · exact absurd hp (by decide)
    · exact absurd hp (by decide)
    · exact hc hp.symm
  exact h.keeps (fun u => u.target.mem = s.target.mem) (fun j _ _ hj hm hu => (hm.mem (hne j hj)).trans hu) rfl

/-- Settles O31: CHECK is reads and the writes of three latches, then an end that writes no pin and refuses nothing. -/
theorem checkFrame : Obligations.CheckFrame := by
  unfold Obligations.CheckFrame
  intro s t h
  rw [exec_check] at h
  obtain rfl := Host.Outcome.next.inj h
  have hgoes := check_goes s
  have hends := hgoes.sameEnds
  have hcrit := (hgoes.mono fun _ hj => Allowed.ne_crit (c := s.cfg) (i := .check) rfl nofun hj).crit_eq
  have hclosed := (closed_close (selfCheck s) fun _ => 0x0000).samePins
  refine ⟨hclosed.dir.trans hgoes.check_dir, hclosed.crit.trans hcrit, hclosed.cmd.trans hends.cmd,
    hclosed.cfg.trans hends.cfg, hclosed.micro.trans hends.micro, hclosed.inbox.trans hends.inbox,
    (Flow.close_refusalMark _ _).trans hends.refusalMark, fun q hbclr hdls hlatch => ?_, fun hc a => ?_⟩
  · rw [hclosed.lat]
    exact hgoes.check_lat (by simp [hbclr, hdls, hlatch])
  · rw [State.echoByte, hclosed.target, hgoes.check_mem hc, State.echoByte]

/-! ## Posts and faults (R190, R270) -/

/-- The STATUS word of a verdict of CHECK: Success, or the code of a mismatch (R111). -/
theorem CheckVerdict.status {o : CmdOutcome} (h : CheckVerdict o) :
    encodeOutcome o = 0 ∨ statusCode (encodeOutcome o) = 0x01 ∨ statusCode (encodeOutcome o) = 0x02 := by
  rcases h with rfl | ⟨p, e, g, rfl⟩ | ⟨b, e, g, rfl⟩
  · exact .inl rfl
  · exact .inr (.inl (statusCode_statusWord _ _ _ _))
  · exact .inr (.inr (statusCode_statusWord _ _ _ _))

/-- With readable inputs no pin that CHECK reads is an output. -/
theorem State.inputsReadable.dir_ne {s : State} (h : s.inputsReadable) {p : Pin} (hp : p ∈ inputOnlyPins s.cfg.nGnd) :
    s.dir[p] ≠ .output := by
  obtain ⟨hge, hex⟩ := (mem_inputOnlyPins s.cfg.nGnd p).mp hp
  exact h p (decide_eq_true hge) hex

/-- With readable inputs a fault of CHECK is that of a bus some member drives. -/
theorem CheckFault.bus {s t : State} {f : Fault} (h : CheckFault s f t) (hin : s.inputsReadable) :
    ∃ (b : Bus) (i : Fin 8), s.dir[b.member i] = .output ∧ f = .busReadNotInput b ∧ t.lat = s.lat := by
  rcases h with ⟨p, hp, hd, -⟩ | hbus
  · exact absurd hd (hin.dir_ne hp)
  · exact hbus

/-- Settles O29: a comparison that fails gives a verdict, and the only read that can fault is of a bus. -/
theorem checkPostsOrFaultsOnADrivenBus : Obligations.CheckPostsOrFaultsOnADrivenBus := by
  unfold Obligations.CheckPostsOrFaultsOnADrivenBus
  intro s hin hmark
  refine ⟨_, exec_check s, ?_⟩
  generalize (selfCheck s).close _ = t, selfCheck_checkEnd s = hend
  cases hend with
  | passed h => exact .inl ⟨h.faultMark.trans hmark, rfl, congrArg (· ++ [_]) h.posted, .inl rfl⟩
  | failed o h hf => exact .inl ⟨h.faultMark.trans hmark, rfl, congrArg (· ++ [_]) h.posted, hf.verdict.status⟩
  | faulted f h hf =>
    obtain ⟨b, i, hd, rfl, hlat⟩ := hf.bus hin
    refine .inr ⟨b, i, hd, ?_, h.status, h.result, h.posted, hlat⟩
    rw [State.raise_faultMark, h.faultMark, hmark, Option.none_or]

/-! ## What a failed CHECK leaves (R188) -/

section PinsAre
variable {s t : State} {L : Left} (h : PinsAre s L t)
include h

theorem PinsAre.cfg_eq : t.cfg = s.cfg := h.1

theorem PinsAre.dir_eq : t.dir = s.dir := h.2.1

theorem PinsAre.lat_eq : t.lat = L.lat := h.2.2.1

end PinsAre

theorem encodeOutcome_injective : Function.Injective encodeOutcome := fun x y h =>
  Option.some.inj (by rw [← outcomeOf_encodeOutcome x, h, outcomeOf_encodeOutcome])

/-- A CHECK that posted an Outcome other than Success failed with it. -/
theorem CheckEnd.failed_of_posted {s t : State} {o : CmdOutcome} (h : CheckEnd s t)
    (hp : t.posted = s.posted ++ [(encodeOutcome o, 0)]) (ho : o ≠ .success) :
    ∃ u, CheckFailure s o u ∧ t = u.fail o := by
  cases h with
  | passed h =>
    rw [State.succeed_posted, h.posted] at hp
    exact absurd (encodeOutcome_injective (by simpa using hp)).symm ho
  | failed o' h hf =>
    rw [State.fail_posted, h.posted] at hp
    obtain rfl : o' = o := encodeOutcome_injective (by simpa using hp)
    exact ⟨_, hf, rfl⟩
  | faulted f h =>
    rw [State.raise_posted, h.posted] at hp
    simp at hp

/-- A failed pin comparison of CHECK is one of steps 1 to 3, which write nothing, or of step 6. -/
theorem CheckFailure.pin {s u : State} {p : Pin} {e g : Level} (h : CheckFailure s (.pinStateMismatch p e g) u) :
    (p ∈ earlyPins s.cfg.nGnd ∧ PinsAre s (Left.untouched s) u) ∨ (p ∈ auxPins ∧ PinsAre s (latchAsserted s) u) := by
  rcases h with ⟨⟨q, hq, _, _, he⟩, hu⟩ | ⟨⟨q, hq, _, _, he⟩, hu⟩ | ⟨⟨_, _, _, he⟩, _⟩ | ⟨⟨_, _, _, he⟩, _⟩ |
    ⟨⟨_, _, _, he⟩, _⟩
  · cases he
    exact .inl ⟨hq, hu⟩
  · cases he
    exact .inr ⟨hq, hu⟩
  all_goals cases he

/-- A failed bus comparison of CHECK is one of step 4, of step 5 while BCLR is asserted, or of step 5 after its release. -/
theorem CheckFailure.bus {s u : State} {b : Bus} {e g : Byte} (h : CheckFailure s (.busValueMismatch b e g) u) :
    PinsAre s (Left.untouched s) u ∨ PinsAre s (bclrAsserted s) u ∨ PinsAre s (bclrReleased s) u := by
  rcases h with ⟨⟨_, _, _, _, he⟩, _⟩ | ⟨⟨_, _, _, _, he⟩, _⟩ | ⟨_, hu⟩ | ⟨_, hu⟩ | ⟨_, hu⟩
  · cases he
  · cases he
  · exact .inl hu
  · exact .inr (.inl hu)
  · exact .inr (.inr hu)

/-- No pin of steps 1 to 3 lies among AUX0 to AUX3. -/
theorem val_of_mem_earlyPins {n : Nat} {p : Pin} (h : p ∈ earlyPins n) : p.val < 0x1C ∨ 0x20 ≤ p.val := by
  rcases List.mem_append.mp h with hg | hp
  · exact .inr ((mem_groundPins n p).mp hg).1
  · exact .inl ((by decide : ∀ q ∈ [Pin.vcc, Pin.pup, Pin.ready, Pin.xtl1], q.val < 0x1C) p hp)

theorem val_of_mem_auxPins {p : Pin} (h : p ∈ auxPins) : 0x1C ≤ p.val ∧ p.val < 0x20 :=
  (by decide : ∀ q ∈ auxPins, 0x1C ≤ q.val ∧ q.val < 0x20) p h

/-- Every latch after one more pin write. -/
theorem Left.write_lat (L : Left) (p : Pin) (l : Level) (q : Pin) :
    (L.write p l).lat[q] = if q = p then l else L.lat[q] := by
  rw [Left.write, getElem_setPin]
  simp only [eq_comm]

theorem bclrAsserted_lat (s : State) (q : Pin) :
    (bclrAsserted s).lat[q] = if q = Pin.bclr then .low else s.lat[q] := Left.write_lat _ _ _ q

theorem bclrReleased_lat (s : State) (q : Pin) :
    (bclrReleased s).lat[q] = if q = Pin.bclr then .high else s.lat[q] := by
  rw [bclrReleased, Left.write_lat, bclrAsserted_lat]
  split_ifs <;> rfl

theorem latchAsserted_lat (s : State) (q : Pin) :
    (latchAsserted s).lat[q] =
      if q = Pin.dls ∨ q = s.cfg.latchEnablePin ∨ q = Pin.bclr then .high else s.lat[q] := by
  rw [latchAsserted, Left.write_lat, Left.write_lat, bclrReleased_lat, ← ite_or, ← ite_or]
  simp only [or_assoc, or_left_comm]

theorem bclrAsserted_writes (s : State) : (bclrAsserted s).writes = [0x201700] := rfl

theorem bclrReleased_writes (s : State) : (bclrReleased s).writes = [0x201700, 0x211700] := rfl

/-- The latches after a failed bus comparison, told from the events of BCLR alone. -/
theorem CheckFailure.bus_lat {s u : State} {b : Bus} {e g : Byte} (h : CheckFailure s (.busValueMismatch b e g) u) :
    (0x201700 ∉ emitted s u → u.lat = s.lat) ∧
    (0x201700 ∈ emitted s u → ∀ q : Pin,
      u.lat[q] = if q = Pin.bclr then (if 0x211700 ∈ emitted s u then .high else .low) else s.lat[q]) := by
  have hasserted {L : Left} (hu : PinsAre s L u) : 0x201700 ∈ emitted s u ↔ 0x201700 ∈ L.writes :=
    hu.mem_iff (by decide)
  have hreleased {L : Left} (hu : PinsAre s L u) : 0x211700 ∈ emitted s u ↔ 0x211700 ∈ L.writes :=
    hu.mem_iff (by decide)
  rcases h.bus with hu | hu | hu
  · have hno : 0x201700 ∉ emitted s u := (hasserted hu).not.mpr List.not_mem_nil
    exact ⟨fun _ => hu.lat_eq, fun hyes => absurd hyes hno⟩
  · have hyes : 0x201700 ∈ emitted s u := (hasserted hu).mpr (by rw [bclrAsserted_writes]; decide)
    have hno : 0x211700 ∉ emitted s u := (hreleased hu).not.mpr (by rw [bclrAsserted_writes]; decide)
    refine ⟨fun hc => absurd hyes hc, fun _ q => ?_⟩
    rw [if_neg hno, hu.lat_eq, bclrAsserted_lat]
  · have hyes : 0x201700 ∈ emitted s u := (hasserted hu).mpr (by rw [bclrReleased_writes]; decide)
    have hyes' : 0x211700 ∈ emitted s u := (hreleased hu).mpr (by rw [bclrReleased_writes]; decide)
    refine ⟨fun hc => absurd hyes hc, fun _ q => ?_⟩
    rw [if_pos hyes', hu.lat_eq, bclrReleased_lat]

/-- Settles O30: the step that failed is read off the Outcome, and for a bus off the events of BCLR. -/
theorem failedCheckLeavesPinsAsTheyStand : Obligations.FailedCheckLeavesPinsAsTheyStand := by
  unfold Obligations.FailedCheckLeavesPinsAsTheyStand
  intro s t h
  rw [exec_check] at h
  obtain rfl := Host.Outcome.next.inj h
  have hend := selfCheck_checkEnd s
  refine ⟨(closed_close _ _).samePins.dir.trans (check_goes s).check_dir, fun p e g hp => ?pin, fun b e g hp => ?bus⟩
  case pin =>
    obtain ⟨u, hf, ht⟩ := hend.failed_of_posted hp nofun
    rw [ht]
    rcases hf.pin with ⟨hearly, hu⟩ | ⟨haux, hu⟩
    · have hval := val_of_mem_earlyPins hearly
      exact ⟨fun _ => hu.lat_eq, fun _ _ => by omega⟩
    · have hval := val_of_mem_auxPins haux
      refine ⟨fun _ => by omega, fun _ _ q => ?_⟩
      rw [State.fail_lat, hu.lat_eq, latchAsserted_lat]
  case bus =>
    obtain ⟨u, hf, ht⟩ := hend.failed_of_posted hp nofun
    rw [ht]
    exact hf.bus_lat

/-! ## The answers of the healthy target (R86) -/

/-- With no pin forced, H answers by its table. -/
theorem sample_healthy {s : State} (h : s.onHealthy) (p : Pin) : (s.sample p).1 = healthyLevel s p := by
  obtain ⟨hkind, hforced, -⟩ := h
  rw [State.sample, hkind]
  simp only [sampleHealthy, hforced, forcedLevel, Option.getD_none]

/-- A sample of XTL1 counts. -/
theorem sample_xtl1_healthy {s : State} (h : s.onHealthy) :
    (s.sample Pin.xtl1).2.xtlSamples = s.target.xtlSamples + 1 := by
  rw [State.sample, h.1]
  rfl

theorem healthyLevel_groundPin (s : State) {n : Nat} {p : Pin} (hp : p ∈ groundPins n) : healthyLevel s p = .low := by
  have hge := ((mem_groundPins n p).mp hp).1
  have hother : ∀ q : Pin, 0x20 ≤ q.val → ¬ q.val < 0x10 ∧ q ≠ Pin.vcc ∧ q ≠ Pin.pup ∧ q ≠ Pin.ready ∧ q ≠ Pin.xtl1 ∧
      ¬ (Pin.aux0 ≤ q ∧ q ≤ Pin.aux3) := by decide
  obtain ⟨hbus, hvcc, hpup, hready, hxtl1, haux⟩ := hother p hge
  rw [healthyLevel, if_neg hbus, if_neg hvcc, if_neg hpup, if_neg hready, if_neg hxtl1, if_neg haux, if_pos hge]

theorem healthyLevel_auxPin (s : State) {p : Pin} (hp : p ∈ auxPins) : healthyLevel s p = .high := by
  have hother : ∀ q ∈ auxPins, ¬ q.val < 0x10 ∧ q ≠ Pin.vcc ∧ q ≠ Pin.pup ∧ q ≠ Pin.ready ∧ q ≠ Pin.xtl1 ∧
      (Pin.aux0 ≤ q ∧ q ≤ Pin.aux3) := by decide
  obtain ⟨hbus, hvcc, hpup, hready, hxtl1, haux⟩ := hother p hp
  rw [healthyLevel, if_neg hbus, if_neg hvcc, if_neg hpup, if_neg hready, if_neg hxtl1, if_pos haux]

theorem healthyLevel_xtl1 (s : State) :
    healthyLevel s Pin.xtl1 = if s.target.xtlSamples % 2 = 0 then .low else .high := rfl

theorem healthyLevel_member (s : State) (b : Bus) (i : Fin 8) : healthyLevel s (b.member i) =
    if s.drives Pin.bclr .low then bitLevel (s.target.modeWord.getLsbD (b.member i).val) else .high :=
  if_pos (member_lt b i)

/-- Bit `i` of a bus's byte of a word is the word's bit at the number of member `i`. -/
theorem byteOf_getLsbD (b : Bus) (w : BitVec 16) (i : Fin 8) : (byteOf b w).getLsbD i = w.getLsbD (b.member i).val := by
  cases b <;> simp [byteOf, dataLow, dataHigh, Bus.member, Bus.base]

theorem samplePin_onHealthy {s : State} (p : Pin) (h : s.onHealthy) : (samplePin p s).onHealthy := by
  simpa [State.onHealthy] using h

theorem sampleBus_onHealthy {s : State} (b : Bus) (h : s.onHealthy) : (sampleBus b s).onHealthy := by
  simpa [State.onHealthy] using h

theorem wrLvl_onHealthy {s : State} (p : Pin) (l : Level) (h : s.onHealthy) : (wrLvl p l s).onHealthy := by
  simpa [State.onHealthy] using h

/-- A bus of H reads its byte of the mode word while BCLR is driven LOW, and all ones otherwise. -/
theorem busSample_healthy {s : State} (h : s.onHealthy) (b : Bus) :
    s.busSample b = if s.drives Pin.bclr .low then byteOf b s.cfg.modeWord else 0xFF := by
  have hsampling : ∀ i, (s.withTarget (s.sampleMembers b i).2).onHealthy := fun i => by
    simpa [State.onHealthy] using h
  have hmode : s.target.modeWord = s.cfg.modeWord := h.2.2
  refine BitVec.eq_of_getLsbD_eq fun i hi => ?_
  rw [busSample_getLsbD b s ⟨i, hi⟩, sample_healthy (hsampling i), healthyLevel_member]
  change levelBit (if s.drives Pin.bclr .low = true then
    bitLevel ((s.sampleMembers b i).2.modeWord.getLsbD (b.member ⟨i, hi⟩).val) else .high) = _
  rw [sampleMembers_modeWord, hmode, ← byteOf_getLsbD]
  split
  · exact (by decide : ∀ x, levelBit (bitLevel x) = x) _
  · exact ((by decide : ∀ k : Fin 8, (0xFF : Byte).getLsbD k = true) ⟨i, hi⟩).symm

/-! ## The run that passes (R180, R189) -/

/-- A sequence that runs to its end and leaves `D`. -/
abbrev Flow.Passes {α : Type} (x : Flow α) (D : α → State → Prop) : Prop :=
  x.Meets D (fun _ _ => False) fun _ _ => False

theorem Flow.Passes.exists_done {α : Type} {x : Flow α} {D : α → State → Prop} (h : x.Passes D) :
    ∃ a t, x = .done a t ∧ D a t := by
  cases x with
  | done a t => exact ⟨a, t, rfl, h⟩
  | failed o t => exact h.elim
  | faulted f t => exact h.elim

/-- `n` events after `s`, the target H, the pins as `L` has them. -/
structure OnCourse (s : State) (L : Left) (n : Nat) (t : State) : Prop where
  pins : PinsAre s L t
  healthy : t.onHealthy
  count : t.trace.length = s.trace.length + n

/-- The pins as CHECK on H needs them: nothing it reads is an output, and BCLR is driven HIGH. -/
structure Checkable (s : State) : Prop where
  inputs : s.inputsReadable
  buses : s.busesReadable
  bclr : s.dir[Pin.bclr] = .output ∧ s.lat[Pin.bclr] = .high

theorem OnCourse.refl {s : State} (h : s.onHealthy) : OnCourse s (Left.untouched s) 0 s := ⟨.refl s, h, rfl⟩

section OnCourse
variable {s t : State} {L : Left} {n : Nat}

theorem OnCourse.wrLvl (h : OnCourse s L n t) (p : Pin) (l : Level) :
    OnCourse s (L.write p l) (n + 1) (wrLvl p l t) :=
  ⟨h.pins.wrLvl p l, wrLvl_onHealthy p l h.healthy, by simp [h.count, Nat.add_assoc]⟩

theorem OnCourse.samplePin (h : OnCourse s L n t) (p : Pin) : OnCourse s L (n + 1) (samplePin p t) :=
  ⟨h.pins.samplePin p, samplePin_onHealthy p h.healthy, by simp [h.count, Nat.add_assoc]⟩

theorem OnCourse.sampleBus (h : OnCourse s L n t) (b : Bus) : OnCourse s L (n + 1) (sampleBus b t) :=
  ⟨h.pins.sampleBus b, sampleBus_onHealthy b h.healthy, by simp [h.count, Nat.add_assoc]⟩

/-- A pin of H that reads what it must. -/
theorem expectLevel_passes (hs : Checkable s) (h : OnCourse s L n t) {p : Pin} {l : Level}
    (hp : p ∈ inputOnlyPins s.cfg.nGnd) (hl : healthyLevel t p = l) :
    (expectLevel p l t).Passes fun _ => OnCourse s L (n + 1) := by
  refine (expectLevel_meets p l t).mono ?_ ?_ ?_
  · rintro _ _ ⟨-, -, rfl⟩
    exact h.samplePin p
  · rintro _ _ ⟨-, hne, -⟩
    exact hne ((sample_healthy h.healthy p).trans hl)
  · rintro _ _ ⟨hout, -⟩
    exact hs.inputs.dir_ne hp (h.pins.dir_eq ▸ hout)

/-- A bus of H that reads what it must. -/
theorem expectBus_passes (hs : Checkable s) (h : OnCourse s L n t) {b : Bus} {v : Byte} (hv : t.busSample b = v) :
    (expectBus b v t).Passes fun _ => OnCourse s L (n + 1) := by
  refine (expectBus_meets b v t).mono ?_ ?_ ?_
  · rintro _ _ ⟨-, -, rfl⟩
    exact h.sampleBus b
  · rintro _ _ ⟨-, hne, -⟩
    exact hne hv
  · rintro _ _ ⟨⟨i, hout⟩, -⟩
    exact hs.buses b i (h.pins.dir_eq ▸ hout)

/-- A list of parts that each pass with one event. -/
theorem eachOf_passes {α : Type} {f : α → State → Flow Unit} {xs : List α}
    (hf : ∀ x ∈ xs, ∀ m u, OnCourse s L m u → (f x u).Passes fun _ => OnCourse s L (m + 1)) (h : OnCourse s L n t) :
    (eachOf f xs t).Passes fun _ => OnCourse s L (n + xs.length) := by
  induction xs generalizing n t with
  | nil => exact h
  | cons x xs ih =>
    refine (hf x List.mem_cons_self n t h).andThen fun _ u hu => ?_
    rw [List.length_cons, Nat.add_comm xs.length, ← Nat.add_assoc]
    exact ih (fun y hy => hf y (List.mem_cons_of_mem x hy)) hu

/-- Both buses, in either order. -/
theorem expectBuses_passes (hs : Checkable s) {want : Bus → Byte} (o : BusCheckOrder)
    (hwant : ∀ b m u, OnCourse s L m u → u.busSample b = want b) (h : OnCourse s L n t) :
    (eachOf (fun b => expectBus b (want b)) (busOrder o) t).Passes fun _ => OnCourse s L (n + 2) := by
  have hlen : (busOrder o).length = 2 := by cases o <;> rfl
  rw [← hlen]
  exact eachOf_passes (fun b _ m u hu => expectBus_passes hs hu (hwant b m u hu)) h

/-- Whether BCLR is driven LOW is told from its latch. -/
theorem OnCourse.drives_bclr (hs : Checkable s) (h : OnCourse s L n t) :
    t.drives Pin.bclr .low = true ↔ L.lat[Pin.bclr] = .low := by
  rw [drives_iff, h.pins.dir_eq, h.pins.lat_eq]
  exact and_iff_right hs.bclr.1

/-- Steps 4 and 5: every bus of H reads all ones while BCLR is HIGH. -/
theorem checkAllOnes_passes (hs : Checkable s) (h : OnCourse s L n t) (hbclr : L.lat[Pin.bclr] = .high) :
    (checkAllOnes t).Passes fun _ => OnCourse s L (n + 2) :=
  expectBuses_passes hs (want := fun _ => 0xFF) _ (fun b _ u hu => by
    rw [busSample_healthy hu.healthy, if_neg]
    rw [hu.drives_bclr hs, hbclr]
    exact nofun) h

/-- Step 5: every bus of H reads its byte of the mode word while BCLR is LOW. -/
theorem checkModeBytes_passes (hs : Checkable s) (h : OnCourse s L n t) (hbclr : L.lat[Pin.bclr] = .low) :
    (checkModeBytes t).Passes fun _ => OnCourse s L (n + 2) :=
  expectBuses_passes hs (want := fun b => byteOf b t.cfg.modeWord) _ (fun b _ u hu => by
    rw [busSample_healthy hu.healthy, if_pos ((hu.drives_bclr hs).mpr hbclr), hu.pins.cfg_eq, h.pins.cfg_eq]) h

/-- Step 5. -/
theorem checkMode_passes (hs : Checkable s) (h : OnCourse s (Left.untouched s) n t) :
    (checkMode t).Passes fun _ => OnCourse s (bclrReleased s) (n + 6) := by
  have hlow : (bclrAsserted s).lat[Pin.bclr] = .low := by rw [bclrAsserted_lat, if_pos rfl]
  have hhigh : (bclrReleased s).lat[Pin.bclr] = .high := by rw [bclrReleased_lat, if_pos rfl]
  exact (checkModeBytes_passes hs (h.wrLvl Pin.bclr .low) hlow).andThen fun _ u hu =>
    checkAllOnes_passes hs (hu.wrLvl Pin.bclr .high) hhigh

/-- Step 1. -/
theorem checkPower_passes (hs : Checkable s) (hn : s.cfg.nGnd ≤ 16) (h : OnCourse s L n t) :
    (checkPower t).Passes fun _ => OnCourse s L (n + s.cfg.nGnd + 2) := by
  have hlen : (groundPins s.cfg.nGnd).length = s.cfg.nGnd := by simpa [groundPins] using hn
  have hfixed : ∀ p ∈ [Pin.vcc, Pin.pup], p ∈ inputOnlyPins s.cfg.nGnd := fun p hp =>
    early_sub _ p (by simp [earlyPins] at hp ⊢; tauto)
  unfold checkPower
  rw [h.pins.cfg_eq]
  refine Flow.Meets.andThen (D := fun _ => OnCourse s L (n + s.cfg.nGnd)) ?_ fun _ u hu => ?_
  · have hpass := eachOf_passes (f := fun g => expectLevel g .low) (fun g hg m u hu => expectLevel_passes hs hu
      (List.mem_append_left _ hg) (healthyLevel_groundPin u hg)) h
    rwa [hlen] at hpass
  · refine (expectLevel_passes hs hu (hfixed _ (by simp)) rfl).andThen fun _ v hv => ?_
    exact expectLevel_passes hs hv (hfixed _ (by simp)) rfl

theorem xtl1_mem_inputOnlyPins (m : Nat) : Pin.xtl1 ∈ inputOnlyPins m :=
  early_sub m _ (by simp [earlyPins])

/-- One more sample of H's clock: LOW after an even number of samples, HIGH after an odd one (R86). -/
theorem sampleClock_succ_healthy (hs : Checkable s) (h : OnCourse s L n t) (k : Nat) (lo hi : Bool) :
    sampleClock (k + 1) lo hi t =
      if t.target.xtlSamples % 2 = 0 then sampleClock k true hi (samplePin Pin.xtl1 t)
      else sampleClock k lo true (samplePin Pin.xtl1 t) := by
  have hin : t.dir[Pin.xtl1] ≠ .output := h.pins.dir_eq ▸ hs.inputs.dir_ne (xtl1_mem_inputOnlyPins _)
  rw [sampleClock, rdLvl_done hin, Flow.done_andThen, sample_healthy h.healthy, healthyLevel_xtl1]
  split_ifs <;> rfl

/-- Once both levels of the clock were seen, the samples left tell nothing new. -/
theorem sampleClock_passes_seen (hs : Checkable s) (h : OnCourse s L n t) (k : Nat) :
    (sampleClock k true true t).Passes fun saw u => saw = (true, true) ∧ OnCourse s L (n + k) u := by
  induction k generalizing n t with
  | zero => exact ⟨rfl, h⟩
  | succ k ih =>
    rw [sampleClock_succ_healthy hs h, ite_self, Nat.add_comm k, ← Nat.add_assoc]
    exact ih (h.samplePin _)

/-- Two samples of H's clock differ, whichever comes first. -/
theorem sampleClock_passes (hs : Checkable s) (h : OnCourse s L n t) {k : Nat} (hk : 2 ≤ k) :
    (sampleClock k false false t).Passes fun saw u => saw = (true, true) ∧ OnCourse s L (n + k) u := by
  obtain ⟨j, rfl⟩ := Nat.exists_eq_add_of_le' hk
  have hnext : (samplePin Pin.xtl1 t).target.xtlSamples = t.target.xtlSamples + 1 := by
    rw [samplePin_target, sample_xtl1_healthy h.healthy]
  have hrest := sampleClock_passes_seen hs ((h.samplePin Pin.xtl1).samplePin Pin.xtl1) j
  rw [show n + 1 + 1 + j = n + (j + 2) by omega] at hrest
  rw [sampleClock_succ_healthy hs h]
  split_ifs with hpar
  · rwa [sampleClock_succ_healthy hs (h.samplePin Pin.xtl1), hnext, if_neg (by omega)]
  · rwa [sampleClock_succ_healthy hs (h.samplePin Pin.xtl1), hnext, if_pos (by omega)]

/-- Step 3. -/
theorem checkClock_passes (hs : Checkable s) (hk : 2 ≤ s.cfg.clockSamples) (h : OnCourse s L n t) :
    (checkClock t).Passes fun _ => OnCourse s L (n + s.cfg.clockSamples) := by
  unfold checkClock
  rw [h.pins.cfg_eq]
  refine (sampleClock_passes hs h hk).andThen ?_
  rintro _ u ⟨rfl, hu⟩
  exact hu

/-- What step 6 leaves once DLS and the latch-enable pin are deasserted. -/
def latchReleased (s : State) : Left := ((latchAsserted s).write s.cfg.latchEnablePin .low).write Pin.dls .low

/-- Step 6. -/
theorem checkLatch_passes (hs : Checkable s) (h : OnCourse s (bclrReleased s) n t) :
    (checkLatch t).Passes fun _ => OnCourse s (latchReleased s) (n + 8) := by
  unfold checkLatch
  rw [h.pins.cfg_eq]
  refine Flow.Meets.andThen (D := fun _ => OnCourse s (latchAsserted s) (n + 6)) ?_ fun _ u hu => ?_
  · exact eachOf_passes (f := fun a => expectLevel a .high) (xs := auxPins) (fun p hp m u hu => expectLevel_passes hs hu
      (aux_sub _ p hp) (healthyLevel_auxPin u hp)) ((h.wrLvl _ _).wrLvl _ _)
  · rw [hu.pins.cfg_eq]
    exact (hu.wrLvl _ _).wrLvl _ _

/-- CHECK on H passes all six steps. -/
theorem selfCheck_passes (hs : Checkable s) (hH : s.onHealthy) (hn : s.cfg.nGnd ≤ 16) (hk : 2 ≤ s.cfg.clockSamples) :
    (selfCheck s).Passes fun _ => OnCourse s (latchReleased s) (s.cfg.nGnd + s.cfg.clockSamples + 19) := by
  have hbclr : (Left.untouched s).lat[Pin.bclr] = .high := hs.bclr.2
  have hready : Pin.ready ∈ inputOnlyPins s.cfg.nGnd := early_sub _ _ (by simp [earlyPins])
  unfold selfCheck
  refine (checkPower_passes hs hn (OnCourse.refl hH)).andThen fun _ t1 h1 => ?_
  refine (expectLevel_passes hs h1 hready rfl).andThen fun _ t2 h2 => ?_
  refine (checkClock_passes hs hk h2).andThen fun _ t3 h3 => ?_
  refine (checkAllOnes_passes hs h3 hbclr).andThen fun _ t4 h4 => ?_
  refine (checkMode_passes hs h4).andThen fun _ t5 h5 => ?_
  have h6 := checkLatch_passes hs h5
  rwa [show _ + 8 = s.cfg.nGnd + s.cfg.clockSamples + 19 by omega] at h6

end OnCourse

/-! ## After IDLE (R171, R189) -/

/-- A pin the target sees driven is an output with that latch. -/
theorem dir_lat_of_seen_driven {s : State} {p : Pin} {l : Level} (h : s.seen p = .driven l) :
    s.dir[p] = .output ∧ s.lat[p] = l := drives_iff.mp (drives_iff_seen.mpr h)

/-- An output is seen driven. -/
theorem seen_of_output {s : State} {p : Pin} (h : s.dir[p] = .output) : s.seen p = .driven s.lat[p] := by
  rw [seen_eq, h]
  rfl

theorem State.idlePins.checkable {s : State} (h : s.idlePins) : Checkable s := by
  obtain ⟨hhigh, -, hin, hbus⟩ := h
  refine ⟨fun p hp hex hout => ?_, fun b i hout => ?_, dir_lat_of_seen_driven (hhigh _ (by decide))⟩
  · cases (seen_of_output hout).symm.trans (hin p hp hex)
  · cases (seen_of_output hout).symm.trans (hbus b i)

/-- Where BCLR, DLS and the latch-enable pin were inactive, step 6 ends with every latch as it was. -/
theorem latchReleased_lat {s : State} (hbclr : s.lat[Pin.bclr] = .high) (hdls : s.lat[Pin.dls] = .low)
    (hlatch : s.lat[s.cfg.latchEnablePin] = .low) : (latchReleased s).lat = s.lat := by
  have hpin : ∀ q : Pin, (latchReleased s).lat[q] = s.lat[q] := fun q => by
    rw [latchReleased, Left.write_lat, Left.write_lat, latchAsserted_lat]
    split_ifs with h1 h2 h3
    · rw [h1, hdls]
    · rw [h2, hlatch]
    · rw [(h3.resolve_left h1).resolve_left h2, hbclr]
    · rfl
  exact Vector.ext fun k hk => hpin ⟨k, hk⟩

/-- Settles O27: every comparison passes on H, and step 6 puts back what it wrote. -/
theorem checkPassesOnTheHealthyTarget : Obligations.CheckPassesOnTheHealthyTarget := by
  unfold Obligations.CheckPassesOnTheHealthyTarget
  intro s hidle hH hpi hn hk
  obtain ⟨⟨⟩, u, hx, hu⟩ := (selfCheck_passes hidle.checkable hH hn hk).exists_done
  have hends : SameEnds s u := by simpa only [hx, Flow.state_done] using (check_goes s).sameEnds
  obtain ⟨hhigh, hlow, -, -⟩ := hidle
  have hlat : (latchReleased s).lat = s.lat :=
    latchReleased_lat (dir_lat_of_seen_driven (hhigh Pin.bclr (by decide))).2
      (dir_lat_of_seen_driven (hlow Pin.dls (by decide))).2
      (dir_lat_of_seen_driven (hlow s.cfg.latchEnablePin (by rw [hpi]; decide))).2
  refine ⟨u.succeed 0x0000, by rw [exec_check, hx, Flow.close_done], rfl, rfl, congrArg (· ++ [_]) hends.posted,
    hu.pins.dir_eq, hu.pins.lat_eq.trans hlat, hends.faultMark, ?_⟩
  rw [emitted, List.length_drop, State.succeed_trace, hu.count, Nat.add_sub_cancel_left]

end Sys2Proof.Machine
end

section
/-! The family of spec/43_bus_cycle.md: how each bus-cycle command completes, the pins it leaves, its critical region, and
the round trip through the echo target (R210 to R231). -/

namespace Sys2Proof.Machine

/-! ## The commands as cycles (R224 to R227) -/

theorem readDone_sameEnds (a : BitVec 32) {s : State} (hs : s.crit = false) : SameEnds s (readDone a s) := by
  simpa only [busCycle_read a 0 s hs, Flow.state_done] using (busCycle_goes a 0 true s).sameEnds

theorem writeDone_sameEnds (a : BitVec 32) (d : BitVec 16) {s : State} (hs : s.crit = false) :
    SameEnds s (writeDone a d s) := by
  simpa only [busCycle_write a d s hs, Flow.state_done] using (busCycle_goes a d false s).sameEnds

theorem exec_bcr (a : BitVec 32) {s : State} (hs : s.crit = false) :
    exec (.bcr a) s = .next ((readDone a s).succeed (sampledResult a (readReady a s))) := by
  rw [exec, execBcr, busCycle_read a _ s hs, Flow.close_done]

theorem exec_mread (a : BitVec 32) {s : State} (hs : s.crit = false) :
    exec (.mread a) s = .next ((readDone a s).succeed (zext16 (lowByte (sampledResult a (readReady a s))))) := by
  rw [exec, execMread, busCycle_read a _ s hs, Flow.close_done]

/-- Both read commands are read cycles. -/
theorem exec_read {a : BitVec 32} {i : Instr} {s : State} (hi : i = .bcr a ∨ i = .mread a) (hs : s.crit = false) :
    ∃ r, exec i s = .next ((readDone a s).succeed r) := by
  rcases hi with rfl | rfl
  · exact ⟨_, exec_bcr a hs⟩
  · exact ⟨_, exec_mread a hs⟩

/-- Every bus-cycle command is a read cycle or a write cycle. -/
theorem transacting_cases {i : Instr} (hp : phaseOf i = .transacting) :
    (∃ a, i = .bcr a ∨ i = .mread a) ∨ ∃ a d, i = .bcw a d ∨ ∃ v : Byte, i = .mwrite a v ∧ d = v.setWidth 16 := by
  cases i with
  | mread a => exact .inl ⟨a, .inr rfl⟩
  | mwrite a v => exact .inr ⟨a, _, .inr ⟨v, rfl, rfl⟩⟩
  | bcr a => exact .inl ⟨a, .inl rfl⟩
  | bcw a d => exact .inr ⟨a, d, .inl rfl⟩
  | _ => cases hp

/-! ## What each command returns -/

/-- The result of a read is composed of the samples its events record (R220). -/
theorem sampledResult_eq (a : BitVec 32) (s : State) :
    sampledResult a s =
      if a.getLsbD 16 then
        if a.getLsbD 17 then (onlyIf (laneLo a) (sampleBus .low) s).busSample .high ++ s.busSample .low
        else (0 : Byte) ++ s.busSample .low
      else if a.getLsbD 17 then (0 : Byte) ++ (onlyIf (laneLo a) (sampleBus .low) s).busSample .high else 0x0000 := by
  rw [sampledResult, laneByte, laneByte, show laneHi a = a.getLsbD 17 from rfl, show a.getLsbD 16 = laneLo a from rfl]
  cases laneLo a <;> cases a.getLsbD 17 <;> rfl

theorem lowByte_append (h l : Byte) : lowByte (h ++ l) = l := BitVec.extractLsb'_append_eq_right

/-- The low byte of a composed result is the low lane's, or the high lane's where it is alone (R226). -/
theorem zext16_lowByte_lanes (lo hi : Bool) (l h : Byte) :
    zext16 (lowByte (if lo then if hi then h ++ l else (0 : Byte) ++ l else if hi then (0 : Byte) ++ h else 0)) =
      if lo then (0 : Byte) ++ l else if hi then (0 : Byte) ++ h else 0 := by
  cases lo with
  | true => cases hi <;> exact congrArg zext16 (lowByte_append _ l)
  | false =>
    cases hi with
    | true => exact congrArg zext16 (lowByte_append 0 h)
    | false => exact (by decide : zext16 (lowByte 0) = 0)

/-- Settles O33. -/
theorem bcrReturnsTheComposedResult : Obligations.BcrReturnsTheComposedResult := by
  unfold Obligations.BcrReturnsTheComposedResult
  intro a s hs
  have hends := readDone_sameEnds a hs
  exact ⟨_, _, _, exec_bcr a hs, readDone_trace a s, sampledResult_eq a _, rfl, congrArg (· ++ [_]) hends.posted, rfl,
    hends.faultMark⟩

/-- Settles O34. -/
theorem mreadReturnsTheLowByte : Obligations.MreadReturnsTheLowByte := by
  unfold Obligations.MreadReturnsTheLowByte
  intro a s hs
  have hends := readDone_sameEnds a hs
  refine ⟨_, _, _, exec_mread a hs, readDone_trace a s, ?_, rfl, congrArg (· ++ [_]) hends.posted, rfl,
    hends.faultMark⟩
  rw [State.succeed_result, sampledResult_eq]
  exact zext16_lowByte_lanes _ _ _ _

/-- Both write commands complete, with the events of a write cycle of their data (R218, R225, R227). -/
theorem exec_write_completes {a : BitVec 32} {d : BitVec 16} {i : Instr} {s : State}
    (hi : i = .bcw a d ∨ ∃ v : Byte, i = .mwrite a v ∧ d = v.setWidth 16) (hs : s.crit = false) :
    ∃ t, exec i s = .next t ∧
      t.trace = s.trace ++ writeTrace a (dataLow d) (if a.getLsbD 16 then dataHigh d else dataLow d) ∧
      t.result = 0x0000 ∧ t.status = 0x00000000 ∧ t.posted = s.posted ++ [(0x00000000, 0x0000)] ∧ t.crit = false ∧
      t.faultMark = s.faultMark := by
  have hends := writeDone_sameEnds a d hs
  exact ⟨_, exec_write hi hs, writeDone_trace a d s, rfl, rfl, congrArg (· ++ [_]) hends.posted, writeDone_crit a d s,
    hends.faultMark⟩

/-- Settles O35. -/
theorem bcwDrivesTheEnabledLanes : Obligations.BcwDrivesTheEnabledLanes := by
  unfold Obligations.BcwDrivesTheEnabledLanes
  intro a d s hs
  rw [← dataLow_eq, ← dataHigh_eq]
  exact exec_write_completes (.inl rfl) hs

theorem dataLow_setWidth (v : Byte) : dataLow (v.setWidth 16) = v := by
  rw [← zext16_eq]
  exact lowByte_append 0 v

theorem dataHigh_setWidth (v : Byte) : dataHigh (v.setWidth 16) = 0 := by
  rw [← zext16_eq]
  exact BitVec.extractLsb'_append_eq_left

/-- Settles O36: MWRITE's data is its byte zero-extended. -/
theorem mwriteDrivesItsByte : Obligations.MwriteDrivesItsByte := by
  unfold Obligations.MwriteDrivesItsByte
  intro a v s hs
  have h := exec_write_completes (.inr ⟨v, rfl, rfl⟩) hs (a := a)
  rwa [dataLow_setWidth, dataHigh_setWidth] at h

/-! ## The critical region (R211, R222) -/

/-- The words of CRITENTER and CRITLEAVE (R109). -/
def isRegionEvent (w : EventWord) : Bool := w == 0x700000 || w == 0x800000

theorem isRegionEvent_eq_false {w : EventWord} : isRegionEvent w = false ↔ w ≠ 0x700000 ∧ w ≠ 0x800000 := by
  rw [isRegionEvent, Bool.or_eq_false_iff, beq_eq_false_iff_ne, beq_eq_false_iff_ne]

/-- The event of a bus write, whatever its value. -/
theorem isRegionEvent_buswr (v : Byte) :
    isRegionEvent ((0x5040 : BitVec 16) ++ v) = false ∧ isRegionEvent ((0x5041 : BitVec 16) ++ v) = false :=
  ⟨isRegionEvent_eq_false.mpr (eventOf_ne_crit (j := .buswr .low v) ⟨nofun, nofun⟩),
    isRegionEvent_eq_false.mpr (eventOf_ne_crit (j := .buswr .high v) ⟨nofun, nofun⟩)⟩

/-- The event of a bus read, whatever its value. -/
theorem isRegionEvent_busrd (v : Byte) :
    isRegionEvent ((0x6040 : BitVec 16) ++ v) = false ∧ isRegionEvent ((0x6041 : BitVec 16) ++ v) = false :=
  ⟨isRegionEvent_eq_false.mpr (eventOf_ne_crit (j := .busrd .low v) ⟨nofun, nofun⟩),
    isRegionEvent_eq_false.mpr (eventOf_ne_crit (j := .busrd .high v) ⟨nofun, nofun⟩)⟩

theorem filter_onLane (p : EventWord → Bool) (e : Bool) (es : List EventWord) :
    (onLane e es).filter p = onLane e (es.filter p) := by
  cases e <;> rfl

@[simp] theorem onLane_nil (e : Bool) : onLane e [] = [] := by cases e <;> rfl

/-- A read cycle enters the region once and then leaves it. -/
theorem readTrace_region (a : BitVec 32) (vLow vHigh : Byte) :
    (readTrace a vLow vHigh).filter isRegionEvent = [0x700000, 0x800000] := by
  simp only [readTrace, List.filter_append, filter_onLane, List.filter_cons, isRegionEvent_buswr,
    isRegionEvent_busrd]
  simp [isRegionEvent]

/-- A write cycle enters the region once and then leaves it. -/
theorem writeTrace_region (a : BitVec 32) (vLow vHigh : Byte) :
    (writeTrace a vLow vHigh).filter isRegionEvent = [0x700000, 0x800000] := by
  simp only [writeTrace, List.filter_append, filter_onLane, List.filter_cons, isRegionEvent_buswr]
  simp [isRegionEvent]

/-- Events among which the region is entered once and then left, apart from the rest. -/
theorem exists_region_split {es : List EventWord} (h : es.filter isRegionEvent = [0x700000, 0x800000]) :
    ∃ before inside after : List EventWord, es = before ++ [0x700000] ++ inside ++ [0x800000] ++ after ∧
      ∀ w ∈ before ++ inside ++ after, w ≠ 0x700000 ∧ w ≠ 0x800000 := by
  obtain ⟨before, rest, rfl, hbefore, -, hrest⟩ := List.filter_eq_cons_iff.mp h
  obtain ⟨inside, after, rfl, hinside, -, hafter⟩ := List.filter_eq_cons_iff.mp hrest
  refine ⟨before, inside, after, by simp, fun w hw => isRegionEvent_eq_false.mp (Bool.eq_false_iff.mpr ?_)⟩
  rcases List.mem_append.mp hw with hw | hw
  · exact (List.mem_append.mp hw).elim (hbefore w) (hinside w)
  · exact List.filter_eq_nil_iff.mp hafter w hw

/-- Settles O39: the events of either cycle hold the two words of the region once each. -/
theorem criticalRegionIsBalanced : Obligations.CriticalRegionIsBalanced := by
  unfold Obligations.CriticalRegionIsBalanced
  intro i s t hp hs h
  have hevents : ∃ es, t.trace = s.trace ++ es ∧ es.filter isRegionEvent = [0x700000, 0x800000] ∧ t.crit = false := by
    rcases transacting_cases hp with ⟨a, hi⟩ | ⟨a, d, hi⟩
    · obtain ⟨r, he⟩ := exec_read hi hs
      obtain rfl := Host.Outcome.next.inj (he.symm.trans h)
      exact ⟨_, readDone_trace a s, readTrace_region _ _ _, readDone_crit a s⟩
    · obtain rfl := Host.Outcome.next.inj ((exec_write hi hs).symm.trans h)
      exact ⟨_, writeDone_trace a d s, writeTrace_region _ _ _, writeDone_crit a d s⟩
  obtain ⟨es, htrace, hregion, hcrit⟩ := hevents
  obtain ⟨before, inside, after, rfl, hapart⟩ := exists_region_split hregion
  exact ⟨before, inside, after, by simpa only [List.append_assoc] using htrace, hapart, hcrit⟩

/-! ## The pins a cycle leaves (R217, R223, R228) -/

theorem onlyIf_apply {β : Type} (g : State → β) (c : Bool) (f : State → State) (s : State) :
    g (onlyIf c f s) = if c then g (f s) else g s := by
  cases c <;> rfl

theorem wrLvl_lat_self (p : Pin) (l : Level) (s : State) : (wrLvl p l s).lat[p] = l := by
  rw [wrLvl_lat, getElem_setPin, if_pos rfl]

theorem driveBus_lat_member (b : Bus) (v : Byte) (s : State) (k : Fin 8) :
    (driveBus b v s).lat[b.member k] = if v.getLsbD k then .high else .low := by
  rw [driveBus_lat, getElem_setMembers_member, bitLevel_eq]

theorem driveBus_lat_other {b c : Bus} (hbc : b ≠ c) (v : Byte) (s : State) (k : Fin 8) :
    (driveBus b v s).lat[c.member k] = s.lat[c.member k] := by
  rw [driveBus_lat, getElem_setMembers_other _ hbc]

/-! ### Steps 1 to 6 -/

/-- The pins the critical region of a cycle writes besides the buses (R216, R219, R221). -/
def regionPins : List Pin := [Pin.ras, Pin.cas, Pin.dls, Pin.cout]

theorem ne_of_not_mem_regionPins {q : Pin} (hq : q ∉ regionPins) :
    q ≠ Pin.ras ∧ q ≠ Pin.cas ∧ q ≠ Pin.dls ∧ q ≠ Pin.cout := by
  simpa [regionPins] using hq

/-- A bus member is none of the pins a cycle writes one by one. -/
theorem member_ne (b : Bus) (k : Fin 8) :
    b.member k ∉ regionPins ∧ b.member k ≠ Pin.wlb ∧ b.member k ≠ Pin.whb := by
  cases b <;> decide +revert

/-- After step 1 a bus member's latch holds its bit of the address (R214). -/
theorem addressed_lat_member (a : BitVec 32) (s : State) (b : Bus) (k : Fin 8) :
    (addressed a s).lat[b.member k] = if a.getLsbD (b.base + k.val) then .high else .low := by
  cases b with
  | low => rw [addressed, driveBus_lat_other (by decide), driveBus_lat_member]; simp [addrLow, Bus.base]
  | high =>
    have hbit : (addrHigh a).getLsbD k = a.getLsbD (8 + k.val) := by simp [addrHigh]
    rw [addressed, driveBus_lat_member, hbit]
    rfl

theorem addressed_lat_control (a : BitVec 32) (s : State) {q : Pin} (hq : 16 ≤ q.val) :
    (addressed a s).lat[q] = s.lat[q] := by
  rw [addressed, driveBus_lat_control _ _ _ hq, driveBus_lat_control _ _ _ hq, busDir_lat, busDir_lat]

/-- Step 2 writes no latch but those of the enabled lanes' strobes (R215). -/
theorem assertStrobes_lat (a : BitVec 32) (s : State) {q : Pin} (hlo : q = Pin.wlb → laneLo a = false)
    (hhi : q = Pin.whb → laneHi a = false) : (assertStrobes a s).lat[q] = s.lat[q] := by
  have strobe : ∀ (p : Pin) (c : Bool) u, (q = p → c = false) → (onlyIf c (wrLvl p .low) u).lat[q] = u.lat[q] :=
      fun p c u h => by
    cases c with
    | false => rfl
    | true => exact wrLvl_lat_of_ne .low u fun hqp => Bool.noConfusion (h hqp)
  rw [assertStrobes, strobe _ _ _ hhi, strobe _ _ _ hlo]

theorem rowPhase_lat (s : State) {q : Pin} (hq : q ∉ regionPins) : (rowPhase s).lat[q] = s.lat[q] := by
  obtain ⟨hras, -, -, hcout⟩ := ne_of_not_mem_regionPins hq
  rw [rowPhase, pulseClock, wrLvl_lat_of_ne _ _ hcout, wrLvl_lat_of_ne _ _ hcout, wrLvl_lat_of_ne _ _ hras]

/-- Before its column phase a read has written no latch but the buses', with the address, and the region's pins. -/
theorem readReleased_lat (a : BitVec 32) (s : State) {q : Pin} (hq : q ∉ regionPins) :
    (readReleased a s).lat[q] = (addressed a s).lat[q] := by
  rw [readReleased, releaseBuses, busDir_lat, busDir_lat, rowPhase_lat _ hq, enterRegion_lat]

/-- The flag of a bus's lane (R106). -/
def laneOf (a : BitVec 32) (b : Bus) : Bool := a.getLsbD (if b = .low then 16 else 17)

/-- The bit of `d` that member `k` of an enabled lane's bus carries (R218). -/
def carriedBit (a : BitVec 32) (d : BitVec 16) (b : Bus) (k : Fin 8) : Bool :=
  if b = .low then d.getLsbD k else d.getLsbD (if a.getLsbD 16 then 8 + k.val else k.val)

theorem highLaneData_getLsbD (a : BitVec 32) (d : BitVec 16) (k : Fin 8) :
    (highLaneData (laneLo a) d).getLsbD k = carriedBit a d .high k := by
  rw [highLaneData, carriedBit, laneLo]
  cases a.getLsbD 16 <;> simp [dataLow, dataHigh]

/-- Step 6 of a write puts an enabled lane's data in its members' latches (R218). -/
theorem dataDriven_lat_member (a : BitVec 32) (d : BitVec 16) (s : State) (b : Bus) (k : Fin 8) :
    (dataDriven a d s).lat[b.member k] =
      if laneOf a b then (if carriedBit a d b k then .high else .low) else s.lat[b.member k] := by
  unfold dataDriven
  cases b with
  | low =>
    rw [onlyIf_keeps (·.lat[Bus.low.member k]) _ _ _ (driveBus_lat_other (by decide) _ _ _),
      onlyIf_apply (·.lat[Bus.low.member k]), driveBus_lat_member]
    simp [laneOf, laneLo, carriedBit, dataLow]
  | high =>
    rw [onlyIf_apply (·.lat[Bus.high.member k]), driveBus_lat_member, highLaneData_getLsbD,
      onlyIf_keeps (·.lat[Bus.high.member k]) _ _ _ (driveBus_lat_other (by decide) _ _ _)]
    rfl

theorem dataDriven_lat_control (a : BitVec 32) (d : BitVec 16) (s : State) {q : Pin} (hq : 16 ≤ q.val) :
    (dataDriven a d s).lat[q] = s.lat[q] := by
  unfold dataDriven
  rw [onlyIf_keeps (·.lat[q]) _ _ _ (driveBus_lat_control _ _ _ hq),
    onlyIf_keeps (·.lat[q]) _ _ _ (driveBus_lat_control _ _ _ hq)]

/-- Before its column phase a write has its data on the enabled lanes, and the address on the others. -/
theorem writeReady_lat_member (a : BitVec 32) (d : BitVec 16) (s : State) (b : Bus) (k : Fin 8) :
    (writeReady a d s).lat[b.member k] =
      if (if laneOf a b then carriedBit a d b k else a.getLsbD (b.base + k.val)) then .high else .low := by
  obtain ⟨hregion, hwlb, hwhb⟩ := member_ne b k
  rw [writeReady, dataDriven_lat_member, rowPhase_lat _ hregion, writeStrobed, enterRegion_lat,
    assertStrobes_lat _ _ (absurd · hwlb) (absurd · hwhb), addressed_lat_member]
  cases laneOf a b <;> rfl

/-- Before its column phase a write has left the strobe of a disabled lane as it was. -/
theorem writeReady_lat_control (a : BitVec 32) (d : BitVec 16) (s : State) {q : Pin} (h16 : 16 ≤ q.val)
    (hq : q ∉ regionPins) (hlo : q = Pin.wlb → laneLo a = false) (hhi : q = Pin.whb → laneHi a = false) :
    (writeReady a d s).lat[q] = s.lat[q] := by
  rw [writeReady, dataDriven_lat_control _ _ _ h16, rowPhase_lat _ hq, writeStrobed, enterRegion_lat,
    assertStrobes_lat _ _ hlo hhi, addressed_lat_control _ _ h16]

/-! ### Steps 7 to 12 -/

/-- What steps 7 to 10 leave of the latches of `s`: the region's pins inactive, all others as they were (R219, R221). -/
structure Deasserted (s t : State) : Prop where
  ras : t.lat[Pin.ras] = .high
  cas : t.lat[Pin.cas] = .high
  dls : t.lat[Pin.dls] = .low
  cout : t.lat[Pin.cout] = .low
  other : ∀ q : Pin, q ∉ regionPins → t.lat[q] = s.lat[q]

theorem deassert_columnPhase {s u : State} (h : u.lat = (columnPhase s).lat) : Deasserted s (leaveRegion (deassert u)) where
  ras := by simp only [leaveRegion_lat, deassert, wrLvl_lat_self]
  cas := by simp (disch := decide) only [leaveRegion_lat, deassert, wrLvl_lat_self, wrLvl_lat_of_ne]
  dls := by simp (disch := decide) only [leaveRegion_lat, deassert, wrLvl_lat_self, wrLvl_lat_of_ne]
  cout := by
    simp (disch := decide) only [leaveRegion_lat, deassert, wrLvl_lat_of_ne, h, columnPhase, pulseClock, wrLvl_lat_self]
  other q hq := by
    obtain ⟨hras, hcas, hdls, hcout⟩ := ne_of_not_mem_regionPins hq
    rw [leaveRegion_lat, deassert, wrLvl_lat_of_ne _ _ hras, wrLvl_lat_of_ne _ _ hdls, wrLvl_lat_of_ne _ _ hcas, h,
      columnPhase, pulseClock, wrLvl_lat_of_ne _ _ hcout, wrLvl_lat_of_ne _ _ hcout, wrLvl_lat_of_ne _ _ hdls,
      wrLvl_lat_of_ne _ _ hcas]

theorem dataSampled_lat (a : BitVec 32) (s : State) : (dataSampled a s).lat = s.lat := by
  unfold dataSampled
  rw [onlyIf_keeps State.lat _ _ _ (by simp), onlyIf_keeps State.lat _ _ _ (by simp)]

theorem dataSampled_dir (a : BitVec 32) (s : State) : (dataSampled a s).dir = s.dir := by
  unfold dataSampled
  rw [onlyIf_keeps State.dir _ _ _ (by simp), onlyIf_keeps State.dir _ _ _ (by simp)]

/-- Steps 7 to 11 of a read. -/
theorem readDone_deasserted (a : BitVec 32) (s : State) : Deasserted (readReleased a s) (readDone a s) :=
  deassert_columnPhase (dataSampled_lat a (readReady a s))

theorem readDone_dir (a : BitVec 32) (s : State) (b : Bus) (k : Fin 8) : (readDone a s).dir[b.member k] = .input := by
  rw [readDone, leaveRegion_dir, deassert_dir, dataSampled_dir, readReady_dir]

/-- Step 12 of a write sets an enabled lane's bus to input with pull-up (R223). -/
theorem releaseLanes_dir_member (a : BitVec 32) (s : State) (b : Bus) (k : Fin 8) :
    (releaseLanes a s).dir[b.member k] = if laneOf a b then .inputPullup else s.dir[b.member k] := by
  unfold releaseLanes
  rw [onlyIf_keeps State.dir _ _ _ (by simp), onlyIf_keeps State.dir _ _ _ (by simp)]
  cases b with
  | low =>
    rw [onlyIf_keeps (·.dir[Bus.low.member k]) _ _ _ (by rw [busDir_dir, getElem_setMembers_other _ (by decide)]),
      onlyIf_apply (·.dir[Bus.low.member k]), busDir_dir, getElem_setMembers_member]
    rfl
  | high =>
    rw [onlyIf_apply (·.dir[Bus.high.member k]), busDir_dir, getElem_setMembers_member,
      onlyIf_keeps (·.dir[Bus.high.member k]) _ _ _ (by rw [busDir_dir, getElem_setMembers_other _ (by decide)])]
    rfl

/-- Step 12 of a write sets an enabled lane's strobe HIGH (R223). -/
theorem releaseLanes_lat (a : BitVec 32) (s : State) (q : Pin) :
    (releaseLanes a s).lat[q] =
      if q = Pin.whb ∧ laneHi a then .high else if q = Pin.wlb ∧ laneLo a then .high else s.lat[q] := by
  have hbus : ∀ c b u, (onlyIf c (busDir b .inputPullup) u).lat = u.lat := fun c b u =>
    onlyIf_keeps State.lat _ _ _ (busDir_lat _ _ _)
  have strobe : ∀ (p : Pin) (c : Bool) u,
      (onlyIf c (wrLvl p .high) u).lat[q] = if q = p ∧ c then .high else u.lat[q] := fun p c u => by
    rw [onlyIf_apply (·.lat[q]), wrLvl_lat, getElem_setPin]
    cases c <;> simp [eq_comm]
  rw [releaseLanes, strobe, strobe, hbus, hbus]

/-! ### The latches after a write cycle -/

/-- Steps 7 to 11 of a write. -/
theorem writeLeft_deasserted (a : BitVec 32) (d : BitVec 16) (s : State) :
    Deasserted (writeReady a d s) (leaveRegion (deassert (columnPhase (writeReady a d s)))) :=
  deassert_columnPhase rfl

theorem writeDone_dir (a : BitVec 32) (d : BitVec 16) (s : State) (b : Bus) (k : Fin 8) :
    (writeDone a d s).dir[b.member k] = if laneOf a b then .inputPullup else .output := by
  have hout : (writeReady a d s).dir[b.member k] = .output := writeReady_dir a d s b k
  rw [writeDone, releaseLanes_dir_member, leaveRegion_dir, deassert_dir, columnPhase_dir]
  exact congrArg (ite _ _) hout

/-- A latch that step 12 does not write is as steps 7 to 11 leave it. -/
theorem writeDone_lat (a : BitVec 32) (d : BitVec 16) (s : State) {q : Pin} (hwlb : q ≠ Pin.wlb) (hwhb : q ≠ Pin.whb) :
    (writeDone a d s).lat[q] = (leaveRegion (deassert (columnPhase (writeReady a d s)))).lat[q] := by
  rw [writeDone, releaseLanes_lat, if_neg fun h => hwhb h.1, if_neg fun h => hwlb h.1, writeReady, writeStrobed]

theorem writeDone_lat_member (a : BitVec 32) (d : BitVec 16) (s : State) (b : Bus) (k : Fin 8) :
    (writeDone a d s).lat[b.member k] =
      if (if laneOf a b then carriedBit a d b k else a.getLsbD (b.base + k.val)) then .high else .low := by
  obtain ⟨hregion, hwlb, hwhb⟩ := member_ne b k
  rw [writeDone_lat a d s hwlb hwhb, (writeLeft_deasserted a d s).other _ hregion, writeReady_lat_member]

/-- After a write an enabled lane's strobe is HIGH and a disabled one's is as it was (R223). -/
theorem writeDone_lat_wlb (a : BitVec 32) (d : BitVec 16) (s : State) :
    (writeDone a d s).lat[Pin.wlb] = if laneLo a then .high else s.lat[Pin.wlb] := by
  rw [writeDone, releaseLanes_lat, if_neg fun h => absurd h.1 (by decide)]
  cases h : laneLo a with
  | true => rfl
  | false =>
    rw [if_neg (by simp)]
    exact ((writeLeft_deasserted a d s).other _ (by decide)).trans
      (writeReady_lat_control a d s (by decide) (by decide) (fun _ => h) fun hw => absurd hw (by decide))

theorem writeDone_lat_whb (a : BitVec 32) (d : BitVec 16) (s : State) :
    (writeDone a d s).lat[Pin.whb] = if laneHi a then .high else s.lat[Pin.whb] := by
  rw [writeDone, releaseLanes_lat]
  cases h : laneHi a with
  | true => rfl
  | false =>
    rw [if_neg (by simp), if_neg fun hw => absurd hw.1 (by decide)]
    exact ((writeLeft_deasserted a d s).other _ (by decide)).trans
      (writeReady_lat_control a d s (by decide) (by decide) (fun hw => absurd hw (by decide)) fun _ => h)

/-- The pins a write cycle deasserts. -/
theorem writeDone_lat_region (a : BitVec 32) (d : BitVec 16) (s : State) :
    (writeDone a d s).lat[Pin.ras] = .high ∧ (writeDone a d s).lat[Pin.cas] = .high ∧
      (writeDone a d s).lat[Pin.dls] = .low ∧ (writeDone a d s).lat[Pin.cout] = .low := by
  have hleft := writeLeft_deasserted a d s
  have hlat : ∀ q ∈ regionPins, (writeDone a d s).lat[q] = _ := fun q hq =>
    writeDone_lat a d s ((by decide : ∀ p ∈ regionPins, p ≠ Pin.wlb) q hq)
      ((by decide : ∀ p ∈ regionPins, p ≠ Pin.whb) q hq)
  exact ⟨(hlat _ (by decide)).trans hleft.ras, (hlat _ (by decide)).trans hleft.cas,
    (hlat _ (by decide)).trans hleft.dls, (hlat _ (by decide)).trans hleft.cout⟩

/-- Settles O37, for the read commands and for the write commands. -/
theorem busCycleLeavesItsPins : Obligations.BusCycleLeavesItsPins := by
  unfold Obligations.BusCycleLeavesItsPins
  intro a s hs
  refine ⟨fun i t hi h => ?_, fun i d t hi h => ?_⟩
  · obtain ⟨r, he⟩ := exec_read hi hs
    obtain rfl := Host.Outcome.next.inj (he.symm.trans h)
    have hleft := readDone_deasserted a s
    have hmember : ∀ (b : Bus) (k : Fin 8),
        (readDone a s).lat[b.member k] = if a.getLsbD (b.base + k.val) then .high else .low := fun b k => by
      rw [hleft.other _ (member_ne b k).1, readReleased_lat _ _ (member_ne b k).1, addressed_lat_member]
    exact ⟨fun b k => ⟨readDone_dir a s b k, hmember b k⟩, readDone_lat a s (by decide) (by decide),
      readDone_lat a s (by decide) (by decide), hleft.ras, hleft.cas, hleft.dls, hleft.cout, readDone_crit a s⟩
  · obtain rfl := Host.Outcome.next.inj ((exec_write hi hs).symm.trans h)
    obtain ⟨hras, hcas, hdls, hcout⟩ := writeDone_lat_region a d s
    exact ⟨fun b k => ⟨writeDone_dir a d s b k, writeDone_lat_member a d s b k⟩, writeDone_lat_wlb a d s,
      writeDone_lat_whb a d s, hras, hcas, hdls, hcout, writeDone_crit a d s⟩

/-! ## The round trip on the echo target (R231) -/

/-- A write cycle from released strobes leaves them released. -/
theorem exec_write_strobesReleased {a : BitVec 32} {d : BitVec 16} {i : Instr} {s t : State}
    (hi : i = .bcw a d ∨ ∃ v : Byte, i = .mwrite a v ∧ d = v.setWidth 16) (hs : s.crit = false)
    (hrel : s.strobesReleased) (h : exec i s = .next t) : t.strobesReleased := by
  obtain ⟨-, hwlb, hwhb, hras, hcas, -⟩ := (busCycleLeavesItsPins a s hs).2 i d t hi h
  have hp : phaseOf i = .transacting := by rcases hi with rfl | ⟨v, rfl, -⟩ <;> rfl
  have hhigh : ∀ q ∈ [Pin.ras, Pin.cas, Pin.wlb, Pin.whb], s.lat[q] = .high := fun q hq =>
    (dir_lat_of_seen_driven (hrel q hq)).2
  have hlat : ∀ q ∈ [Pin.ras, Pin.cas, Pin.wlb, Pin.whb], t.lat[q] = .high := by
    rw [hhigh Pin.wlb (by decide), ite_self] at hwlb
    rw [hhigh Pin.whb (by decide), ite_self] at hwhb
    simp only [List.forall_mem_cons]
    exact ⟨hras, hcas, hwlb, hwhb, nofun⟩
  intro q hq
  have h16 : ∀ p ∈ [Pin.ras, Pin.cas, Pin.wlb, Pin.whb], 16 ≤ p.val := by decide
  have hdir : t.dir[q] = .output :=
    (exec_transacting_dir hp h (h16 q hq)).trans (dir_lat_of_seen_driven (hrel q hq)).1
  rw [seen_of_output hdir, hlat q hq]

/-- What a read returns of a word written as `d` on the same lanes (R218, R220). -/
def returned (a : BitVec 32) (d : BitVec 16) : BitVec 16 :=
  if a.getLsbD 16 then (if a.getLsbD 17 then d else (0 : Byte) ++ dataLow d)
  else if a.getLsbD 17 then (0 : Byte) ++ dataLow d else 0x0000

/-- Its low byte is the word's, whichever lanes are enabled (R226). -/
theorem returned_setWidth {a : BitVec 32} {d : BitVec 16} (h : (a.getLsbD 16 || a.getLsbD 17) = true) :
    (returned a d).setWidth 8 = dataLow d := by
  unfold returned
  split_ifs with hlo hhi hhi
  · exact (dataLow_eq d).symm
  · exact BitVec.setWidth_append_eq_right
  · exact BitVec.setWidth_append_eq_right
  · exact absurd (Bool.or_eq_true_iff.mp h) (not_or.mpr ⟨hlo, hhi⟩)

theorem dataHigh_append_dataLow (d : BitVec 16) : dataHigh d ++ dataLow d = d :=
  (BitVec.extractLsb'_append_extractLsb'_eq_extractLsb' rfl).trans BitVec.extractLsb'_eq_self

/-- The result composed of the bytes that a write of `d` left on its enabled lanes. -/
theorem composed_eq_returned {a : BitVec 32} {d : BitVec 16} {l h : Byte} (hl : a.getLsbD 16 = true → l = dataLow d)
    (hh : a.getLsbD 17 = true → h = if a.getLsbD 16 then dataHigh d else dataLow d) :
    (if a.getLsbD 16 then (if a.getLsbD 17 then h ++ l else (0 : Byte) ++ l)
      else if a.getLsbD 17 then (0 : Byte) ++ h else 0x0000) = returned a d := by
  unfold returned
  split_ifs with hlo hhi hhi
  · rw [hl hlo, hh hhi, if_pos hlo, dataHigh_append_dataLow]
  · rw [hl hlo]
  · rw [hh hhi, if_neg hlo]
  · rfl

/-- A write and a read of one address value on E: BCR returns the lanes written, MREAD their low byte, and a cycle with
no lane enabled changes no byte of memory. -/
theorem exec_write_read {a : BitVec 32} {d : BitVec 16} {i j : Instr} {s : State}
    (hi : i = .bcw a d ∨ ∃ v : Byte, i = .mwrite a v ∧ d = v.setWidth 16) (hj : j = .bcr a ∨ j = .mread a)
    (hrel : s.strobesReleased) (hE : s.onEcho) (hs : s.crit = false) :
    ∃ t u, exec i s = .next t ∧ exec j t = .next u ∧
      (u.result = if j = .bcr a then returned a d else ((returned a d).setWidth 8).setWidth 16) ∧
      ((a.getLsbD 16 || a.getLsbD 17) = false → ∀ x, u.echoByte x = s.echoByte x) := by
  obtain ⟨t, ht, htE, hstored⟩ := echoWriteStoresTheEnabledLanes a d i s hi hrel hE hs
  have hcrit : t.crit = false := by
    obtain rfl := Host.Outcome.next.inj ((exec_write hi hs).symm.trans ht)
    exact writeDone_crit a d s
  obtain ⟨u, hu, -, hkept, hresult⟩ :=
    echoReadReturnsTheWord a j t hj (exec_write_strobesReleased hi hs hrel ht) htE hcrit
  have hlow : a.getLsbD 16 = true → t.echoByte (laneAddress (a.setWidth 16) .low).toNat = dataLow d := fun h => by
    rw [hstored, if_pos ⟨rfl, h⟩, dataLow_eq]
  have hhigh : a.getLsbD 17 = true → t.echoByte (laneAddress (a.setWidth 16) .high).toNat =
      if a.getLsbD 16 then dataHigh d else dataLow d := fun h => by
    rw [hstored, if_neg fun hx => laneAddress_ne _ hx.1.symm, if_pos ⟨rfl, h⟩, dataHigh_eq, dataLow_eq]
  refine ⟨t, u, ht, hu, ?_, fun hlanes x => ?_⟩
  · rw [← composed_eq_returned hlow hhigh]
    exact hresult
  · obtain ⟨hlo, hhi⟩ := Bool.or_eq_false_iff.mp hlanes
    rw [hkept, hstored, hlo, hhi, if_neg (by simp), if_neg (by simp)]

/-- Settles O45: the wrappers' byte comes back from whichever lanes are enabled, the primitive's word from both. -/
theorem echoRoundTripLaw : Obligations.EchoRoundTripLaw := by
  unfold Obligations.EchoRoundTripLaw
  intro a s hrel hE hs _
  refine ⟨fun v => ?_, fun d hboth => ?_⟩
  · obtain ⟨t, u, ht, hu, hresult, hkept⟩ := exec_write_read (.inr ⟨v, rfl, rfl⟩) (.inr rfl) hrel hE hs (a := a)
    rw [if_neg nofun] at hresult
    refine ⟨t, u, ht, hu, fun hlanes => ?_, fun hlanes => ⟨?_, hkept hlanes⟩⟩
    · rw [hresult, BitVec.setWidth_setWidth_of_le _ (by decide), BitVec.setWidth_setWidth_of_le _ (by decide),
        returned_setWidth hlanes, dataLow_setWidth]
    · obtain ⟨hlo, hhi⟩ := Bool.or_eq_false_iff.mp hlanes
      rw [hresult, returned, hlo, hhi]
      rfl
  · obtain ⟨t, u, ht, hu, hresult, -⟩ := exec_write_read (.inl rfl) (.inl rfl) hrel hE hs (a := a) (d := d)
    obtain ⟨hlo, hhi⟩ := Bool.and_eq_true_iff.mp hboth
    rw [if_pos rfl, returned, if_pos hlo, if_pos hhi] at hresult
    exact ⟨t, u, ht, hu, hresult⟩

end Sys2Proof.Machine
end

section
/-! The family of spec/44_interrupt.md: the placeholders WAITINT and ACKINT under the reference profile and under any other
(R260 to R262). -/

namespace Sys2Proof.Machine

/-! ## The profile selects a placeholder's end -/

theorem inReferenceProfile_of_reference {s : State} (t : State) (h : s.cfg.intProfile = .reference) :
    inReferenceProfile s t = t := by
  rw [inReferenceProfile, h]

theorem inReferenceProfile_of_ne_reference {s : State} (t : State) (h : s.cfg.intProfile ≠ .reference) :
    inReferenceProfile s t = s.refuse .interruptProfile := by
  cases hp : s.cfg.intProfile with
  | reference => exact absurd hp h
  | other => rw [inReferenceProfile, hp]

/-- The first refusal is the one recorded (R287). -/
theorem State.refuse_of_unmarked {s : State} (r : Refusal) (h : s.unmarked) :
    s.refuse r = { s with refusalMark := some r } := by
  rw [State.refuse, h.2, Option.none_or]

/-! ## The two commands -/

theorem exec_waitint (n : Byte) (u : BitVec 32) (s : State) :
    exec (.waitint n u) s = .next (inReferenceProfile s (s.fail .notImplemented)) := rfl

theorem exec_ackint (s : State) : exec .ackint s = .next (inReferenceProfile s (s.succeed 0x0000)) := rfl

/-- Settles O46: the end posts the word of NotImplemented, which is 0x00000003. -/
theorem waitintIsNotImplemented : Obligations.WaitintIsNotImplemented := by
  unfold Obligations.WaitintIsNotImplemented
  intro n u s hp
  have hword : encodeOutcome .notImplemented = 0x00000003 := by decide
  rw [exec_waitint, inReferenceProfile_of_reference _ hp, State.fail, State.post, hword]

/-- Settles O47: the end posts the word of Success, which is zero. -/
theorem ackintSucceedsWithZero : Obligations.AckintSucceedsWithZero := by
  unfold Obligations.AckintSucceedsWithZero
  intro s hp
  have hword : encodeOutcome .success = 0x00000000 := by decide
  rw [exec_ackint, inReferenceProfile_of_reference _ hp, State.succeed, State.post, hword]

/-- Settles O48: both commands end in the refusal, the first of a state without marks. -/
theorem otherProfileRefusesInterrupts : Obligations.OtherProfileRefusesInterrupts := by
  unfold Obligations.OtherProfileRefusesInterrupts
  intro i s hp hi hs
  rw [← State.refuse_of_unmarked _ hs]
  rcases hi with rfl | ⟨n, u, rfl⟩
  · rw [exec_ackint, inReferenceProfile_of_ne_reference _ hp]
  · rw [exec_waitint, inReferenceProfile_of_ne_reference _ hp]

end Sys2Proof.Machine
end

section
/-! The family of spec/60_exceptions.md: the marks and the end of a run, the faults a step can reach, the verdict of CHECK from
the target's answers, and the harness that keeps its duties (R272 to R296). -/

namespace Sys2Proof.Machine

/-! ## The directions a command keeps (R47, R286) -/

/-- Only SETDIR of its pin, or BUSDIR where it is a bus member, makes an output of an input. -/
theorem MicroStep.dir_ne_output {j : Instr} {s t : State} (h : MicroStep j s t) {q : Pin} (hset : j ≠ .setdir q .output)
    (hbus : 16 ≤ q.val ∨ ∀ b, j ≠ .busdir b .output) (hq : s.dir[q] ≠ .output) : t.dir[q] ≠ .output := by
  cases h with
  | setdir p d =>
    rw [setDir_dir, getElem_setPin]
    split_ifs with hp
    · rintro rfl
      exact hset (by rw [hp])
    · exact hq
  | busdir b d =>
    rw [busDir_dir, getElem_setMembers]
    split_ifs with hm
    · rintro rfl
      have hlt : q.val < 16 := by cases b <;> simp only [Bus.base] at hm <;> omega
      exact hbus.elim (fun h16 => absurd hlt (by omega)) fun hne => hne b rfl
    · exact hq
  | _ => simpa using hq

/-- No command drives a pin that is neither a control output nor, in a bus cycle, a bus member. -/
theorem Allowed.drives_no_input {c : Config} {i j : Instr} (hi : i.isCommand = true) (h : Allowed c i j) {q : Pin}
    (hctl : q ∉ controlPins) (hq : 16 ≤ q.val ∨ phaseOf i ≠ .transacting) :
    j ≠ .setdir q .output ∧ (16 ≤ q.val ∨ ∀ b, j ≠ .busdir b .output) := by
  have cycle : phaseOf i = .transacting → CycleOp j →
      j ≠ .setdir q .output ∧ (16 ≤ q.val ∨ ∀ b, j ≠ .busdir b .output) := fun hp hj =>
    ⟨by rintro rfl; exact hj, .inl (hq.resolve_right fun hne => hne hp)⟩
  cases i with
  | idle => exact ⟨by rintro rfl; exact hctl h, .inr (by rintro b rfl; exact h)⟩
  | check => exact ⟨by rintro rfl; exact h, .inr (by rintro b rfl; exact h)⟩
  | waitint n k => exact h.elim
  | ackint => exact h.elim
  | mread a => exact cycle rfl h
  | mwrite a d => exact cycle rfl h
  | bcr a => exact cycle rfl h
  | bcw a d => exact cycle rfl h
  | _ => cases hi

/-- A command keeps an input an input, but for the bus members in a bus cycle. -/
theorem exec_dir_ne_output {i : Instr} {s t : State} (hi : i.isCommand = true) (h : exec i s = .next t) {q : Pin}
    (hctl : q ∉ controlPins) (hq : 16 ≤ q.val ∨ phaseOf i ≠ .transacting) (hs : s.dir[q] ≠ .output) :
    t.dir[q] ≠ .output := by
  obtain ⟨u, hgoes, hclosed⟩ := exec_next h
  rw [hclosed.samePins.dir]
  exact hgoes.keeps (fun v => v.dir[q] ≠ .output) (fun _ _ _ ha hm hv =>
    hm.dir_ne_output (ha.drives_no_input hi hctl hq).1 (ha.drives_no_input hi hctl hq).2 hv) hs

theorem exec_cfg {i : Instr} {s t : State} (h : exec i s = .next t) : t.cfg = s.cfg := by
  obtain ⟨u, hgoes, hclosed⟩ := exec_next h
  exact hclosed.samePins.cfg.trans hgoes.sameEnds.cfg

/-- A command keeps the input pins readable. -/
theorem exec_inputsReadable {i : Instr} {s t : State} (hi : i.isCommand = true) (hs : s.inputsReadable)
    (h : exec i s = .next t) : t.inputsReadable := by
  intro p hin hex
  have hge : 0x18 ≤ p.val := by simpa [isInputPin] using hin
  have hctl : p ∉ controlPins := fun hp => absurd ((by decide : ∀ q ∈ controlPins, q.val < 0x18) p hp) (by omega)
  rw [exec_cfg h] at hex
  exact exec_dir_ne_output hi h hctl (.inl (by omega)) (hs p hin hex)

/-- A command that is no bus cycle keeps the buses readable. -/
theorem exec_busesReadable {i : Instr} {s t : State} (hi : i.isCommand = true) (hp : phaseOf i ≠ .transacting)
    (hs : s.busesReadable) (h : exec i s = .next t) : t.busesReadable := by
  intro b k
  have hlt := member_lt b k
  have hctl : b.member k ∉ controlPins := fun hm =>
    absurd ((by decide : ∀ q ∈ controlPins, 0x10 ≤ q.val) _ hm) (by omega)
  exact exec_dir_ne_output hi h hctl (.inr hp) (hs b k)

/-! ## The faults a step can reach (R285, R286) -/

/-- From CRIT = 0 a bus-cycle command marks no fault. -/
theorem exec_transacting_faultMark {i : Instr} {s t : State} (hp : phaseOf i = .transacting) (hs : s.crit = false)
    (h : exec i s = .next t) : t.faultMark = s.faultMark := by
  rcases transacting_cases hp with ⟨a, hi⟩ | ⟨a, d, hi⟩
  · obtain ⟨r, he⟩ := exec_read hi hs
    obtain rfl := Host.Outcome.next.inj (he.symm.trans h)
    exact (readDone_sameEnds a hs).faultMark
  · obtain rfl := Host.Outcome.next.inj ((exec_write hi hs).symm.trans h)
    exact (writeDone_sameEnds a d hs).faultMark

/-- WAITINT and ACKINT fault in no profile. -/
theorem inReferenceProfile_faultMark {s t : State} (h : t.faultMark = s.faultMark) :
    (inReferenceProfile s t).faultMark = s.faultMark := by
  unfold inReferenceProfile
  split
  · exact h
  · rfl

/-- The only fault of a command begun between commands with readable inputs is CHECK's on a bus that some member drives. -/
theorem exec_command_faultMark {i : Instr} {s t : State} (hi : i.isCommand = true) (hcrit : s.crit = false)
    (hin : s.inputsReadable) (hmark : s.faultMark = none) (h : exec i s = .next t) :
    t.faultMark = none ∨ ∃ (b : Bus) (k : Fin 8), i = .check ∧ s.dir[b.member k] = .output ∧
      t.faultMark = some (.busReadNotInput b) := by
  by_cases hp : phaseOf i = .transacting
  · exact .inl ((exec_transacting_faultMark hp hcrit h).trans hmark)
  cases i with
  | idle =>
    obtain ⟨-, -, -, -, -, hfault, -⟩ := idleFrame s t h
    exact .inl (hfault.trans hmark)
  | check =>
    obtain ⟨t', he, hend⟩ := checkPostsOrFaultsOnADrivenBus s hin hmark
    obtain rfl := Host.Outcome.next.inj (he.symm.trans h)
    rcases hend with ⟨hnone, -⟩ | ⟨b, k, hd, hfault, -⟩
    · exact .inl hnone
    · exact .inr ⟨b, k, rfl, hd, hfault⟩
  | waitint n k =>
    rw [exec_waitint] at h
    obtain rfl := Host.Outcome.next.inj h
    exact .inl ((inReferenceProfile_faultMark (s.fail_faultMark _)).trans hmark)
  | ackint =>
    rw [exec_ackint] at h
    obtain rfl := Host.Outcome.next.inj h
    exact .inl ((inReferenceProfile_faultMark (s.succeed_faultMark _)).trans hmark)
  | mread a => exact absurd rfl hp
  | mwrite a d => exact absurd rfl hp
  | bcr a => exact absurd rfl hp
  | bcw a d => exact absurd rfl hp
  | _ => cases hi

/-- Settles O56: between commands a step waits, refuses a word, or runs a command. -/
theorem onlyCheckOnADrivenBusFaults : Obligations.OnlyCheckOnADrivenBusFaults := by
  unfold Obligations.OnlyCheckOnADrivenBusFaults
  intro s t hs hin hmark h
  obtain ⟨hmicro, hcrit⟩ := hs
  cases (step_next h).2 with
  | waited _ _ ht =>
    subst ht
    exact ⟨hin, .inl hmark⟩
  | badEvent w rest _ hm => cases hmicro.symm.trans hm
  | ranMicro w rest _ hm => cases hmicro.symm.trans hm
  | badCommand w rest why _ _ _ ht =>
    subst ht
    exact ⟨hin, .inl hmark⟩
  | ranCommand w rest i _ hinbox hd he =>
    have hi := decodeCommand_isCommand hd
    refine ⟨exec_inputsReadable (s := (s.withInbox rest).withCmd w) hi hin he, ?_⟩
    refine (exec_command_faultMark (s := (s.withInbox rest).withCmd w) hi hcrit hin hmark he).imp id ?_
    rintro ⟨b, k, rfl, hout, hfault⟩
    exact ⟨w, b, k, by rw [hinbox, List.head?_cons], hd, hout, hfault⟩

/-! ## The marks and the end of a run (R285, R287, R293, R294) -/

/-- Settles O51: micro-operations write no mark, and an end keeps the marks there are. -/
theorem marksAreNeverCleared : Obligations.MarksAreNeverCleared := by
  unfold Obligations.MarksAreNeverCleared
  intro i s t h
  obtain ⟨u, hgoes, hclosed⟩ := exec_next h
  have hends := hgoes.sameEnds
  obtain ⟨hfault, hrefusal⟩ := hclosed.marks
  exact ⟨fun f hf => hfault f (hends.faultMark.trans hf), fun r hr => hrefusal r (hends.refusalMark.trans hr)⟩

section step
variable {s : State}

theorem step_of_faultMark {f : Fault} (h : s.faultMark = some f) : step s = .fault f := by
  have hstop : s.stopped = some (.fault f) := by rw [State.stopped, h]
  rw [step, hstop]

theorem step_of_refusalMark {r : Refusal} (hf : s.faultMark = none) (h : s.refusalMark = some r) :
    step s = .refused r := by
  have hstop : s.stopped = some (.refused r) := by rw [State.stopped, hf, h]
  rw [step, hstop]

/-- With nothing to run the block waits. -/
theorem step_of_empty (hu : s.unmarked) (hm : s.micro = []) (hi : s.inbox = []) : step s = .next s := by
  unfold step
  rw [stopped_eq_none.mpr hu]
  simp only [State.fetch, hm, hi, Fetched.word]

/-- A word that spells no command is taken into CMD and refused. -/
theorem step_badCommand {w : CommandWord} {rest : List CommandWord} {why : Invalid} (hu : s.unmarked) (hm : s.micro = [])
    (hi : s.inbox = w :: rest) (hd : decodeCommand w = .error why) :
    step s = .next (((s.withInbox rest).withCmd w).refuse (.invalidCommand why)) := by
  unfold step
  rw [stopped_eq_none.mpr hu]
  simp only [State.fetch, hm, hi, Fetched.word, decode, hd, Fetched.refusal]

/-- An event word that records nothing is refused. -/
theorem step_badEvent {w : EventWord} {rest : List EventWord} {why : Invalid} (hu : s.unmarked)
    (hm : s.micro = w :: rest) (hd : decodeEvent s.cfg.nGnd w = .error why) :
    step s = .next ((s.withMicro rest).refuse (.invalidEvent why)) := by
  unfold step
  rw [stopped_eq_none.mpr hu]
  simp only [State.fetch, hm, Fetched.word, decode, hd, Fetched.refusal]

/-- Every instruction answers a next state. -/
theorem exec_exists_next (i : Instr) (s : State) : ∃ t, exec i s = .next t :=
  have ⟨_, t, he, _⟩ := exec_cases i s
  ⟨t, he⟩

/-- An unmarked state has a next state, whatever it has to run. -/
theorem step_exists_next (hu : s.unmarked) : ∃ t, step s = .next t := by
  cases hm : s.micro with
  | cons w rest =>
    cases hd : decodeEvent s.cfg.nGnd w with
    | ok i => rw [step_micro hu hm hd]; exact exec_exists_next i _
    | error why => exact ⟨_, step_badEvent hu hm hd⟩
  | nil =>
    cases hi : s.inbox with
    | nil => exact ⟨s, step_of_empty hu hm hi⟩
    | cons w rest =>
      cases hd : decodeCommand w with
      | ok i => rw [step_command hu hm hi hd]; exact exec_exists_next i _
      | error why => exact ⟨_, step_badCommand hu hm hi hd⟩

end step

/-- Settles O4. -/
theorem invalidCommandIsRefused : Obligations.InvalidCommandIsRefused := by
  unfold Obligations.InvalidCommandIsRefused
  intro s w rest why hu hm hi hd
  have hrefused := step_badCommand hu hm hi hd
  rw [State.refuse_of_unmarked (s := (s.withInbox rest).withCmd w) _ hu] at hrefused
  exact ⟨_, hrefused, rfl, step_of_refusalMark hu.1 rfl⟩

/-- Settles O5. -/
theorem stepStopsWaitsOrGoesOn : Obligations.StepStopsWaitsOrGoesOn := by
  unfold Obligations.StepStopsWaitsOrGoesOn
  exact fun s => ⟨fun _ => step_of_faultMark, fun _ => step_of_refusalMark, step_exists_next, step_of_empty⟩

/-! ## The verdict of CHECK from foretold answers (R180, R272, R276) -/

/-! ### Comparisons one after another -/

/-- Every comparison of the list matches. -/
def AllMatch (rows : List CheckRow) : Prop := ∀ r ∈ rows, r.ok = true

theorem allMatch_append {rows rest : List CheckRow} : AllMatch (rows ++ rest) ↔ AllMatch rows ∧ AllMatch rest :=
  List.forall_mem_append

theorem allMatch_cons {r : CheckRow} {rows : List CheckRow} : AllMatch (r :: rows) ↔ r.ok = true ∧ AllMatch rows :=
  List.forall_mem_cons

/-- What follows a list of comparisons follows in its trace, where they all match. -/
theorem checkTrace_append (finish : List EventWord) (rows rest : List CheckRow) :
    checkTrace finish (rows ++ rest) = checkTrace (checkTrace finish rest) rows := by
  induction rows with
  | nil => rfl
  | cons r rows ih => rw [List.cons_append, checkTrace, checkTrace, ih]

theorem checkTrace_of_allMatch {rows : List CheckRow} (finish : List EventWord) (h : AllMatch rows) :
    checkTrace finish rows = checkTrace [] rows ++ finish := by
  induction rows with
  | nil => rfl
  | cons r rows ih =>
    obtain ⟨hr, hrows⟩ := allMatch_cons.mp h
    rw [checkTrace, checkTrace, if_pos hr, if_pos hr, ih hrows, List.append_assoc]

/-- After a mismatch nothing more is emitted (R188). -/
theorem checkTrace_of_mismatch {rows : List CheckRow} (finish finish' : List EventWord) (h : ¬ AllMatch rows) :
    checkTrace finish rows = checkTrace finish' rows := by
  induction rows with
  | nil => exact absurd (List.forall_mem_nil _) h
  | cons r rows ih =>
    rw [checkTrace, checkTrace]
    split_ifs with hr
    · rw [ih fun hrows => h (allMatch_cons.mpr ⟨hr, hrows⟩)]
    · rfl

theorem firstMismatch_of_allMatch {rows : List CheckRow} (h : AllMatch rows) : firstMismatch rows = .success := by
  induction rows with
  | nil => rfl
  | cons r rows ih =>
    obtain ⟨hr, hrows⟩ := allMatch_cons.mp h
    rw [firstMismatch, if_pos hr, ih hrows]

/-- Comparisons that all match are passed over. -/
theorem firstMismatch_append_of_allMatch {rows : List CheckRow} (rest : List CheckRow) (h : AllMatch rows) :
    firstMismatch (rows ++ rest) = firstMismatch rest := by
  induction rows with
  | nil => rfl
  | cons r rows ih =>
    obtain ⟨hr, hrows⟩ := allMatch_cons.mp h
    rw [List.cons_append, firstMismatch, if_pos hr, ih hrows]

/-- What follows a mismatch is not reported. -/
theorem firstMismatch_append_of_mismatch {rows : List CheckRow} (rest : List CheckRow) (h : ¬ AllMatch rows) :
    firstMismatch (rows ++ rest) = firstMismatch rows := by
  induction rows with
  | nil => exact absurd (List.forall_mem_nil _) h
  | cons r rows ih =>
    rw [List.cons_append, firstMismatch, firstMismatch]
    split_ifs with hr
    · exact ih fun hrows => h (allMatch_cons.mpr ⟨hr, hrows⟩)
    · rfl

/-- The comparisons with the events `before` put before the first of them. -/
def precededBy (before : List EventWord) : List CheckRow → List CheckRow
  | [] => []
  | r :: rows => { r with events := before ++ r.events } :: rows

theorem allMatch_precededBy (before : List EventWord) (rows : List CheckRow) :
    AllMatch (precededBy before rows) ↔ AllMatch rows := by
  cases rows with
  | nil => rfl
  | cons r rows => rw [precededBy, allMatch_cons, allMatch_cons]

theorem firstMismatch_precededBy (before : List EventWord) (rows : List CheckRow) :
    firstMismatch (precededBy before rows) = firstMismatch rows := by
  cases rows <;> rfl

theorem checkTrace_precededBy (before finish : List EventWord) {rows : List CheckRow} (h : rows ≠ []) :
    checkTrace finish (precededBy before rows) = before ++ checkTrace finish rows := by
  cases rows with
  | nil => exact absurd rfl h
  | cons r rows => rw [precededBy, checkTrace, checkTrace, List.append_assoc]

/-! ### Sequences that report their comparisons -/

/-- Configuration `c`, everything CHECK reads readable, and the answers `ans` foretold. -/
structure Ready (c : Config) (ans : List Level) (s : State) : Prop where
  cfg : s.cfg = c
  inputs : s.inputsReadable
  buses : s.busesReadable
  foretold : s.foretold ans

/-- From `s` the sequence makes the comparisons `rows`: it passes them all, emits `finish` after them and leaves the answers
`ans`, or fails with the first mismatch. -/
def Reports (c : Config) (s : State) (finish : List EventWord) (rows : List CheckRow) (ans : List Level) (x : Flow Unit) :
    Prop :=
  x.Meets (fun _ t => AllMatch rows ∧ t.trace = s.trace ++ checkTrace finish rows ∧ Ready c ans t)
    (fun o t => ¬ AllMatch rows ∧ t.trace = s.trace ++ checkTrace finish rows ∧ o = firstMismatch rows)
    fun _ _ => False

section Reports
variable {c : Config} {s : State} {ans rest : List Level}

/-- No pin that CHECK reads is an output. -/
theorem Ready.dir_ne (h : Ready c ans s) {p : Pin} (hp : p ∈ inputOnlyPins c.nGnd) : s.dir[p] ≠ .output :=
  h.inputs.dir_ne (h.cfg.symm ▸ hp)

/-- Readiness but for the answers depends on the configuration and the directions alone. -/
theorem Ready.congr {t : State} (h : Ready c ans s) (hcfg : t.cfg = s.cfg) (hdir : t.dir = s.dir) (hans : t.foretold rest) :
    Ready c rest t where
  cfg := hcfg.trans h.cfg
  inputs := by
    unfold State.inputsReadable
    rw [hcfg, hdir]
    exact h.inputs
  buses := by
    unfold State.busesReadable
    rw [hdir]
    exact h.buses
  foretold := hans

/-- The target under which answers are foretold reacts to no pin write. -/
theorem Ready.wrLvl (h : Ready c ans s) (p : Pin) (l : Level) : Ready c ans (wrLvl p l s) := by
  refine h.congr (wrLvl_cfg p l s) (wrLvl_dir p l s) ?_
  obtain ⟨hkind, hans⟩ := h.foretold
  exact ⟨(wrLvl_target_kind p l s).trans hkind, (wrLvl_target_answers p l s).trans hans⟩

/-- Comparisons after comparisons. -/
theorem Reports.andThen {finish : List EventWord} {rows rows' : List CheckRow} {ans' : List Level} {x : Flow Unit}
    {k : State → Flow Unit} (hx : Reports c s [] rows ans x)
    (hk : ∀ t, Ready c ans t → Reports c t finish rows' ans' (k t)) :
    Reports c s finish (rows ++ rows') ans' (x.andThen fun _ t => k t) := by
  cases x with
  | done a t =>
    obtain ⟨hall, htrace, hready⟩ := hx
    have hmatch : AllMatch (rows ++ rows') ↔ AllMatch rows' := by rw [allMatch_append, and_iff_right hall]
    rw [Reports, hmatch, firstMismatch_append_of_allMatch _ hall, checkTrace_append, checkTrace_of_allMatch _ hall,
      ← List.append_assoc, ← htrace]
    exact hk t hready
  | failed o t =>
    obtain ⟨hmis, htrace, ho⟩ := hx
    refine ⟨fun hall => hmis (allMatch_append.mp hall).1, ?_, ?_⟩
    · rw [checkTrace_append, htrace, checkTrace_of_mismatch _ _ hmis]
    · rw [firstMismatch_append_of_mismatch _ hmis, ho]
  | faulted f t => exact hx.elim

/-- Comparisons after events that are compared with nothing. -/
theorem Reports.precededBy {finish before : List EventWord} {rows : List CheckRow} {t : State} {x : Flow Unit}
    (h : Reports c t finish rows ans x) (ht : t.trace = s.trace ++ before) (hrows : rows ≠ []) :
    Reports c s finish (precededBy before rows) ans x := by
  rw [Reports, allMatch_precededBy, firstMismatch_precededBy, checkTrace_precededBy _ _ hrows, ← List.append_assoc, ← ht]
  exact h

/-- Events that end a sequence whose comparisons all matched. -/
theorem Reports.finish {finish : List EventWord} {rows : List CheckRow} {x : Flow Unit} {f : State → State}
    (h : Reports c s [] rows ans x) (hf : ∀ t, Ready c ans t → (f t).trace = t.trace ++ finish ∧ Ready c ans (f t)) :
    Reports c s finish rows ans (x.andThen fun _ t => .done () (f t)) := by
  rw [← List.append_nil rows]
  refine h.andThen fun t ht => ?_
  obtain ⟨htrace, hready⟩ := hf t ht
  exact ⟨List.forall_mem_nil _, htrace, hready⟩

/-- One comparison after another, for each of a list. -/
theorem eachOf_reports {α : Type} {f : α → State → Flow Unit} {row : α × Nat → CheckRow} {w : Nat} {xs : List α}
    (hf : ∀ x ∈ xs, ∀ k t, w * (k + 1) ≤ ans.length → Ready c (ans.drop (w * k)) t →
      Reports c t [] [row (x, k)] (ans.drop (w * (k + 1))) (f x t)) (k : Nat) (h : Ready c (ans.drop (w * k)) s)
    (hlen : w * (k + xs.length) ≤ ans.length) :
    Reports c s [] ((xs.zipIdx k).map row) (ans.drop (w * (k + xs.length))) (eachOf f xs s) := by
  induction xs generalizing k s with
  | nil => exact ⟨List.forall_mem_nil _, (List.append_nil _).symm, h⟩
  | cons x xs ih =>
    rw [List.length_cons, Nat.add_comm xs.length, ← Nat.add_assoc] at hlen ⊢
    have hfirst : w * (k + 1) ≤ ans.length := le_trans (Nat.mul_le_mul_left w (by omega)) hlen
    exact (hf x List.mem_cons_self k s hfirst h).andThen fun t ht =>
      ih (fun y hy => hf y (List.mem_cons_of_mem x hy)) (k + 1) ht hlen

/-! ### Reads of foretold answers (R142, R145) -/

theorem rdlvl_event (p : Pin) (l : Level) : eventWord 3 (levelCode l) (pinId p) 0 = readEvent p l := by cases l <;> rfl

theorem wrlvl_event (p : Pin) (l : Level) : eventWord 2 (levelCode l) (pinId p) 0 = writeEvent p l := by cases l <;> rfl

theorem busrd_event (b : Bus) (v : Byte) : eventWord 6 0 (busId b) v = busReadEvent b v := by cases b <;> rfl

/-- A pin read takes the next answer. -/
theorem Ready.samplePin {l : Level} (h : Ready c (l :: rest) s) (p : Pin) :
    (s.sample p).1 = l ∧ (samplePin p s).trace = s.trace ++ [readEvent p l] ∧ Ready c rest (samplePin p s) := by
  obtain ⟨hkind, hans⟩ := h.foretold
  have hsample := sample_foretold s p l rest hkind hans
  refine ⟨by rw [hsample], by rw [samplePin_trace, hsample, rdlvl_event], ?_⟩
  refine h.congr (samplePin_cfg p s) (samplePin_dir p s) ⟨?_, ?_⟩
  · rw [samplePin_target, sample_kind, hkind]
  · rw [samplePin_target, hsample]

theorem byteOfAnswers_getLsbD (ans : List Level) {i : Nat} (hi : i < 8) :
    (byteOfAnswers ans).getLsbD i = decide (ans.getD i .low = .high) := by
  exact BitVec.getLsbD_ofBoolListLE.trans (by simp [hi])

/-- A bus read takes the next eight answers. -/
theorem Ready.sampleBus (h : Ready c ans s) (hlen : 8 ≤ ans.length) (b : Bus) :
    s.busSample b = byteOfAnswers ans ∧ (sampleBus b s).trace = s.trace ++ [busReadEvent b (byteOfAnswers ans)] ∧
      Ready c (ans.drop 8) (sampleBus b s) := by
  obtain ⟨hrest, hbits⟩ := sampleBus_foretold (b := b) (s := s) (ans := ans.take 8) (rest := ans.drop 8)
    (List.length_take_of_le hlen) (by rw [List.take_append_drop]; exact h.foretold)
  have hbyte : s.busSample b = byteOfAnswers ans := BitVec.eq_of_getLsbD_eq fun i hi => by
    rw [hbits ⟨i, hi⟩, byteOfAnswers_getLsbD ans hi]
    simp [List.getD_eq_getElem?_getD, List.getElem?_take_of_lt hi]
  exact ⟨hbyte, by rw [sampleBus_trace, hbyte, busrd_event], h.congr (sampleBus_cfg b s) (sampleBus_dir b s) hrest⟩

/-- One comparison. -/
theorem reports_comparison {r : CheckRow} {t : State} (ht : t.trace = s.trace ++ r.events) (h : Ready c ans t) :
    Reports c s [] [r] ans (if r.ok = true then .done () t else .failed r.report t) := by
  have htrace : t.trace = s.trace ++ checkTrace [] [r] := by rw [checkTrace, checkTrace, ite_self, List.append_nil, ht]
  split_ifs with hr
  · exact ⟨List.forall_mem_singleton.mpr hr, htrace, h⟩
  · exact ⟨fun hall => hr (hall r List.mem_cons_self), htrace, by rw [firstMismatch, if_neg hr]⟩

/-- Comparing a pin. -/
theorem expectLevel_reports {p : Pin} (want got : Level) (hp : p ∈ inputOnlyPins c.nGnd) (h : Ready c (got :: rest) s) :
    Reports c s [] [pinRow [] p want got] rest (expectLevel p want s) := by
  obtain ⟨hgot, htrace, hready⟩ := h.samplePin p
  unfold expectLevel
  rw [rdLvl_done (h.dir_ne hp), Flow.done_andThen, hgot]
  simpa only [pinRow, decide_eq_true_eq] using reports_comparison (r := pinRow [] p want got) htrace hready

/-- The comparison of a bus with `want`, from the eight answers next in `ans`. -/
def busRow (b : Bus) (want : Byte) (ans : List Level) : CheckRow :=
  ⟨[busReadEvent b (byteOfAnswers ans)], .busValueMismatch b want (byteOfAnswers ans), byteOfAnswers ans = want⟩

/-- Comparing a bus. -/
theorem expectBus_reports (b : Bus) (want : Byte) (hlen : 8 ≤ ans.length) (h : Ready c ans s) :
    Reports c s [] [busRow b want ans] (ans.drop 8) (expectBus b want s) := by
  obtain ⟨hbyte, htrace, hready⟩ := h.sampleBus hlen b
  unfold expectBus
  rw [busRd_done (h.buses b), Flow.done_andThen, hbyte]
  simpa only [busRow, decide_eq_true_eq] using reports_comparison (r := busRow b want ans) htrace hready

/-! ### The six steps (R181 to R187) -/

theorem drop_eq_getD_cons {ans : List Level} {k : Nat} (hk : k < ans.length) :
    ans.drop k = ans.getD k .low :: ans.drop (k + 1) := by
  rw [List.drop_eq_getElem_cons hk, List.getD_eq_getElem _ _ hk]

/-- Comparing the pin whose answer is number `k`. -/
theorem expectLevel_reports_at {p : Pin} (want : Level) {k : Nat} (hk : k < ans.length) (hp : p ∈ inputOnlyPins c.nGnd)
    (h : Ready c (ans.drop k) s) :
    Reports c s [] [pinRow [] p want (ans.getD k .low)] (ans.drop (k + 1)) (expectLevel p want s) :=
  expectLevel_reports want _ hp (drop_eq_getD_cons hk ▸ h)

/-- Comparing the pins of a list. -/
theorem expectLevels_reports {ps : List Pin} (want : Level) (hps : ∀ p ∈ ps, p ∈ inputOnlyPins c.nGnd)
    (hlen : ps.length ≤ ans.length) (h : Ready c ans s) :
    Reports c s [] (ps.zipIdx.map fun (p, k) => pinRow [] p want (ans.getD k .low)) (ans.drop ps.length)
      (eachOf (fun p => expectLevel p want) ps s) := by
  have hall := eachOf_reports (f := fun p => expectLevel p want) (w := 1) (xs := ps) (ans := ans)
    (row := fun (p, k) => pinRow [] p want (ans.getD k .low)) (c := c) (s := s)
    (fun p hp k t hk ht => ?_) 0 h (by omega)
  · simpa only [Nat.zero_add, Nat.one_mul] using hall
  · rw [Nat.one_mul] at hk ht ⊢
    exact expectLevel_reports_at want hk (hps p hp) ht

/-- Steps 1 and 2. -/
theorem checkPower_checkReady_reports (hn : c.nGnd ≤ 16) (hlen : c.nGnd + 3 ≤ ans.length) (h : Ready c ans s) :
    Reports c s [] (powerRows c.nGnd ans) (ans.drop (c.nGnd + 3)) ((checkPower s).andThen fun _ t => checkReady t) := by
  have hground : (groundPins c.nGnd).length = c.nGnd := by simpa [groundPins] using hn
  have hfixed : ∀ p ∈ [Pin.vcc, Pin.pup, Pin.ready], p ∈ inputOnlyPins c.nGnd := fun p hp =>
    early_sub _ p (by simp [earlyPins] at hp ⊢; tauto)
  unfold checkPower checkReady
  rw [h.cfg, Flow.andThen_assoc]
  refine Reports.andThen (ans := ans.drop c.nGnd) ?_ fun t1 h1 => ?_
  · have hpins := expectLevels_reports .low (fun p hp => List.mem_append_left _ hp) (by omega) h
    rwa [hground] at hpins
  rw [Flow.andThen_assoc]
  refine (expectLevel_reports_at (k := c.nGnd) .high (by omega) (hfixed _ (by simp)) h1).andThen fun t2 h2 => ?_
  refine (expectLevel_reports_at (k := c.nGnd + 1) .low (by omega) (hfixed _ (by simp)) h2).andThen fun t3 h3 => ?_
  exact expectLevel_reports_at (k := c.nGnd + 2) .high (by omega) (hfixed _ (by simp)) h3

/-- The clock loop sees the levels among its samples. -/
theorem sampleClock_foretold {samples : List Level} (lo hi : Bool) (h : Ready c (samples ++ rest) s) :
    ∃ t, sampleClock samples.length lo hi s = .done (lo || decide (.low ∈ samples), hi || decide (.high ∈ samples)) t ∧
      t.trace = s.trace ++ samples.map (readEvent Pin.xtl1) ∧ Ready c rest t := by
  induction samples generalizing s lo hi with
  | nil => exact ⟨s, by simp [sampleClock], by simp, h⟩
  | cons l samples ih =>
    obtain ⟨hl, htrace, hready⟩ := h.samplePin Pin.xtl1
    rw [List.length_cons, sampleClock, rdLvl_done (h.dir_ne (xtl1_mem_inputOnlyPins _)), Flow.done_andThen, hl]
    cases l with
    | low =>
      obtain ⟨t, ht, htr, hr⟩ := ih true hi hready
      exact ⟨t, by simpa using ht, by rw [htr, htrace, List.append_assoc]; rfl, hr⟩
    | high =>
      obtain ⟨t, ht, htr, hr⟩ := ih lo true hready
      exact ⟨t, by simpa using ht, by rw [htr, htrace, List.append_assoc]; rfl, hr⟩

/-- Step 3: every sample is taken before either verdict. -/
theorem checkClock_reports (hlen : c.clockSamples ≤ ans.length) (h : Ready c ans s) :
    Reports c s [] (clockRows c.clockStuckLowExpected (ans.take c.clockSamples)) (ans.drop c.clockSamples)
      (checkClock s) := by
  have htake : (ans.take c.clockSamples).length = c.clockSamples := List.length_take_of_le hlen
  obtain ⟨t, ht, htrace, hready⟩ := sampleClock_foretold (samples := ans.take c.clockSamples) false false
    (by rw [List.take_append_drop]; exact h)
  rw [htake] at ht
  unfold checkClock
  rw [h.cfg, ht, Flow.done_andThen, hready.cfg]
  generalize ans.take c.clockSamples = samples at *
  by_cases hhigh : Level.high ∈ samples
  · by_cases hlow : Level.low ∈ samples <;>
      simp [Reports, Flow.Meets, clockRows, AllMatch, checkTrace, firstMismatch, hhigh, hlow, htrace, hready]
  · simp [Reports, Flow.Meets, clockRows, AllMatch, checkTrace, firstMismatch, hhigh, htrace]

/-- Both buses, from sixteen answers. -/
theorem expectBuses_reports (want : Bus → Byte) (o : BusCheckOrder) (hlen : 16 ≤ ans.length) (h : Ready c ans s) :
    Reports c s [] (busRows [] (busOrder o) want ans) (ans.drop 16) (eachOf (fun b => expectBus b (want b)) (busOrder o) s) := by
  have hall := eachOf_reports (f := fun b => expectBus b (want b)) (w := 8) (xs := busOrder o) (ans := ans)
    (row := fun (b, k) => busRow b (want b) (ans.drop (8 * k))) (c := c) (s := s)
    (fun b hb k t hk ht => ?_) 0 h (by cases o <;> exact hlen)
  · cases o <;> exact hall
  · have hnext := expectBus_reports b (want b) (by rw [List.length_drop]; omega) ht
    rwa [List.drop_drop] at hnext

/-- Step 4, and step 5 after release. -/
theorem checkAllOnes_reports (hlen : 16 ≤ ans.length) (h : Ready c ans s) :
    Reports c s [] (busRows [] (busOrder c.busCheckOrder) (fun _ => 0xFF) ans) (ans.drop 16) (checkAllOnes s) := by
  unfold checkAllOnes
  rw [h.cfg]
  exact expectBuses_reports _ _ hlen h

theorem busRows_precededBy (before : List EventWord) (o : BusCheckOrder) (want : Bus → Byte) (ans : List Level) :
    busRows before (busOrder o) want ans = precededBy before (busRows [] (busOrder o) want ans) := by
  cases o <;> rfl

theorem busRows_ne_nil (before : List EventWord) (o : BusCheckOrder) (want : Bus → Byte) (ans : List Level) :
    busRows before (busOrder o) want ans ≠ [] := by
  cases o <;> exact nofun

theorem latchRows_precededBy (before : List EventWord) (ans : List Level) :
    latchRows before ans = precededBy before (latchRows [] ans) := rfl

/-- Step 5. -/
theorem checkMode_reports (hlen : 32 ≤ ans.length) (h : Ready c ans s) :
    Reports c s [] (busRows [writeEvent Pin.bclr .low] (busOrder c.busCheckOrder) (fun b => byteOf b c.modeWord) ans ++
        busRows [writeEvent Pin.bclr .high] (busOrder c.busCheckOrder) (fun _ => 0xFF) (ans.drop 16))
      (ans.drop 32) (checkMode s) := by
  have hwrite : ∀ l t, (wrLvl Pin.bclr l t).trace = t.trace ++ [writeEvent Pin.bclr l] := fun l t => by
    rw [wrLvl_trace, wrlvl_event]
  unfold checkMode checkModeBytes
  rw [wrLvl_cfg, h.cfg, busRows_precededBy [writeEvent _ .low], busRows_precededBy [writeEvent _ .high]]
  refine Reports.andThen (ans := ans.drop 16) ?_ fun t ht => ?_
  · exact (expectBuses_reports (fun b => byteOf b c.modeWord) _ (by omega) (h.wrLvl _ _)).precededBy (hwrite .low s)
      (busRows_ne_nil _ _ _ _)
  · have hones := checkAllOnes_reports (by rw [List.length_drop]; omega) (ht.wrLvl Pin.bclr .high)
    rw [List.drop_drop] at hones
    exact hones.precededBy (hwrite .high t) (busRows_ne_nil _ _ _ _)

/-- Step 6. -/
theorem checkLatch_reports (hlen : 4 ≤ ans.length) (h : Ready c ans s) :
    Reports c s (releaseEvents c) (latchRows [writeEvent Pin.dls .high, writeEvent c.latchEnablePin .high] ans) (ans.drop 4)
      (checkLatch s) := by
  have hwrites : ∀ p l q m t, (wrLvl q m (wrLvl p l t)).trace = t.trace ++ [writeEvent p l, writeEvent q m] :=
      fun p l q m t => by
    rw [wrLvl_trace, wrLvl_trace, wrlvl_event, wrlvl_event, List.append_assoc, List.singleton_append]
  have hpins := (expectLevels_reports (ps := auxPins) .high (aux_sub c.nGnd) hlen
    ((h.wrLvl Pin.dls .high).wrLvl c.latchEnablePin .high)).precededBy (hwrites _ _ _ _ s) nofun
  unfold checkLatch
  rw [h.cfg, latchRows_precededBy]
  refine Reports.finish hpins fun t ht => ?_
  rw [ht.cfg]
  exact ⟨hwrites _ _ _ _ t, (ht.wrLvl _ _).wrLvl _ _⟩

/-- CHECK makes the comparisons of R276. -/
theorem selfCheck_reports (hn : c.nGnd ≤ 16) (hlen : c.nGnd + 3 + c.clockSamples + 52 ≤ ans.length) (h : Ready c ans s) :
    Reports c s (releaseEvents c) (checkRows c ans) (ans.drop (c.nGnd + 3 + c.clockSamples + 52)) (selfCheck s) := by
  have horder : (if c.busCheckOrder = .lowFirst then [Bus.low, .high] else [.high, .low]) = busOrder c.busCheckOrder := by
    cases c.busCheckOrder <;> rfl
  have hmode : (fun b => if b = Bus.low then c.modeWord.setWidth 8 else (c.modeWord >>> 8).setWidth 8) =
      fun b => byteOf b c.modeWord := funext fun b => by
    cases b with
    | low => exact (dataLow_eq c.modeWord).symm
    | high => exact (dataHigh_eq c.modeWord).symm
  have hrows : checkRows c ans = powerRows c.nGnd ans ++
      (clockRows c.clockStuckLowExpected ((ans.drop (c.nGnd + 3)).take c.clockSamples) ++
      (busRows [] (busOrder c.busCheckOrder) (fun _ => 0xFF) (ans.drop (c.nGnd + 3 + c.clockSamples)) ++
      ((busRows [writeEvent Pin.bclr .low] (busOrder c.busCheckOrder) (fun b => byteOf b c.modeWord)
          (ans.drop (c.nGnd + 3 + c.clockSamples + 16)) ++
        busRows [writeEvent Pin.bclr .high] (busOrder c.busCheckOrder) (fun _ => 0xFF)
          (ans.drop (c.nGnd + 3 + c.clockSamples + 32))) ++
      latchRows [writeEvent Pin.dls .high, writeEvent c.latchEnablePin .high]
        (ans.drop (c.nGnd + 3 + c.clockSamples + 48))))) := by
    simp only [checkRows, horder, hmode, List.drop_drop, List.append_assoc]
  unfold selfCheck
  rw [hrows, ← Flow.andThen_assoc]
  refine (checkPower_checkReady_reports hn (by omega) h).andThen fun t1 h1 => ?_
  have hclock := checkClock_reports (by rw [List.length_drop]; omega) h1
  rw [List.drop_drop] at hclock
  refine hclock.andThen fun t2 h2 => ?_
  have hones := checkAllOnes_reports (by rw [List.length_drop]; omega) h2
  rw [List.drop_drop] at hones
  refine hones.andThen fun t3 h3 => ?_
  have hmodes := checkMode_reports (by rw [List.length_drop]; omega) h3
  rw [List.drop_drop, List.drop_drop] at hmodes
  refine hmodes.andThen fun t4 h4 => ?_
  have hlatch := checkLatch_reports (by rw [List.length_drop]; omega) h4
  rwa [List.drop_drop] at hlatch

/-- A command that reports its comparisons posts the first mismatch, or Success. -/
theorem Reports.close {finish : List EventWord} {rows : List CheckRow} {x : Flow Unit}
    (h : Reports c s finish rows ans x) (hends : SameEnds s x.state) :
    (x.close fun _ => 0).status = encodeOutcome (firstMismatch rows) ∧
      (x.close fun _ => 0).trace = s.trace ++ checkTrace finish rows ∧ (x.close fun _ => 0).result = 0 ∧
      (x.close fun _ => 0).posted = s.posted ++ [((x.close fun _ => 0).status, 0)] ∧
      (x.close fun _ => 0).faultMark = s.faultMark := by
  cases x with
  | done a t =>
    obtain ⟨hall, htrace, -⟩ := h
    exact ⟨by rw [firstMismatch_of_allMatch hall]; rfl, htrace, rfl, congrArg (· ++ [_]) hends.posted, hends.faultMark⟩
  | failed o t =>
    obtain ⟨-, htrace, rfl⟩ := h
    exact ⟨rfl, htrace, rfl, congrArg (· ++ [_]) hends.posted, hends.faultMark⟩
  | faulted f t => exact h.elim

end Reports

/-- Settles O28. -/
theorem checkReportsTheFirstMismatch : Obligations.CheckReportsTheFirstMismatch := by
  unfold Obligations.CheckReportsTheFirstMismatch
  intro s ans hin hbuses hc hans hlen
  have hn : s.cfg.nGnd ≤ 16 := by
    simp only [Config.wellFormed, Bool.and_eq_true, decide_eq_true_eq] at hc
    omega
  have hready : Ready s.cfg ans s := ⟨rfl, hin, hbuses, hans⟩
  exact ⟨_, exec_check s, (selfCheck_reports hn hlen hready).close (check_goes s).sameEnds⟩

/-! ## A harness that keeps its duties (R286, R296, R301) -/

/-- The duties done leave the buses readable: IDLE has run since the last bus cycle. -/
def Duty.busesReleased (d : Duty) : Prop := d = .idled ∨ d = .checked

/-- CHECK breaks a duty unless IDLE has run since the last bus cycle. -/
theorem Duty.busesReleased_of_check {d d' : Duty} (h : d.after .check = some d') : d.busesReleased := by
  cases d with
  | idled => exact .inl rfl
  | checked => exact .inr rfl
  | fresh => cases h
  | used => cases h

/-- A bus cycle leaves the buses unreleased. -/
theorem Duty.after_transacting {d d' : Duty} {i : Instr} (hp : phaseOf i = .transacting) (h : d.after i = some d') :
    ¬ d'.busesReleased := by
  have hused : d' = .used := by
    rcases transacting_cases hp with ⟨a, rfl | rfl⟩ | ⟨a, v, rfl | ⟨v, rfl, -⟩⟩ <;> cases d <;> cases h <;> rfl
  rw [hused]
  exact nofun

/-- Only IDLE releases the buses. -/
theorem Duty.busesReleased_of_after {d d' : Duty} {i : Instr} (hi : i ≠ .idle) (h : d.after i = some d')
    (hd : d'.busesReleased) : d.busesReleased := by
  cases d with
  | idled => exact .inl rfl
  | checked => exact .inr rfl
  | fresh =>
    cases i with
    | idle => exact absurd rfl hi
    | _ => cases h
  | used =>
    cases i with
    | idle => exact absurd rfl hi
    | check => cases h
    | _ =>
      cases h
      exact hd

/-- In the reference profile no command is refused (R262). -/
theorem exec_command_refusalMark {i : Instr} {s t : State} (hi : i.isCommand = true)
    (hp : s.cfg.intProfile = .reference) (h : exec i s = .next t) : t.refusalMark = s.refusalMark := by
  by_cases hcycle : phaseOf i = .transacting
  · obtain ⟨a, d, r, f, -, he⟩ := exec_transacting hcycle s
    obtain rfl := Host.Outcome.next.inj (he.symm.trans h)
    exact (Flow.close_refusalMark _ _).trans (busCycle_goes a d r s).sameEnds.refusalMark
  cases i with
  | idle =>
    obtain ⟨-, -, -, -, -, -, hrefusal, -⟩ := idleFrame s t h
    exact hrefusal
  | check =>
    obtain ⟨-, -, -, -, -, -, hrefusal, -⟩ := checkFrame s t h
    exact hrefusal
  | waitint n k =>
    rw [exec_waitint, inReferenceProfile_of_reference _ hp] at h
    obtain rfl := Host.Outcome.next.inj h
    rfl
  | ackint =>
    rw [exec_ackint, inReferenceProfile_of_reference _ hp] at h
    obtain rfl := Host.Outcome.next.inj h
    rfl
  | mread a => exact absurd rfl hcycle
  | mwrite a d => exact absurd rfl hcycle
  | bcr a => exact absurd rfl hcycle
  | bcw a d => exact absurd rfl hcycle
  | _ => cases hi

/-- The states a harness in the reference profile meets between its commands, its duties done up to `d`. -/
structure Dutied (d : Duty) (s : State) : Prop where
  unmarked : s.unmarked
  between : s.between
  profile : s.cfg.intProfile = .reference
  inputs : s.inputsReadable
  buses : d.busesReleased → s.busesReadable

section Dutied
variable {d d' : Duty} {s t : State} {i : Instr}

/-- A command that keeps the duties leaves no mark: CHECK finds the buses released. -/
theorem Dutied.exec_unmarked (h : Dutied d s) (hi : i.isCommand = true) (hd : d.after i = some d')
    (he : exec i s = .next t) : t.unmarked := by
  refine ⟨?_, (exec_command_refusalMark hi h.profile he).trans h.unmarked.2⟩
  rcases exec_command_faultMark hi h.between.2 h.inputs h.unmarked.1 he with hnone | ⟨b, k, rfl, hout, -⟩
  · exact hnone
  · exact absurd hout (h.buses (Duty.busesReleased_of_check hd) b k)

/-- A command leaves the buses readable where its duties say so. -/
theorem Dutied.exec_released (h : Dutied d s) (hi : i.isCommand = true) (hd : d.after i = some d')
    (he : exec i s = .next t) (hreleased : d'.busesReleased) : t.busesReadable := by
  by_cases hidle : i = .idle
  · subst hidle
    obtain ⟨t', he', hpins, -⟩ := idleReachesTheSafePinState s
    obtain rfl := Host.Outcome.next.inj (he'.symm.trans he)
    exact hpins.checkable.buses
  · have hcycle : phaseOf i ≠ .transacting := fun hp => Duty.after_transacting hp hd hreleased
    exact exec_busesReadable hi hcycle (h.buses (Duty.busesReleased_of_after hidle hd hreleased)) he

/-- A command that keeps the duties posts one pair and leaves the duties done so far. -/
theorem Dutied.after_exec (h : Dutied d s) (hi : i.isCommand = true) (hd : d.after i = some d') :
    ∃ t, exec i s = .next t ∧ Dutied d' t ∧ t.posted.length = s.posted.length + 1 := by
  obtain ⟨t, he, hend⟩ := commandPostsOnceOrMarks i s hi h.unmarked
  have hunmarked := h.exec_unmarked hi hd he
  refine ⟨t, he, ⟨hunmarked, ⟨(exec_micro he).trans h.between.1, exec_command_crit hi h.between.2 he⟩,
    (congrArg Config.intProfile (exec_cfg he)).trans h.profile, exec_inputsReadable hi h.inputs he,
    h.exec_released hi hd he⟩, ?_⟩
  rcases hend with ⟨-, hposted⟩ | ⟨hmarked, -⟩
  · rw [hposted, List.length_append, List.length_singleton]
  · exact absurd hunmarked hmarked

end Dutied

/-- The word of a well-formed command decodes to it. -/
theorem decodeCommand_commandOf {n : Nat} {i : Instr} (hi : i.isCommand = true) (hw : i.wellFormed n = true) :
    decodeCommand (commandOf i) = .ok i := by
  have hword : encode i = .command (commandOf i) := by
    cases i with
    | idle => rfl
    | check => rfl
    | mread a => rfl
    | mwrite a d => rfl
    | bcr a => rfl
    | bcw a d => rfl
    | waitint n k => rfl
    | ackint => rfl
    | _ => cases hi
  have h := decode_encode_command hi hw
  rwa [hword] at h

theorem exec_inbox {i : Instr} {s t : State} (h : exec i s = .next t) : t.inbox = s.inbox := by
  obtain ⟨u, hgoes, hclosed⟩ := exec_next h
  exact hclosed.samePins.inbox.trans hgoes.sameEnds.inbox

/-- The first command of a list that keeps the duties from `d` on. -/
theorem dutiful_cons {d : Duty} {i : Instr} {is : List Instr} (h : dutiful d (i :: is) = true) :
    ∃ d', d.after i = some d' ∧ i.isCommand = true ∧ dutiful d' is = true := by
  unfold dutiful at h
  split at h
  · next d' hd => exact ⟨d', hd, (Bool.and_eq_true_iff.mp h).1, (Bool.and_eq_true_iff.mp h).2⟩
  · cases h

/-- A dutiful list of commands runs to its end, one pair posted for each. -/
theorem Dutied.run {n : Nat} {is : List Instr} {d : Duty} {s : State} (h : Dutied d s)
    (hinbox : s.inbox = is.map commandOf) (hw : ∀ i ∈ is, i.wellFormed n = true) (hd : dutiful d is = true) :
    ∃ t, Host.Core.run core is.length s = .next t ∧ t.isFinal ∧ t.posted.length = s.posted.length + is.length := by
  induction is generalizing d s with
  | nil => exact ⟨s, rfl, ⟨h.unmarked, h.between.1, hinbox⟩, rfl⟩
  | cons i is ih =>
    obtain ⟨d', hafter, hi, hrest⟩ := dutiful_cons hd
    have htaken : Dutied d ((s.withInbox (is.map commandOf)).withCmd (commandOf i)) :=
      ⟨h.unmarked, h.between, h.profile, h.inputs, h.buses⟩
    obtain ⟨t, he, ht, hposted⟩ := htaken.after_exec hi hafter
    have hstep : step s = .next t :=
      (step_command h.unmarked h.between.1 hinbox (decodeCommand_commandOf hi (hw i List.mem_cons_self))).trans he
    obtain ⟨u, hrun, hfinal, hcount⟩ := ih ht (exec_inbox he) (fun j hj => hw j (List.mem_cons_of_mem i hj)) hrest
    refine ⟨u, (run_succ_of_step (M := core) hstep is.length).trans hrun, hfinal, ?_⟩
    rw [hcount, hposted, List.length_cons, Nat.add_assoc, Nat.add_comm 1]
    rfl

/-- Settles O58: reset meets the invariant with no duty done, whatever the target. -/
theorem dutifulHarnessNeverMeetsAFault : Obligations.DutifulHarnessNeverMeetsAFault := by
  unfold Obligations.DutifulHarnessNeverMeetsAFault
  intro c tgt is hc hp hw hd
  obtain ⟨hbetween, hinputs, hunmarked, -⟩ := resetMeetsTheInvariants c hc
  have hreset : Dutied .fresh { State.resetWith c with target := tgt, inbox := is.map commandOf } :=
    ⟨hunmarked, hbetween, hp, hinputs, nofun⟩
  obtain ⟨t, hrun, hfinal, hcount⟩ := hreset.run rfl hw hd
  exact ⟨t, hrun, hfinal, hcount.trans (Nat.zero_add _)⟩

end Sys2Proof.Machine
end

section
/-! The family of spec/70_reset_and_hazards.md: a bus cycle before IDLE, how many events each command emits, and CHECK after
a write that left a bus OUT (R305, R306, R315). -/

namespace Sys2Proof.Machine

/-! ## A bus cycle before IDLE (R305) -/

/-- While RAS is not driven, no micro-operation changes the echo target's memory (R85). -/
theorem MicroStep.mem_of_ras {j : Instr} {s t : State} (h : MicroStep j s t) (hras : s.dir[Pin.ras] ≠ .output) :
    t.target.mem = s.target.mem := by
  by_cases hj : j = .wrlvl Pin.cout .high
  · subst hj
    cases h
    rw [wrLvl_target, State.react]
    split
    · exact echoClock_mem_of_not_data fun hdata => hras (drives_iff.mp hdata.1).1
    · rfl
  · exact h.mem hj

/-- A bus cycle begun while RAS is not driven keeps the echo target's memory. -/
theorem Goes.cycle_mem_of_ras {s t : State} (h : Goes CycleOp s t) (hras : s.dir[Pin.ras] ≠ .output) :
    t.target.mem = s.target.mem := by
  have hkept : t.dir[Pin.ras] ≠ .output ∧ t.target.mem = s.target.mem := by
    refine h.keeps (fun u => u.dir[Pin.ras] ≠ .output ∧ u.target.mem = s.target.mem) ?_ ⟨hras, rfl⟩
    rintro j u v hj hstep ⟨hdir, hmem⟩
    have hsame : v.dir[Pin.ras] = u.dir[Pin.ras] :=
      hstep.dir_eq Pin.ras (fun d he => (he ▸ hj : CycleOp (.setdir Pin.ras d))) (.inl (by decide))
    exact ⟨hsame ▸ hdir, (hstep.mem_of_ras hdir).trans hmem⟩
  exact hkept.2

/-- Every bus-cycle command begun with CRIT = 0 succeeds, and marks nothing (R229). -/
theorem exec_transacting_succeeds {i : Instr} {s : State} (hp : phaseOf i = .transacting) (hs : s.crit = false) :
    ∃ t, exec i s = .next t ∧ t.status = 0 ∧ t.faultMark = s.faultMark := by
  rcases transacting_cases hp with ⟨a, hi⟩ | ⟨a, d, hi⟩
  · obtain ⟨r, he⟩ := exec_read hi hs
    exact ⟨_, he, rfl, (readDone_sameEnds a hs).faultMark⟩
  · exact ⟨_, exec_write hi hs, rfl, (writeDone_sameEnds a d hs).faultMark⟩

/-- Settles O42: no micro-operation of a cycle writes a control output's direction, and E reacts to no clock without RAS. -/
theorem busCycleBeforeIdleReachesNoStrobe : Obligations.BusCycleBeforeIdleReachesNoStrobe := by
  unfold Obligations.BusCycleBeforeIdleReachesNoStrobe
  intro i s hp hs hin
  obtain ⟨t, he, hstatus, hfault⟩ := exec_transacting_succeeds hp hs
  obtain ⟨u, hgoes, hpins⟩ := exec_transacting_next hp he
  have hras : s.dir[Pin.ras] ≠ .output := by
    rw [hin Pin.ras (by decide)]
    exact nofun
  refine ⟨t, he, hstatus, hfault, fun p hmem => ?_, echoByte_congr ?_⟩
  · have h16 : 16 ≤ p.val := (by decide : ∀ q ∈ cyclePins, 16 ≤ q.val) p hmem
    rw [seen_eq, exec_transacting_dir hp he h16, hin p hmem]
    rfl
  · rw [hpins.target]
    exact hgoes.cycle_mem_of_ras hras

/-! ## How many events each command emits (R315) -/

theorem emitted_length {s t : State} {n : Nat} (h : t.trace.length = s.trace.length + n) : (emitted s t).length = n := by
  rw [emitted, List.length_drop, h, Nat.add_sub_cancel_left]

theorem emitted_succeed (s t : State) (r : BitVec 16) : emitted s (t.succeed r) = emitted s t := rfl

/-! ### CHECK -/

/-- The configuration `c`, and `n` events in the trace. -/
structure Counted (c : Config) (n : Nat) (s : State) : Prop where
  cfg : s.cfg = c
  count : s.trace.length = n

/-- A part of CHECK that, where it passes, ends with `n` events in the trace, and never fails with Success. -/
abbrev Flow.Counts {α : Type} (x : Flow α) (c : Config) (n : Nat) : Prop :=
  x.Meets (fun _ => Counted c n) (fun o _ => o ≠ .success) fun _ _ => True

section Counts
variable {c : Config} {n : Nat} {s : State}

theorem Counted.wrLvl (h : Counted c n s) (p : Pin) (l : Level) : Counted c (n + 1) (wrLvl p l s) :=
  ⟨by simp [h.cfg], by simp [h.count]⟩

theorem Counted.samplePin (h : Counted c n s) (p : Pin) : Counted c (n + 1) (samplePin p s) :=
  ⟨by simp [h.cfg], by simp [h.count]⟩

theorem Counted.sampleBus (h : Counted c n s) (b : Bus) : Counted c (n + 1) (sampleBus b s) :=
  ⟨by simp [h.cfg], by simp [h.count]⟩

theorem expectLevel_counts (h : Counted c n s) (p : Pin) (l : Level) : (expectLevel p l s).Counts c (n + 1) := by
  refine (expectLevel_meets p l s).mono ?_ ?_ fun _ _ _ => trivial
  · rintro _ _ ⟨-, -, rfl⟩
    exact h.samplePin p
  · rintro _ _ ⟨-, -, rfl, -⟩
    exact nofun

theorem expectBus_counts (h : Counted c n s) (b : Bus) (v : Byte) : (expectBus b v s).Counts c (n + 1) := by
  refine (expectBus_meets b v s).mono ?_ ?_ fun _ _ _ => trivial
  · rintro _ _ ⟨-, -, rfl⟩
    exact h.sampleBus b
  · rintro _ _ ⟨-, -, rfl, -⟩
    exact nofun

/-- One event for each of a list. -/
theorem eachOf_counts {α : Type} {f : α → State → Flow Unit}
    (hf : ∀ x m u, Counted c m u → (f x u).Counts c (m + 1)) (xs : List α) (h : Counted c n s) :
    (eachOf f xs s).Counts c (n + xs.length) := by
  induction xs generalizing n s with
  | nil => exact h
  | cons x xs ih =>
    rw [List.length_cons, Nat.add_comm xs.length, ← Nat.add_assoc]
    exact (hf x n s h).andThen fun _ _ hu => ih hu

theorem checkPower_counts (hn : c.nGnd ≤ 16) (h : Counted c n s) : (checkPower s).Counts c (n + c.nGnd + 2) := by
  have hlen : (groundPins c.nGnd).length = c.nGnd := by simpa [groundPins] using hn
  have hgrounds := eachOf_counts (fun g _ _ hu => expectLevel_counts hu g .low) (groundPins c.nGnd) h
  rw [hlen, ← h.cfg] at hgrounds
  rw [← h.cfg]
  exact hgrounds.andThen fun _ _ h1 => (expectLevel_counts h1 _ _).andThen fun _ _ h2 => expectLevel_counts h2 _ _

theorem sampleClock_counts (k : Nat) (lo hi : Bool) (h : Counted c n s) :
    (sampleClock k lo hi s).Counts c (n + k) := by
  induction k generalizing n lo hi s with
  | zero => exact h
  | succ k ih =>
    rw [show n + (k + 1) = n + 1 + k by omega, sampleClock]
    by_cases hd : s.dir[Pin.xtl1] = .output
    · rw [rdLvl_fault hd]
      trivial
    · rw [rdLvl_done hd, Flow.done_andThen]
      split
      · exact ih true hi (h.samplePin _)
      · exact ih lo true (h.samplePin _)

theorem checkClock_counts (h : Counted c n s) : (checkClock s).Counts c (n + c.clockSamples) := by
  unfold checkClock
  rw [h.cfg]
  refine (sampleClock_counts c.clockSamples false false h).andThen fun saw u hu => ?_
  split_ifs
  · exact nofun
  · exact nofun
  · exact hu

/-- Both buses, in either order. -/
theorem expectBuses_counts (want : Bus → Byte) (o : BusCheckOrder) (h : Counted c n s) :
    (eachOf (fun b => expectBus b (want b)) (busOrder o) s).Counts c (n + 2) := by
  have hlen : (busOrder o).length = 2 := by cases o <;> rfl
  rw [← hlen]
  exact eachOf_counts (fun b _ _ hu => expectBus_counts hu b (want b)) _ h

theorem checkMode_counts (h : Counted c n s) : (checkMode s).Counts c (n + 6) :=
  (expectBuses_counts (fun b => byteOf b s.cfg.modeWord) _ (h.wrLvl Pin.bclr .low)).andThen fun _ _ hu =>
    expectBuses_counts (fun _ => 0xFF) _ (hu.wrLvl Pin.bclr .high)

theorem checkLatch_counts (h : Counted c n s) : (checkLatch s).Counts c (n + 8) :=
  (eachOf_counts (fun p _ _ hu => expectLevel_counts hu p .high) [Pin.aux0, Pin.aux1, Pin.aux2, Pin.aux3]
    ((h.wrLvl Pin.dls .high).wrLvl _ .high)).andThen fun _ _ hu => (hu.wrLvl _ .low).wrLvl Pin.dls .low

/-- The six steps, where they all pass. -/
theorem selfCheck_counts (hn : c.nGnd ≤ 16) (h : Counted c n s) :
    (selfCheck s).Counts c (n + (19 + c.nGnd + c.clockSamples)) := by
  unfold selfCheck
  refine (checkPower_counts hn h).andThen fun _ _ h1 => ?_
  refine (expectLevel_counts h1 _ _).andThen fun _ _ h2 => ?_
  refine (checkClock_counts h2).andThen fun _ _ h3 => ?_
  refine (expectBuses_counts (fun _ => 0xFF) _ h3).andThen fun _ _ h4 => ?_
  refine (checkMode_counts h4).andThen fun _ _ h5 => ?_
  have h6 := checkLatch_counts h5
  rwa [show _ + 8 = n + (19 + c.nGnd + c.clockSamples) by omega] at h6

end Counts

/-- A CHECK that posts Success passed all six steps, so it emitted all their events. -/
theorem exec_check_emitted_length {s t : State} (hn : s.cfg.nGnd ≤ 16) (h : exec .check s = .next t)
    (hp : t.posted = s.posted ++ [(0, 0)]) : (emitted s t).length = 19 + s.cfg.nGnd + s.cfg.clockSamples := by
  obtain rfl := Host.Outcome.next.inj ((exec_check s).symm.trans h)
  have hends := (check_goes s).sameEnds
  have hcounts := selfCheck_counts hn ⟨rfl, rfl⟩
  cases hx : selfCheck s with
  | done _ u =>
    rw [hx] at hcounts
    exact emitted_length hcounts.count
  | failed o u =>
    rw [hx] at hp hends hcounts
    rw [Flow.close_failed, State.fail_posted, show u.posted = _ from hends.posted] at hp
    have hword : encodeOutcome o = 0 := by simpa using hp
    have hsuccess : encodeOutcome .success = 0 := by decide
    exact absurd (encodeOutcome_injective (hword.trans hsuccess.symm)) hcounts
  | faulted f u =>
    rw [hx] at hp hends
    rw [Flow.close_faulted, State.raise_posted, show u.posted = _ from hends.posted] at hp
    simp at hp

/-! ### Bus cycles -/

@[simp] theorem onLane_length (e : Bool) (es : List EventWord) : (onLane e es).length = e.toNat * es.length := by
  cases e <;> simp

/-- Where the two words of the region are the only ones, its span is what lies between them and the two words. -/
theorem region_span {es before inside after : List EventWord}
    (h : es.filter isRegionEvent = [0x700000, 0x800000])
    (hes : es = before ++ 0x700000 :: (inside ++ 0x800000 :: after)) :
    es.idxOf 0x800000 - es.idxOf 0x700000 + 1 = inside.length + 2 := by
  subst hes
  have hwords : isRegionEvent 0x700000 = true ∧ isRegionEvent 0x800000 = true := by decide
  have hlen := congrArg List.length h
  simp only [List.filter_append, List.filter_cons, hwords, if_true, List.length_append, List.length_cons,
    List.length_nil] at hlen
  have apart : ∀ {es : List EventWord}, (es.filter isRegionEvent).length = 0 → 0x700000 ∉ es ∧ 0x800000 ∉ es :=
      fun hes => by
    have hnone := List.filter_eq_nil_iff.mp (List.length_eq_zero_iff.mp hes)
    exact ⟨fun hw => hnone _ hw hwords.1, fun hw => hnone _ hw hwords.2⟩
  obtain ⟨hbefore7, hbefore8⟩ := apart (es := before) (by omega)
  obtain ⟨-, hinside8⟩ := apart (es := inside) (by omega)
  rw [List.idxOf_append_of_notMem hbefore8, List.idxOf_append_of_notMem hbefore7, List.idxOf_cons_self,
    List.idxOf_cons_ne _ (by decide), List.idxOf_append_of_notMem hinside8, List.idxOf_cons_self]
  omega

theorem readTrace_length (a : BitVec 32) (vLow vHigh : Byte) :
    (readTrace a vLow vHigh).length = 18 + (a.getLsbD 16).toNat + (a.getLsbD 17).toNat := by
  simp +arith [readTrace]

theorem writeTrace_length (a : BitVec 32) (vLow vHigh : Byte) :
    (writeTrace a vLow vHigh).length = 16 + 4 * ((a.getLsbD 16).toNat + (a.getLsbD 17).toNat) := by
  simp +arith [writeTrace]

/-- The events of a read cycle inside its region, its lanes' samples among them (R213). -/
def readInside (a : BitVec 32) (vLow vHigh : Byte) : List EventWord :=
  [0x201000, 0x211600, 0x201600, 0x404000, 0x404100, 0x201100, 0x211400, 0x211600, 0x201600]
  ++ onLane (a.getLsbD 16) [(0x6040 : BitVec 16) ++ vLow] ++ onLane (a.getLsbD 17) [(0x6041 : BitVec 16) ++ vHigh]
  ++ [0x211100, 0x201400, 0x211000]

/-- The events of a write cycle inside its region, its lanes' data among them (R213). -/
def writeInside (a : BitVec 32) (vLow vHigh : Byte) : List EventWord :=
  [0x201000, 0x211600, 0x201600]
  ++ onLane (a.getLsbD 16) [(0x5040 : BitVec 16) ++ vLow] ++ onLane (a.getLsbD 17) [(0x5041 : BitVec 16) ++ vHigh]
  ++ [0x201100, 0x211400, 0x211600, 0x201600, 0x211100, 0x201400, 0x211000]

theorem readTrace_span (a : BitVec 32) (vLow vHigh : Byte) :
    (readTrace a vLow vHigh).idxOf 0x800000 - (readTrace a vLow vHigh).idxOf 0x700000 + 1 =
      14 + (a.getLsbD 16).toNat + (a.getLsbD 17).toNat := by
  have hsplit : readTrace a vLow vHigh = [0x414000, 0x414100, (0x5040 : BitVec 16) ++ a.extractLsb' 0 8,
      (0x5041 : BitVec 16) ++ a.extractLsb' 8 8] ++ 0x700000 :: (readInside a vLow vHigh ++ 0x800000 :: []) := by
    simp [readTrace, readInside]
  rw [region_span (readTrace_region a vLow vHigh) hsplit]
  simp +arith [readInside]

theorem writeTrace_span (a : BitVec 32) (vLow vHigh : Byte) :
    (writeTrace a vLow vHigh).idxOf 0x800000 - (writeTrace a vLow vHigh).idxOf 0x700000 + 1 =
      12 + (a.getLsbD 16).toNat + (a.getLsbD 17).toNat := by
  have hsplit : writeTrace a vLow vHigh = ([0x414000, 0x414100, (0x5040 : BitVec 16) ++ a.extractLsb' 0 8,
      (0x5041 : BitVec 16) ++ a.extractLsb' 8 8] ++ onLane (a.getLsbD 16) [0x201200] ++
      onLane (a.getLsbD 17) [0x201300]) ++ 0x700000 :: (writeInside a vLow vHigh ++ 0x800000 ::
      (onLane (a.getLsbD 16) [0x424000] ++ onLane (a.getLsbD 17) [0x424100] ++ onLane (a.getLsbD 16) [0x211200] ++
        onLane (a.getLsbD 17) [0x211300])) := by
    simp [writeTrace, writeInside]
  rw [region_span (writeTrace_region a vLow vHigh) hsplit]
  simp +arith [writeInside]

/-- A write command's data, the byte of MWRITE zero-extended. -/
theorem write_data {a : BitVec 32} {i : Instr} (hi : (∃ d, i = .bcw a d) ∨ ∃ v, i = .mwrite a v) :
    ∃ d, i = .bcw a d ∨ ∃ v : Byte, i = .mwrite a v ∧ d = v.setWidth 16 := by
  rcases hi with ⟨d, rfl⟩ | ⟨v, rfl⟩
  · exact ⟨d, .inl rfl⟩
  · exact ⟨_, .inr ⟨v, rfl, rfl⟩⟩

/-! ### The placeholders, and every command -/

theorem inReferenceProfile_trace {s t : State} (h : t.trace = s.trace) : (inReferenceProfile s t).trace = s.trace := by
  unfold inReferenceProfile
  split
  · exact h
  · rfl

/-- Settles O40: the counts are those of the traces of R170, R180 and R213, and a placeholder emits nothing. -/
theorem eventCountsAreFixed : Obligations.EventCountsAreFixed := by
  unfold Obligations.EventCountsAreFixed
  refine ⟨fun s t hn h => ?_, fun s t => exec_check_emitted_length, fun a i s t hi hs h => ?_, fun a i s t hi hs h => ?_,
    fun i s t hi h => ?_⟩
  · obtain rfl := Host.Outcome.next.inj ((exec_idle s).symm.trans h)
    rw [emitted_succeed, emitted_eq (idled_trace s hn), idleTrace_length]
  · obtain ⟨r, he⟩ := exec_read hi hs
    obtain rfl := Host.Outcome.next.inj (he.symm.trans h)
    rw [emitted_succeed, emitted_eq (readDone_trace a s)]
    exact ⟨readTrace_length _ _ _, readTrace_span _ _ _⟩
  · obtain ⟨d, hd⟩ := write_data hi
    obtain rfl := Host.Outcome.next.inj ((exec_write hd hs).symm.trans h)
    rw [emitted_succeed, emitted_eq (writeDone_trace a d s)]
    exact ⟨writeTrace_length _ _ _, writeTrace_span _ _ _⟩
  · refine emitted_eq (Eq.trans ?_ (List.append_nil _).symm)
    rcases hi with rfl | ⟨n, u, rfl⟩
    · obtain rfl := Host.Outcome.next.inj ((exec_ackint s).symm.trans h)
      exact inReferenceProfile_trace rfl
    · obtain rfl := Host.Outcome.next.inj ((exec_waitint n u s).symm.trans h)
      exact inReferenceProfile_trace rfl

/-! ## CHECK after a write that left a bus OUT (R306) -/

/-! ### Steps 1 to 3 read no bus -/

/-- The sample of a pin that is no bus member does not depend on any direction (R72, R85, R86). -/
theorem sample_withDir (s : State) (D : Vector Dir 48) {p : Pin} (hp : 0x10 ≤ p.val) :
    (s.withDir D).sample p = s.sample p := by
  have hbus : ¬ p.val < 0x10 := by omega
  have hhealthy : sampleHealthy (s.withDir D) p = sampleHealthy s p := by
    simp only [sampleHealthy, healthyLevel, if_neg hbus]
    rfl
  unfold State.sample
  rw [if_neg fun h => hbus h.1, if_neg fun h => hbus h.1, hhealthy]
  rfl

/-- Where the sequence `x` runs to its end, `y` does too, with the directions `D`. -/
def Flow.Redirects {α : Type} (D : Vector Dir 48) (x y : Flow α) : Prop := ∀ a t, x = .done a t → y = .done a (t.withDir D)

section Redirects
variable {α β : Type} {D : Vector Dir 48}

theorem Flow.redirects_done (a : α) (s : State) : Flow.Redirects D (.done a s) (.done a (s.withDir D)) := by
  rintro _ _ ⟨⟩
  rfl

theorem Flow.redirects_failed (o : CmdOutcome) (s : State) (y : Flow α) : Flow.Redirects D (.failed o s) y := by
  intro _ _ h
  cases h

theorem Flow.Redirects.andThen {x y : Flow α} {k : α → State → Flow β} (hx : x.Redirects D y)
    (hk : ∀ a t, (k a t).Redirects D (k a (t.withDir D))) : (x.andThen k).Redirects D (y.andThen k) := by
  intro b u h
  obtain ⟨a, t, hat, hbu⟩ := Flow.andThen_eq_done h
  rw [hx a t hat, Flow.done_andThen]
  exact hk a t b u hbu

theorem eachOf_redirects {f : α → State → Flow Unit} {xs : List α}
    (hf : ∀ x ∈ xs, ∀ t, (f x t).Redirects D (f x (t.withDir D))) (s : State) :
    (eachOf f xs s).Redirects D (eachOf f xs (s.withDir D)) := by
  induction xs generalizing s with
  | nil => exact Flow.redirects_done () s
  | cons x xs ih =>
    exact (hf x List.mem_cons_self s).andThen fun _ t => ih (fun y hy => hf y (List.mem_cons_of_mem x hy)) t

/-- The directions `D` leave every pin readable that CHECK reads with `n` ground pins. -/
def Readable (n : Nat) (D : Vector Dir 48) : Prop := ∀ p ∈ inputOnlyPins n, D[p] ≠ .output

variable {n : Nat}

theorem rdLvl_redirects (hD : Readable n D) {p : Pin} (hp : p ∈ inputOnlyPins n) (s : State) :
    (rdLvl p s).Redirects D (rdLvl p (s.withDir D)) := by
  have h16 : 0x10 ≤ p.val := le_trans (by decide) ((mem_inputOnlyPins n p).mp hp).1
  have hsample := sample_withDir s D h16
  have hpin : samplePin p (s.withDir D) = (samplePin p s).withDir D := by
    rw [samplePin, hsample]
    rfl
  by_cases h : s.dir[p] = .output
  · rw [rdLvl_fault h]
    intro _ _ hdone
    cases hdone
  · rw [rdLvl_done h, rdLvl_done (s := s.withDir D) (hD p hp), hsample, hpin]
    exact Flow.redirects_done _ _

theorem expectLevel_redirects (hD : Readable n D) {p : Pin} (hp : p ∈ inputOnlyPins n) (l : Level) (s : State) :
    (expectLevel p l s).Redirects D (expectLevel p l (s.withDir D)) :=
  (rdLvl_redirects hD hp s).andThen fun got t => by
    split
    · exact Flow.redirects_done () t
    · exact Flow.redirects_failed _ _ _

theorem sampleClock_redirects (hD : Readable n D) (k : Nat) (lo hi : Bool) (s : State) :
    (sampleClock k lo hi s).Redirects D (sampleClock k lo hi (s.withDir D)) := by
  induction k generalizing lo hi s with
  | zero => exact Flow.redirects_done _ s
  | succ k ih =>
    exact (rdLvl_redirects hD (xtl1_mem_inputOnlyPins n) s).andThen fun l t => by
      cases l with
      | low => exact ih true hi t
      | high => exact ih lo true t

/-- Steps 1 to 3 of CHECK: all that it compares before it reads a bus (R181 to R184). -/
def checkBeforeBuses (s : State) : Flow Unit :=
  (checkPower s).andThen fun _ s => (checkReady s).andThen fun _ s => checkClock s

theorem checkBeforeBuses_redirects {s : State} (hD : Readable s.cfg.nGnd D) :
    (checkBeforeBuses s).Redirects D (checkBeforeBuses (s.withDir D)) := by
  have hfixed : ∀ p ∈ [Pin.vcc, Pin.pup, Pin.ready], p ∈ inputOnlyPins s.cfg.nGnd := fun p hp =>
    early_sub _ p (by simp [earlyPins] at hp ⊢; tauto)
  have hpin : ∀ p ∈ [Pin.vcc, Pin.pup, Pin.ready], ∀ l t, (expectLevel p l t).Redirects D (expectLevel p l (t.withDir D)) :=
    fun p hp l t => expectLevel_redirects hD (hfixed p hp) l t
  have hground := eachOf_redirects (D := D) (f := fun g => expectLevel g .low) (xs := groundPins s.cfg.nGnd)
    (fun g hg t => expectLevel_redirects hD (List.mem_append_left _ hg) .low t) s
  refine Flow.Redirects.andThen (hground.andThen fun _ t => ?_) fun _ t => (hpin _ (by simp) _ t).andThen fun _ u => ?_
  · exact (hpin _ (by simp) _ t).andThen fun _ u => hpin _ (by simp) _ u
  · refine (sampleClock_redirects hD u.cfg.clockSamples false false u).andThen fun saw v => ?_
    split_ifs
    · exact Flow.redirects_failed _ _ _
    · exact Flow.redirects_failed _ _ _
    · exact Flow.redirects_done () v

end Redirects

theorem selfCheck_eq (s : State) :
    selfCheck s = (checkBeforeBuses s).andThen fun _ s =>
      (checkAllOnes s).andThen fun _ s => (checkMode s).andThen fun _ s => checkLatch s := by
  simp only [selfCheck, checkBeforeBuses, Flow.andThen_assoc]

/-! ### Steps 1 to 3 on H, whatever the buses -/

/-- Steps 1 to 3 pass on H. -/
theorem checkBeforeBuses_passes {s : State} (hs : Checkable s) (hH : s.onHealthy) (hn : s.cfg.nGnd ≤ 16)
    (hk : 2 ≤ s.cfg.clockSamples) :
    (checkBeforeBuses s).Passes fun _ t => ∃ n, OnCourse s (Left.untouched s) n t := by
  have hready : Pin.ready ∈ inputOnlyPins s.cfg.nGnd := early_sub _ _ (by simp [earlyPins])
  refine (checkPower_passes hs hn (OnCourse.refl hH)).andThen fun _ t1 h1 => ?_
  refine (expectLevel_passes hs h1 hready rfl).andThen fun _ t2 h2 => ?_
  exact (checkClock_passes hs hk h2).mono (fun _ _ h3 => ⟨_, h3⟩) (fun _ _ => id) fun _ _ => id

/-- The directions of `s` with both buses IN. -/
def State.busesIn (s : State) : Vector Dir 48 := setMembers (setMembers s.dir .low fun _ => .input) .high fun _ => .input

theorem busesIn_control (s : State) {q : Pin} (hq : 16 ≤ q.val) : s.busesIn[q] = s.dir[q] := by
  rw [State.busesIn, getElem_setMembers_control _ _ _ _ hq, getElem_setMembers_control _ _ _ _ hq]

theorem busesIn_member (s : State) (b : Bus) (i : Fin 8) : s.busesIn[b.member i] = .input := by
  cases b <;> simp [State.busesIn]

/-- What CHECK needs of the pins before it reads a bus: readable inputs, and BCLR driven HIGH. -/
structure EarlyCheckable (s : State) : Prop where
  inputs : s.inputsReadable
  bclr : s.dir[Pin.bclr] = .output ∧ s.lat[Pin.bclr] = .high

theorem EarlyCheckable.busesIn {s : State} (h : EarlyCheckable s) : Checkable (s.withDir s.busesIn) where
  inputs p hp hex := by
    have hge : 0x18 ≤ p.val := by simpa [isInputPin] using hp
    rw [State.withDir_dir, busesIn_control s (by omega)]
    exact h.inputs p hp hex
  buses b i := by
    rw [State.withDir_dir, busesIn_member]
    exact nofun
  bclr := by
    rw [State.withDir_dir, State.withDir_lat, busesIn_control s (by decide)]
    exact h.bclr

theorem withDir_onHealthy (s : State) (D : Vector Dir 48) : (s.withDir D).onHealthy ↔ s.onHealthy := by
  rw [State.onHealthy, State.withDir_target, State.withDir_cfg, State.onHealthy]

theorem withDir_withDir_dir (s : State) (D : Vector Dir 48) : (s.withDir D).withDir s.dir = s := rfl

/-- Steps 1 to 3 pass on H whatever the directions of the buses, and leave the pins as they were. -/
theorem checkBeforeBuses_done {s : State} (hs : EarlyCheckable s) (hH : s.onHealthy) (hn : s.cfg.nGnd ≤ 16)
    (hk : 2 ≤ s.cfg.clockSamples) :
    ∃ t, checkBeforeBuses s = .done () t ∧ t.cfg = s.cfg ∧ t.dir = s.dir ∧ t.lat = s.lat ∧ t.onHealthy := by
  have hHIn : (s.withDir s.busesIn).onHealthy := (withDir_onHealthy s _).mpr hH
  obtain ⟨⟨⟩, t, ht, n, hcourse⟩ := (checkBeforeBuses_passes hs.busesIn hHIn hn hk).exists_done
  have hD : Readable (s.withDir s.busesIn).cfg.nGnd s.dir := fun p hp => hs.inputs.dir_ne hp
  have hdone := checkBeforeBuses_redirects hD () t ht
  rw [withDir_withDir_dir] at hdone
  refine ⟨t.withDir s.dir, hdone, ?_, State.withDir_dir _ _, ?_, (withDir_onHealthy t _).mpr hcourse.healthy⟩
  · rw [State.withDir_cfg, hcourse.pins.cfg_eq, State.withDir_cfg]
  · rw [State.withDir_lat, hcourse.pins.lat_eq, Left.untouched, State.withDir_lat]

/-! ### Step 4 with a bus left OUT -/

/-- The first bus of two that `enabled` does not hold of. -/
def firstLeftOut (enabled : Bus → Bool) (first second : Bus) : Bus := if enabled first then second else first

/-- Reading a bus of H that is released passes step 4's comparison while BCLR is HIGH. -/
theorem expectBus_allOnes {s : State} (hH : s.onHealthy) (hbclr : s.lat[Pin.bclr] = .high) {b : Bus}
    (hin : ∀ i, s.dir[b.member i] ≠ .output) : expectBus b 0xFF s = .done () (sampleBus b s) := by
  have hread : s.busSample b = 0xFF := by
    rw [busSample_healthy hH, if_neg]
    rw [drives_iff, hbclr]
    exact fun h => nomatch h.2
  rw [expectBus, busRd_done hin, Flow.done_andThen, if_pos hread]

theorem expectBus_fault {s : State} {b : Bus} (v : Byte) (hout : ∃ i, s.dir[b.member i] = .output) :
    expectBus b v s = .faulted (.busReadNotInput b) s := by
  rw [expectBus, busRd_fault hout, Flow.faulted_andThen]

/-- Step 4 on H, where exactly the buses that `enabled` holds of are released, and not both are. -/
theorem checkAllOnes_faulted {s : State} (hH : s.onHealthy) (hbclr : s.lat[Pin.bclr] = .high) {enabled : Bus → Bool}
    (hdir : ∀ b i, s.dir[b.member i] = if enabled b then .inputPullup else .output) {first second : Bus}
    (horder : busOrder s.cfg.busCheckOrder = [first, second]) (hpart : (enabled first && enabled second) = false) :
    ∃ t, checkAllOnes s = .faulted (.busReadNotInput (firstLeftOut enabled first second)) t := by
  rw [checkAllOnes, horder, eachOf, firstLeftOut]
  cases hfirst : enabled first with
  | false =>
    rw [expectBus_fault _ ⟨0, by rw [hdir, hfirst]; rfl⟩]
    exact ⟨s, rfl⟩
  | true =>
    have hsecond : enabled second = false := by simpa [hfirst] using hpart
    rw [expectBus_allOnes hH hbclr fun i => by rw [hdir, hfirst]; exact nofun, Flow.done_andThen, eachOf,
      expectBus_fault _ ⟨0, by rw [sampleBus_dir, hdir, hsecond]; rfl⟩]
    exact ⟨sampleBus first s, rfl⟩

/-! ### The state a write leaves -/

theorem MicroStep.onHealthy {j : Instr} {s t : State} (h : MicroStep j s t) (hs : s.onHealthy) : t.onHealthy := by
  cases h <;> simpa [State.onHealthy] using hs

theorem exec_onHealthy {i : Instr} {s t : State} (h : exec i s = .next t) (hs : s.onHealthy) : t.onHealthy := by
  obtain ⟨u, hgoes, hclosed⟩ := exec_next h
  have hu : u.onHealthy := hgoes.keeps State.onHealthy (fun _ _ _ _ hm hv => hm.onHealthy hv) hs
  unfold State.onHealthy
  rw [hclosed.samePins.target, hclosed.samePins.cfg]
  exact hu

/-- A bus cycle leaves the input pins and BCLR as CHECK needs them. -/
theorem exec_transacting_earlyCheckable {i : Instr} {s t : State} (hi : i.isCommand = true)
    (hp : phaseOf i = .transacting) (h : exec i s = .next t) (hs : Checkable s) : EarlyCheckable t where
  inputs := exec_inputsReadable hi hs.inputs h
  bclr := by
    rw [exec_transacting_dir hp h (by decide), exec_transacting_lat hp h (by decide) (by decide)]
    exact hs.bclr

/-- CHECK on H faults in step 4 where a bus is left OUT, and keeps what was posted. -/
theorem exec_check_faults {s : State} (hs : EarlyCheckable s) (hH : s.onHealthy) (hn : s.cfg.nGnd ≤ 16)
    (hk : 2 ≤ s.cfg.clockSamples) {enabled : Bus → Bool}
    (hdir : ∀ b i, s.dir[b.member i] = if enabled b then .inputPullup else .output) {first second : Bus}
    (horder : busOrder s.cfg.busCheckOrder = [first, second]) (hpart : (enabled first && enabled second) = false) :
    ∃ u, SameEnds s u ∧ exec .check s = .next (u.raise (.busReadNotInput (firstLeftOut enabled first second))) := by
  obtain ⟨t, ht, hcfg, htdir, htlat, htH⟩ := checkBeforeBuses_done hs hH hn hk
  obtain ⟨u, hu⟩ := checkAllOnes_faulted htH (htlat ▸ hs.bclr.2) (htdir ▸ hdir) (hcfg ▸ horder) hpart
  have hx : selfCheck s = .faulted (.busReadNotInput (firstLeftOut enabled first second)) u := by
    rw [selfCheck_eq, ht, Flow.done_andThen, hu, Flow.faulted_andThen]
  refine ⟨u, ?_, by rw [exec_check, hx, Flow.close_faulted]⟩
  simpa only [hx, Flow.state_faulted] using (check_goes s).sameEnds

/-- CHECK on H, after a write from the pins IDLE leaves, faults on the first bus whose lane was disabled. -/
theorem exec_write_check_faults {a : BitVec 32} {d : BitVec 16} {i : Instr} {s : State}
    (hi : i = .bcw a d ∨ ∃ v : Byte, i = .mwrite a v ∧ d = v.setWidth 16) (hidle : s.idlePins) (hH : s.onHealthy)
    (hn : s.cfg.nGnd ≤ 16) (hk : 2 ≤ s.cfg.clockSamples) (hcrit : s.crit = false) (hfault : s.faultMark = none)
    {first second : Bus} (horder : busOrder s.cfg.busCheckOrder = [first, second])
    (hpart : (laneOf a first && laneOf a second) = false) :
    ∃ t u, exec i s = .next t ∧ exec .check t = .next u ∧
      u.faultMark = some (.busReadNotInput (firstLeftOut (laneOf a) first second)) ∧
      u.status = t.status ∧ u.result = t.result ∧ u.posted = t.posted := by
  have hcmd : i.isCommand = true ∧ phaseOf i = .transacting := by
    rcases hi with rfl | ⟨v, rfl, -⟩ <;> exact ⟨rfl, rfl⟩
  have he := exec_write hi hcrit
  have hearly := exec_transacting_earlyCheckable hcmd.1 hcmd.2 he hidle.checkable
  have hcfg := exec_cfg he
  have hdir : ∀ b k, ((writeDone a d s).succeed 0).dir[b.member k] = if laneOf a b then .inputPullup else .output :=
    writeDone_dir a d s
  have hmark : ((writeDone a d s).succeed 0).faultMark = none := (writeDone_sameEnds a d hcrit).faultMark.trans hfault
  obtain ⟨u, hends, hcheck⟩ := exec_check_faults hearly (exec_onHealthy he hH) (hcfg ▸ hn) (hcfg ▸ hk) hdir
    (hcfg ▸ horder) hpart
  refine ⟨_, _, he, hcheck, ?_, hends.status, hends.result, hends.posted⟩
  rw [State.raise_faultMark, hends.faultMark, hmark, Option.none_or]

/-- Settles O32, for each order of the two buses. -/
theorem checkAfterPartialWriteFaults : Obligations.CheckAfterPartialWriteFaults := by
  unfold Obligations.CheckAfterPartialWriteFaults
  intro s a i hi hidle hH hc hk hcrit hfault hpart
  obtain ⟨d, hd⟩ := write_data hi
  have hn : s.cfg.nGnd ≤ 16 := by
    simp only [Config.wellFormed, Bool.and_eq_true, decide_eq_true_eq] at hc
    omega
  cases horder : s.cfg.busCheckOrder with
  | lowFirst =>
    exact exec_write_check_faults (first := .low) hd hidle hH hn hk hcrit hfault (by rw [horder]; rfl) hpart
  | highFirst =>
    rw [Bool.and_comm] at hpart
    exact exec_write_check_faults (first := .high) hd hidle hH hn hk hcrit hfault (by rw [horder]; rfl) hpart

end Sys2Proof.Machine
end
